-- ==== Sys2Proof/Word.lean ====
section
/-! DEFINITION. The word types of speech-server CORE, and the values its binary64 datapath computes with
(00_scope.md R9, R11). -/

namespace Sys2Proof

/-- A byte of the host window. -/
abbrev Byte := BitVec 8

/-- A 32-bit register, command word or data bus value. -/
abbrev Word := BitVec 32

/-- The encoding of a binary64 value (an element of RE or IM, XIN, XOUT, SCALE). -/
abbrev Word64 := BitVec 64

/-- A byte offset into the host window (R80: 16 bits wide). -/
abbrev Offset := BitVec 16

/-- The name of one occurrence of a floating-point operation: the number of the command's draw under
the places of the loops it stands in. Two occurrences have two names, so the NaNs they produce are
independent draws (R11, 93_implementation_defined.md I9). -/
abbrev Tag := List Nat

/-- A binary64 value, decoded: a NaN with its sign and fraction field, an infinity, or the finite value
`(-1)^neg * mant * 2^exp`. Zero is `mant = 0`. -/
inductive Fp where
  | nan (neg : Bool) (frac : BitVec 52)
  | inf (neg : Bool)
  | fin (neg : Bool) (mant : Nat) (exp : Int)
deriving DecidableEq, Repr

/-- Element k of the spectrum buffers, as one complex value (R220). -/
structure Cpx where
  re : Fp
  im : Fp
deriving DecidableEq, Repr

/-- A binary interchange format: its precision and the exponents of the unit in the last place of its
smallest and of its largest finite values. -/
structure FpFormat where
  prec : Nat
  eMin : Int
  eMax : Int
deriving DecidableEq, Repr

end Sys2Proof
end

