-- ==== Sys2Proof/Machine/Bits.lean ====
section
/-! DEFINITION. Byte order and bit order: little-endian words (20_memory.md R86), and the MSB-first bit
stream of the frame (30_encoding.md R138, 43_bitcodec.md R250). -/

namespace Sys2Proof

/-- The `n` low bytes of `v`, the least significant one first (R86). -/
def leBytes (n v : Nat) : List Byte :=
  match n with
  | 0 => []
  | n + 1 => BitVec.ofNat 8 v :: leBytes n (v / 256)

/-- The number whose bytes are `bs`, the least significant one first (R86). -/
def leNat (bs : List Byte) : Nat :=
  match bs with
  | [] => 0
  | b :: rest => b.toNat + 256 * leNat rest

/-- A list cut into `n` pieces of `k` elements. -/
def pieces {α : Type} (k n : Nat) (xs : List α) : List (List α) :=
  match n with
  | 0 => []
  | n + 1 => xs.take k :: pieces k n (xs.drop k)

/-- The bytes of 64-bit elements in the order they stand in RE or IM (20_memory.md R89). -/
def bytesOf64 (us : List Word64) : List Byte := us.flatMap fun u => leBytes 8 u.toNat

/-- The bytes of 32-bit elements in the order they stand in PCM_OUT (20_memory.md R88). -/
def bytesOf32 (us : List Word) : List Byte := us.flatMap fun u => leBytes 4 u.toNat

/-- The 64-bit elements that stand in `8 * n` bytes (20_memory.md R89). -/
def words64 (n : Nat) (bs : List Byte) : List Word64 :=
  (pieces 8 n bs).map fun b => BitVec.ofNat 64 (leNat b)

/-- The 32-bit elements that stand in `4 * n` bytes (20_memory.md R88). -/
def words32 (n : Nat) (bs : List Byte) : List Word :=
  (pieces 4 n bs).map fun b => BitVec.ofNat 32 (leNat b)

/-- The low `n` bits of `v`, the most significant one first (43_bitcodec.md R251). -/
def bitsOf (n v : Nat) : List Bool :=
  match n with
  | 0 => []
  | n + 1 => v.testBit n :: bitsOf n v

/-- The unsigned integer of a field, its most significant bit first (43_bitcodec.md R252). -/
def natOf (bs : List Bool) : Nat := bs.foldl (fun v b => 2 * v + b.toNat) 0

/-- The bits of a byte in stream order: bit 7 first (R138). -/
def bitsOfByte (b : Byte) : List Bool := bitsOf 8 b.toNat

/-- `n` bytes holding a bit stream that starts at bit 7 of the first of them; the bits after the stream's
end are 0 (R138, R139). -/
def packBytes (n : Nat) (bs : List Bool) : List Byte :=
  match n with
  | 0 => []
  | n + 1 =>
    BitVec.ofNat 8 (natOf (bs.take 8 ++ List.replicate (8 - bs.length) false)) :: packBytes n (bs.drop 8)

/-- What a read of `n` bits at position `pos` of a stream gives: the value, with 0 for each bit at or past
the stream's end, and whether there was such a bit (43_bitcodec.md R252, 46_decode.md R313). -/
def readField (stream : List Bool) (pos n : Nat) : Nat × Bool :=
  let got := (stream.drop pos).take n
  (natOf (got ++ List.replicate (n - got.length) false), decide (got.length < n))

end Sys2Proof
end

