-- ==== Sys2Proof/Config.lean ====
section
/-! DEFINITION. The parameters and constants of CORE (00_scope.md R8), and the values the spec leaves
free: those have no body, so nothing can be proved of the value a draw takes. -/

namespace Sys2Proof.Config

/-- The document's constants (R8, 10_state.md R22). -/
def version : Nat := 2
def frameSamples : Nat := 1024
def sampleRate : Nat := 48000
def headerSize : Nat := 12
def fftSize : Nat := 1024

/-- log2 of the FFT length (R8, LOG2N). -/
def log2N : Nat := 10

/-- Capacity of the frame buffer (R8, FBUF_BYTES). -/
def fbufBytes : Nat := 4096

/-- BASE, the address of CORE's window in the host system: OPEN in the spec (R8, R80, I14).
DESIGN CHOICE, log 11. -/
opaque base : Nat

/-- The byte that draw number `n` gives for the window offset `a`: memory contents after power-on
(R380, I6) and locations of an aborted command (R382, I8). Log 4, log 8. -/
opaque freeByte (n a : Nat) : Byte

/-- The 32-bit draw number `n`, the data of a read of an engine-used location while BUSY
(20_memory.md R94, I7). Log 7. -/
opaque freeWord (n : Nat) : Word

/-- Sign and fraction field of the binary64 NaN that the operation named by the tag produces
(00_scope.md R11, I9). Log 6. -/
opaque freeNaN64 (t : Tag) : Bool × BitVec 52

/-- Sign and fraction field of the binary32 NaN that the conversion named by the tag produces
(00_scope.md R11, I9). Log 6. -/
opaque freeNaN32 (t : Tag) : Bool × BitVec 23

end Sys2Proof.Config
end

