-- ==== Sys2Proof/Machine/Profile.lean ====
section
/-! DEFINITION. The profile system (41_profile.md): the weight table, the totals, the two lookups, and the
contents of PROM. -/

namespace Sys2Proof.Machine

/-- Number of encoded bins of profile `p` (R200, R204). Defined for the ids 0 to 3. -/
def binCount (p : Nat) : Nat :=
  match p with
  | 0 => 160
  | 1 => 256
  | 2 => 384
  | 3 => 512
  | _ => 0

/-- The rows of the weight table (R202) from the lowest range up: the excluded upper bound in Hz, and the
weights for the profiles 0 to 3. The last row has no upper bound. -/
def weightRows : List (Nat × List Nat) :=
  [ (50, [5, 7, 9, 16]), (125, [12, 14, 16, 16]), (250, [11, 13, 15, 16]), (500, [10, 12, 14, 16]),
    (1000, [9, 11, 13, 16]), (3000, [8, 10, 12, 16]), (7000, [7, 9, 11, 16]),
    (9000, [6, 8, 10, 16]), (13000, [5, 7, 9, 16]) ]

/-- The weights above 13000 Hz (R202, last row). -/
def lastWeightRow : List Nat := [4, 6, 8, 16]

/-- Whether bin `i` lies below `hz`: its frequency is `i * 48000 / 1024` Hz (R201), compared exactly. -/
def binBelow (i hz : Nat) : Bool := decide (i * Config.sampleRate < hz * Config.fftSize)

/-- The row of the weight table whose range holds bin `i`: the first one whose upper bound lies above it. -/
def weightRow (i : Nat) (rows : List (Nat × List Nat)) : List Nat :=
  match rows with
  | [] => lastWeightRow
  | (hz, ws) :: rest => if binBelow i hz then ws else weightRow i rest

/-- `weights_p[i]` (R202), for `p` in 0..3 and `i < binCount p`. -/
def weight (p i : Nat) : Nat := (weightRow i weightRows).getD p 0

/-- The weights of the encoded bins of profile `p`, in order. -/
def weights (p : Nat) : List Nat := (List.range (binCount p)).map (weight p)

/-- `totalBits(p)` (R205). -/
def totalBits (p : Nat) : Nat := 2 * (weights p).sum

/-- `payloadBytes(p)` (R205). -/
def payloadBytes (p : Nat) : Nat := (totalBits p + 7) / 8

/-- The frame size `HEADER_SIZE + payloadBytes(p)` (R130, R207). -/
def frameBytes (p : Nat) : Nat := Config.headerSize + payloadBytes p

/-- The strict lookup of a profile id, used by ENC, FSIZE and HERM (R209). -/
def lookup (p : Nat) : Option Nat := if p ≤ 3 then some p else none

/-- The fallback lookup of DEC (R209, 46_decode.md R311): the profile, and whether it fell back to 0. -/
def lookupDec (p : Nat) : Nat × Bool := if p ≤ 3 then (p, false) else (0, true)

/-- `PROM[p][i]` (10_state.md R42, R208), for `p` in 0..3 and `i` in 0..511. -/
def promEntry (p i : Nat) : Byte := if i < binCount p then BitVec.ofNat 8 (weight p i) else 0

/-- The byte at offset `a` of the PROM region: `PROM[p][i]` stands at `512p + i` (20_memory.md R81). -/
def promByte (a : Nat) : Byte := promEntry (a / 512) (a % 512)

end Sys2Proof.Machine
end

