-- ==== Sys2Proof/Syntax.lean ====
section
/-! DEFINITION. The commands of CORE: one constructor for each row of the opcode table
(30_encoding.md R122). -/

namespace Sys2Proof

/-- A decoded command. An argument is the unsigned integer ARG = `w[15:8]` (R121); its range is checked
when the command runs, not when it is decoded (R126). -/
inductive Instr where
  /-- NOP (40_command.md R186). -/
  | nop
  /-- FFTF, forward FFT (42_fft.md R224). -/
  | fftf
  /-- FFTI, inverse FFT (42_fft.md R225). -/
  | ffti
  /-- HERM p (46_decode.md R317). -/
  | herm (p : Nat)
  /-- QUANT b (44_quantizer.md R273). -/
  | quant (b : Nat)
  /-- DEQUANT b (44_quantizer.md R274). -/
  | dequant (b : Nat)
  /-- WRBITS n (43_bitcodec.md R251). -/
  | wrbits (n : Nat)
  /-- RDBITS n (43_bitcodec.md R252). -/
  | rdbits (n : Nat)
  /-- FSIZE p (41_profile.md R210). -/
  | fsize (p : Nat)
  /-- FBCLR (43_bitcodec.md R253). -/
  | fbclr
  /-- SPCLR (42_fft.md R228). -/
  | spclr
  /-- ENC p (45_encode.md R290). -/
  | enc (p : Nat)
  /-- DEC (46_decode.md R310). -/
  | dec
deriving DecidableEq, Repr

/-- Why a command word is ILLEGAL (R123, R124). -/
inductive Illegal where
  /-- `w[31:16]` is not 0. -/
  | reservedField
  /-- `w[15:8]` is not 0 and the opcode's ARG is unused. -/
  | unusedArg
  /-- The opcode is not in the map of R122. -/
  | unassignedOpcode
deriving DecidableEq, Repr

/-- What the decoder of R126 answers: every word is one command or ILLEGAL. -/
inductive Decoded where
  | instr (i : Instr)
  | illegal (why : Illegal)
deriving DecidableEq, Repr

end Sys2Proof
end

