-- ==== Sys2Proof/WellFormed.lean ====
section
/-! DEFINITION. Which terms of `Instr` are commands: ARG is an 8-bit field (30_encoding.md R120, R121). -/

namespace Sys2Proof

/-- The argument fits the 8 bits of the ARG field (R121). -/
def fitsArg (n : Nat) : Bool := decide (n < 256)

/-- A command that a command word can hold. Every 8-bit argument is well formed: a value out of the
command's own range makes the command fail when it runs (R121). -/
def Instr.wellFormed (i : Instr) : Bool :=
  match i with
  | .nop => true
  | .fftf => true
  | .ffti => true
  | .herm p => fitsArg p
  | .quant b => fitsArg b
  | .dequant b => fitsArg b
  | .wrbits n => fitsArg n
  | .rdbits n => fitsArg n
  | .fsize p => fitsArg p
  | .fbclr => true
  | .spclr => true
  | .enc p => fitsArg p
  | .dec => true

end Sys2Proof
end

