-- ==== Sys2Proof/Decode.lean ====
section
/-! DEFINITION. Decoding of a command word (30_encoding.md R120 to R126), and after it the encoder. -/

namespace Sys2Proof

/-- OPC = `w[7:0]` (R120). -/
def opcField (w : Word) : Nat := (w.extractLsb' 0 8).toNat

/-- ARG = `w[15:8]`, taken as an unsigned integer (R120, R121). -/
def argField (w : Word) : Nat := (w.extractLsb' 8 8).toNat

/-- RSV = `w[31:16]` (R120). -/
def rsvField (w : Word) : Nat := (w.extractLsb' 16 16).toNat

/-- A command whose ARG is unused: ARG must be 0 (R123). -/
def decodeNoArg (arg : Nat) (i : Instr) : Decoded :=
  if arg = 0 then .instr i else .illegal .unusedArg

/-- The decoder of R126: total, every word is one command or ILLEGAL. -/
def decode (w : Word) : Decoded :=
  if rsvField w ≠ 0 then .illegal .reservedField
  else
    match opcField w with
    | 0x00 => decodeNoArg (argField w) .nop
    | 0x01 => decodeNoArg (argField w) .fftf
    | 0x02 => decodeNoArg (argField w) .ffti
    | 0x03 => .instr (.herm (argField w))
    | 0x04 => .instr (.quant (argField w))
    | 0x05 => .instr (.dequant (argField w))
    | 0x06 => .instr (.wrbits (argField w))
    | 0x07 => .instr (.rdbits (argField w))
    | 0x08 => .instr (.fsize (argField w))
    | 0x09 => decodeNoArg (argField w) .fbclr
    | 0x0A => decodeNoArg (argField w) .spclr
    | 0x10 => .instr (.enc (argField w))
    | 0x11 => decodeNoArg (argField w) .dec
    | _ => .illegal .unassignedOpcode

/-- OPC of a command (R122). -/
def Instr.opcode (i : Instr) : Nat :=
  match i with
  | .nop => 0x00
  | .fftf => 0x01
  | .ffti => 0x02
  | .herm _ => 0x03
  | .quant _ => 0x04
  | .dequant _ => 0x05
  | .wrbits _ => 0x06
  | .rdbits _ => 0x07
  | .fsize _ => 0x08
  | .fbclr => 0x09
  | .spclr => 0x0A
  | .enc _ => 0x10
  | .dec => 0x11

/-- ARG of a command, 0 where it is unused (R121, R123). -/
def Instr.arg (i : Instr) : Nat :=
  match i with
  | .nop => 0
  | .fftf => 0
  | .ffti => 0
  | .herm p => p
  | .quant b => b
  | .dequant b => b
  | .wrbits n => n
  | .rdbits n => n
  | .fsize p => p
  | .fbclr => 0
  | .spclr => 0
  | .enc p => p
  | .dec => 0

/-- The command word `(ARG << 8) | OPC` of a well-formed command (R120, R150). -/
def encode (i : Instr) : Word := BitVec.ofNat 32 (i.arg * 256 + i.opcode)

/-- The 32-bit command word that a table row's bits stand for; bits above `nbits` are 0. -/
def tableWord (nbits w : Nat) : Word := BitVec.ofNat 32 (w % 2 ^ nbits)

/-- The command the decoder reads from a table row's bits, none where it answers ILLEGAL. -/
def decodeTableWord (nbits w : Nat) : Option Instr :=
  match decode (tableWord nbits w) with
  | .instr i => some i
  | .illegal _ => none

end Sys2Proof
end

