-- ==== Sys2Proof/Machine/State.lean ====
section
/-! DEFINITION. The state of CORE as plain data (10_state.md), the events of its step, and its value
right after power-on reset (70_reset_and_hazards.md R380). The constant registers and the ROMs never
change: they are definitions of Config.lean and Machine/Profile.lean, not fields (log 10). -/

namespace Sys2Proof.Machine

/-- Why a step would stop the machine with a fault. CORE has no trap (60_exceptions.md R349): a command
error is a completion with STATUS.ERR set, a bus error is a response to the host. So no fault exists. -/
inductive Fault where
deriving DecidableEq, Repr

/-- Why a step would refuse an instruction. -/
inductive Refusal where
  /-- Raised by the dispatch for a command that has no meaning yet; safe. No arm raises it now. -/
  | notModelled (mnemonic : String)
deriving DecidableEq, Repr

/-- The values of STATUS.ERR (60_exceptions.md R340). Codes 7 to 15 are never produced (I10). -/
inductive ErrCode where
  | success
  | unknownProfile
  | badFrameLength
  | tooSmall
  | unsupportedVersion
  | badArgument
  | illegalCommand
deriving DecidableEq, Repr

/-- The registers of CORE that can change (10_state.md R23 to R36), each with the bits that are stored.
STATUS.BUSY is not here: it is `State.busy`. -/
structure Regs where
  /-- CTRL.IE (R23). -/
  ie : Bool
  /-- STATUS.DONE (R24). -/
  done : Bool
  /-- STATUS.OVR (R24). -/
  ovr : Bool
  /-- STATUS.TRUNC (R24). -/
  trunc : Bool
  /-- STATUS.FBK (R24). -/
  fbk : Bool
  /-- STATUS.ERR (R24). -/
  err : ErrCode
  /-- CMD, the last accepted command word (R25). -/
  cmd : Word
  /-- SEQ (R26). -/
  seq : Word
  /-- NSAMP bits 15:0 (R27). -/
  nsamp : BitVec 16
  /-- FLEN bits 15:0, at most 4096 (R28). -/
  flen : BitVec 16
  /-- BOFF bits 15:0 (R29). -/
  boff : BitVec 16
  /-- BITIDX (R30). -/
  bitidx : Word
  /-- VALUE (R31). -/
  value : Word
  /-- RESULT (R32). -/
  result : Word
  /-- XIN (R33). -/
  xin : Word64
  /-- XOUT (R34). -/
  xout : Word64
  /-- SCALE (R35). -/
  scale : Word64
  /-- DPROF bits 7:0 (R36). -/
  dprof : BitVec 8
deriving DecidableEq, Repr

/-- The five working memories PCM_IN, PCM_OUT, RE, IM and FBUF (R38 to R41), as the bytes of the host
window they stand in (20_memory.md R81): the written bytes, by rising offset. An offset that is not
listed was not written since power-on and reads as the byte of draw `epoch` (R380; log 4). -/
structure Memory where
  cells : List Host.Cell
  epoch : Nat
deriving DecidableEq, Repr

/-- The command in flight (R45): the accepted word, and the snapshot of the registers and of the
memories at acceptance (40_command.md R181). -/
structure InFlight where
  word : Word
  regs : Regs
  mem : Memory
deriving DecidableEq, Repr

/-- The size of a host access: 1, 2 or 4 bytes (20_memory.md R84). -/
inductive Size where
  | byte
  | half
  | word
deriving DecidableEq, Repr

/-- A host access: `MemRead(addr, n)` or `MemWrite(addr, n, v)` (20_memory.md R84). -/
inductive Access where
  | read (addr : Offset) (size : Size)
  | write (addr : Offset) (size : Size) (v : Word)
deriving DecidableEq, Repr

/-- One event of the total order of 20_memory.md R96. The acceptance of a command is part of the host's
write to CMD (40_command.md R181). -/
inductive Event where
  /-- The host performs a bus access. -/
  | host (a : Access)
  /-- The engine has the turn: the command in flight completes (40_command.md R183). -/
  | engine
  /-- The system's reset input is asserted and released (R380). -/
  | powerOn
deriving DecidableEq, Repr

/-- What the bus answers to a host access: the data (0 for a bus error) and the error response
(20_memory.md R84, 60_exceptions.md R348). -/
structure Response where
  data : Word
  error : Bool
deriving DecidableEq, Repr

/-- The regions of the host window (20_memory.md R81). -/
inductive Region where
  | regs
  | pcmIn
  | pcmOut
  | re
  | im
  | fbuf
  | prom
deriving DecidableEq, Repr

/-- The registers of the register page (20_memory.md R82), and its reserved offsets (R83). -/
inductive HostReg where
  | version
  | frameSamples
  | sampleRate
  | headerSize
  | fftSize
  | ctrl
  | status
  | cmd
  | seq
  | nsamp
  | flen
  | boff
  | bitidx
  | value
  | result
  | xinLo
  | xinHi
  | xoutLo
  | xoutHi
  | scaleLo
  | scaleHi
  | dprof
  | profBins (p : Nat)
  | profTbits (p : Nat)
  | profPbytes (p : Nat)
  | profFbytes (p : Nat)
  | reserved
deriving DecidableEq, Repr

/-- The whole machine. `inbox`, `resp` and `draws` are the model's own (logs 1, 3, 5). -/
structure State where
  regs : Regs
  mem : Memory
  /-- The command in flight, none when the engine is idle (R45). -/
  inFlight : Option InFlight
  /-- The events to come, first one first (log 1). -/
  inbox : List Event
  /-- The bus response to the last host access (log 3). -/
  resp : Option Response
  /-- The number of the next draw (log 5). -/
  draws : Nat
deriving DecidableEq, Repr

/-- Every register at its reset value (R380). -/
def Regs.reset : Regs where
  ie := false
  done := false
  ovr := false
  trunc := false
  fbk := false
  err := .success
  cmd := 0
  seq := 0
  nsamp := 0
  flen := 0
  boff := 0
  bitidx := 0
  value := 0
  result := 0
  xin := 0
  xout := 0
  scale := 0
  dprof := 0

/-- The machine right after power-on reset (R380): registers at their reset values, every byte of the
memories a draw, no command in flight. -/
def State.reset : State where
  regs := Regs.reset
  mem := { cells := [], epoch := 0 }
  inFlight := none
  inbox := []
  resp := none
  draws := 1

end Sys2Proof.Machine
end

