-- ==== Sys2Proof/Machine/Ops.lean ====
section
/-! DEFINITION. The named operations over the memories and the registers, and the lifecycle of a command:
acceptance, completion, an error, the soft reset and the power-on reset. CORE takes no exception and
returns from none (60_exceptions.md R349): completing with an error is the one operation that stands in
that place. -/

namespace Sys2Proof.Machine

/-! ## Regions (20_memory.md R81) -/

def pcmInBase : Nat := 0x1000
def pcmOutBase : Nat := 0x2000
def reBase : Nat := 0x4000
def imBase : Nat := 0x6000
def fbufBase : Nat := 0x8000
def promBase : Nat := 0xC000

/-- The rows of R81: region, first offset, size in bytes. -/
def regionRows : List (Region × Nat × Nat) :=
  [ (.regs, 0x0000, 0x100), (.pcmIn, pcmInBase, 0x1000), (.pcmOut, pcmOutBase, 0x1000),
    (.re, reBase, 0x2000), (.im, imBase, 0x2000), (.fbuf, fbufBase, 0x1000), (.prom, promBase, 0x800) ]

/-- The region an offset lies in, none where the window is unmapped (R81). -/
def regionIn (a : Nat) (rows : List (Region × Nat × Nat)) : Option Region :=
  match rows with
  | [] => none
  | (r, base, size) :: rest => if base ≤ a ∧ a < base + size then some r else regionIn a rest

/-- The region an offset lies in (R81). -/
def regionOf (a : Nat) : Option Region := regionIn a regionRows

/-- Whether an offset belongs to one of the five working memories (10_state.md R38 to R41). -/
def isRam (a : Nat) : Bool := (0x1000 ≤ a && a < 0x3000) || (0x4000 ≤ a && a < 0x9000)

/-- The address of an offset in the host system (R80, I14). No rule depends on it. -/
def systemAddress (a : Offset) : Nat := Config.base + a.toNat

/-! ## Memory -/

/-- The byte listed for an offset, none if nothing was written there. -/
def lookupCell (cells : List Host.Cell) (a : Nat) : Option Byte :=
  match cells with
  | [] => none
  | (k, b) :: rest => if k = a then some b else lookupCell rest a

/-- The byte that stands at an offset that no write has listed: the power-on draw (R380, I6; log 4). -/
def Memory.unlisted (epoch a : Nat) : Byte := Config.freeByte epoch a

/-- The byte at an offset of the working memories. -/
def Memory.byte (m : Memory) (a : Nat) : Byte :=
  (lookupCell m.cells a).getD (Memory.unlisted m.epoch a)

/-- The `n` bytes from offset `a` on. -/
def Memory.bytes (m : Memory) (a n : Nat) : List Byte := (List.range n).map fun k => m.byte (a + k)

/-- The cells that hold the bytes `bs` from offset `a` on. -/
def cellsFrom (a : Nat) (bs : List Byte) : List Host.Cell :=
  match bs with
  | [] => []
  | b :: rest => (a, b) :: cellsFrom (a + 1) rest

/-- The one write of memory: the bytes `bs` replace what stands from offset `a` on. -/
def Memory.writeBlock (m : Memory) (a : Nat) (bs : List Byte) : Memory :=
  { m with
    cells := m.cells.filter (fun c => decide (c.1 < a)) ++
      (cellsFrom a bs ++ m.cells.filter (fun c => decide (a + bs.length ≤ c.1))) }

/-- The addresses of a list of cells rise strictly, from `lo` on. -/
def risingFrom (lo : Nat) (cells : List Host.Cell) : Bool :=
  match cells with
  | [] => true
  | (k, _) :: rest => decide (lo ≤ k) && risingFrom (k + 1) rest

/-- The canonical form: offsets rise strictly, and each is one of the working memories. An offset that
is not listed holds no byte, so no entry can equal what it holds (log 4). -/
def Memory.wf (m : Memory) : Bool := risingFrom 0 m.cells && m.cells.all fun c => isRam c.1

/-- The `2^k` bytes from offset `a` on, read by halving the range: equal to `Memory.bytes`
(`Laws.block_eq_bytes`), and fast on a large memory. -/
def blockOf (epoch : Nat) (cells : List Host.Cell) (a k : Nat) : List Byte :=
  match k with
  | 0 => [(lookupCell cells a).getD (Memory.unlisted epoch a)]
  | k + 1 =>
    blockOf epoch (cells.filter fun c => decide (c.1 < a + 2 ^ k)) a k ++
      blockOf epoch (cells.filter fun c => decide (a + 2 ^ k ≤ c.1)) (a + 2 ^ k) k

/-- The `2^k` bytes from offset `a` on. -/
def Memory.block (m : Memory) (a k : Nat) : List Byte := blockOf m.epoch m.cells a k

/-- All elements of PCM_IN, encoded (20_memory.md R88). -/
def Memory.pcmIn (m : Memory) : List Word := words32 1024 (m.block pcmInBase 12)

/-- All elements of RE, encoded (R89). -/
def Memory.re (m : Memory) : List Word64 := words64 1024 (m.block reBase 13)

/-- All elements of IM, encoded (R89). -/
def Memory.im (m : Memory) : List Word64 := words64 1024 (m.block imBase 13)

/-- All bytes of FBUF (R90). -/
def Memory.fbuf (m : Memory) : List Byte := m.block fbufBase 12

/-- Element `i` of PCM_IN, encoded (R88). -/
def Memory.pcmInAt (m : Memory) (i : Nat) : Word := BitVec.ofNat 32 (leNat (m.bytes (pcmInBase + 4 * i) 4))

/-- Element `i` of PCM_OUT, encoded (R88). -/
def Memory.pcmOutAt (m : Memory) (i : Nat) : Word := BitVec.ofNat 32 (leNat (m.bytes (pcmOutBase + 4 * i) 4))

/-- Element `i` of RE, encoded (R89). -/
def Memory.reAt (m : Memory) (i : Nat) : Word64 := BitVec.ofNat 64 (leNat (m.bytes (reBase + 8 * i) 8))

/-- Element `i` of IM, encoded (R89). -/
def Memory.imAt (m : Memory) (i : Nat) : Word64 := BitVec.ofNat 64 (leNat (m.bytes (imBase + 8 * i) 8))

/-- The bit at absolute bit position `q` of FBUF: bit 7 − (q mod 8) of byte ⌊q/8⌋ (43_bitcodec.md R250). -/
def Memory.fbufBit (m : Memory) (q : Nat) : Bool := (m.byte (fbufBase + q / 8)).getLsbD (7 - q % 8)

/-- RE and IM are replaced from element `i` on (R89). -/
def Memory.writeSpectrum (m : Memory) (i : Nat) (re im : List Word64) : Memory :=
  (m.writeBlock (reBase + 8 * i) (bytesOf64 re)).writeBlock (imBase + 8 * i) (bytesOf64 im)

/-- PCM_OUT is replaced (R88). -/
def Memory.writePcmOut (m : Memory) (us : List Word) : Memory := m.writeBlock pcmOutBase (bytesOf32 us)

/-- FBUF is replaced from byte `a` on (R90). -/
def Memory.writeFbuf (m : Memory) (a : Nat) (bs : List Byte) : Memory := m.writeBlock (fbufBase + a) bs

/-- The bytes of draw number `n` for the offsets from `a` on (I8). -/
def drawnBytes (n a len : Nat) : List Byte := (List.range len).map fun k => Config.freeByte n (a + k)

/-- Whether an offset lies in one of some ranges (first offset, length). -/
def inRanges (a : Nat) (ranges : List (Nat × Nat)) : Prop := ∃ r ∈ ranges, r.1 ≤ a ∧ a < r.1 + r.2

/-- Every byte of the given ranges (first offset, length) becomes a draw (70_reset_and_hazards.md R382). -/
def Memory.scramble (m : Memory) (n : Nat) (ranges : List (Nat × Nat)) : Memory :=
  match ranges with
  | [] => m
  | (a, len) :: rest => Memory.scramble (m.writeBlock a (drawnBytes n a len)) n rest

/-! ## The state's parts -/

/-- STATUS.BUSY: a command is in flight (10_state.md R24, R45; log 10). -/
def State.busy (s : State) : Bool := s.inFlight.isSome

/-- The registers a command reads: those of its snapshot (40_command.md R182; log 13). -/
def State.inRegs (s : State) : Regs :=
  match s.inFlight with
  | some f => f.regs
  | none => s.regs

/-- The memories a command reads: those of its snapshot (40_command.md R182; log 13). -/
def State.inMem (s : State) : Memory :=
  match s.inFlight with
  | some f => f.mem
  | none => s.mem

def State.setRegs (s : State) (r : Regs) : State := { s with regs := r }
def State.setMem (s : State) (m : Memory) : State := { s with mem := m }
def State.setInFlight (s : State) (f : Option InFlight) : State := { s with inFlight := f }
def State.setInbox (s : State) (l : List Event) : State := { s with inbox := l }
def State.setResp (s : State) (r : Option Response) : State := { s with resp := r }

/-- One draw has been used (log 5). -/
def State.nextDraw (s : State) : State := { s with draws := s.draws + 1 }

/-! ## The lifecycle of a command -/

/-- The registers at acceptance of the word `w` (40_command.md R181): CMD holds it, and DONE, ERR, TRUNC
and FBK are cleared. OVR is not changed. -/
def Regs.accepting (r : Regs) (w : Word) : Regs :=
  { r with cmd := w, done := false, err := .success, trunc := false, fbk := false }

/-- Acceptance of the word `w` (40_command.md R181). -/
def State.accept (s : State) (w : Word) : State :=
  (s.setRegs (s.regs.accepting w)).setInFlight
    (some { word := w, regs := s.regs.accepting w, mem := s.mem })

/-- Completion (40_command.md R183): the command's writes are applied at once, ERR takes the code, BUSY
becomes 0 and DONE becomes 1. -/
def State.finish (s : State) (code : ErrCode) (r : Regs) (m : Memory) : State :=
  ((s.setRegs { r with done := true, err := code }).setMem m).setInFlight none

/-- `complete` (00_scope.md R10): completion without an error. -/
def State.succeed (s : State) (r : Regs) (m : Memory) : State := s.finish .success r m

/-- `raise` (00_scope.md R10, 60_exceptions.md R344): completion with an error code and no other effect. -/
def State.fail (s : State) (code : ErrCode) : State := s.finish code s.regs s.mem

/-! ## Reset -/

/-- The absolute bit position `P = BOFF × 8 + BITIDX` (43_bitcodec.md R250). -/
def Regs.bitPos (r : Regs) : Nat := 8 * r.boff.toNat + r.bitidx.toNat

/-- The FBUF bytes ⌊P/8⌋ .. ⌊(P+n−1)/8⌋ that a field of `n` bits at `P` stands in: the first, and how many. -/
def fieldBytes (pos n : Nat) : Nat × Nat := (pos / 8, if n = 0 then 0 else (pos % 8 + n + 7) / 8)

/-- The part of a range of FBUF bytes that FBUF has, as a range of the window. -/
def fbufRange (first count : Nat) : Nat × Nat := (fbufBase + min first 4096, min (first + count) 4096 - min first 4096)

/-- The memory locations of a command's Writes list, as ranges of the window (first offset, length), read
from the registers `r` of its snapshot. The list is the command's whatever its checks answer (log 8). -/
def memWrites (i : Instr) (r : Regs) : List (Nat × Nat) :=
  let spectrum := [(reBase, 8192), (imBase, 8192)]
  match i with
  | .nop => []
  | .fftf => spectrum
  | .ffti => spectrum
  | .herm p =>
    match lookup p with
    | some q => [(reBase + 8 * binCount q, 8192 - 8 * binCount q), (imBase + 8 * binCount q, 8192 - 8 * binCount q)]
    | none => []
  | .quant _ => []
  | .dequant _ => []
  | .wrbits n =>
    let f := fieldBytes r.bitPos n
    [fbufRange f.1 f.2]
  | .rdbits _ => []
  | .fsize _ => []
  | .fbclr => [(fbufBase, 4096)]
  | .spclr => spectrum
  | .enc _ => (fbufBase, 4096) :: spectrum
  | .dec => (pcmOutBase, 4096) :: spectrum

/-- The locations that become draws when the command in flight is aborted (R382, I8). -/
def abortRanges (f : InFlight) : List (Nat × Nat) :=
  match decode f.word with
  | .instr i => memWrites i f.regs
  | .illegal _ => []

/-- The soft reset by CTRL.SRST (70_reset_and_hazards.md R382). -/
def State.softReset (s : State) : State :=
  match s.inFlight with
  | none => s.setRegs Regs.reset
  | some f =>
    (((s.setRegs Regs.reset).setMem (s.mem.scramble s.draws (abortRanges f))).setInFlight none).nextDraw

/-- The power-on reset (R380): the registers at their reset values, every byte of the memories a new draw,
no command in flight. -/
def State.powerOn (s : State) : State :=
  ((((s.setRegs Regs.reset).setMem { cells := [], epoch := s.draws }).setInFlight none).setResp none).nextDraw

end Sys2Proof.Machine
end

