-- ==== Sys2Proof/Machine/Flags.lean ====
section
/-! DEFINITION. STATUS, CTRL and irq: the words the host reads and the bits its writes clear or set
(10_state.md R23, R24, R46; 60_exceptions.md R340, R350). -/

namespace Sys2Proof.Machine

/-- The number of an error code in STATUS.ERR (60_exceptions.md R340). -/
def ErrCode.code (e : ErrCode) : Nat :=
  match e with
  | .success => 0
  | .unknownProfile => 1
  | .badFrameLength => 2
  | .tooSmall => 3
  | .unsupportedVersion => 4
  | .badArgument => 5
  | .illegalCommand => 6

/-- STATUS as the host reads it (10_state.md R24): BUSY 0, DONE 1, OVR 2, TRUNC 3, FBK 4, ERR 11:8. -/
def State.statusWord (s : State) : Word :=
  BitVec.ofNat 32 (s.busy.toNat + 2 * s.regs.done.toNat + 4 * s.regs.ovr.toNat + 8 * s.regs.trunc.toNat +
    16 * s.regs.fbk.toNat + 256 * s.regs.err.code)

/-- CTRL as the host reads it (10_state.md R23): IE in bit 0, SRST reads 0. -/
def Regs.ctrlWord (r : Regs) : Word := BitVec.ofNat 32 r.ie.toNat

/-- The W1C bits of STATUS (10_state.md R24): a 1 in bit 1 clears DONE, a 1 in bit 2 clears OVR; every other
bit of the written value has no effect. -/
def Regs.writeStatus (r : Regs) (v : Word) : Regs :=
  { r with done := r.done && !v.getLsbD 1, ovr := r.ovr && !v.getLsbD 2 }

/-- STATUS.OVR becomes 1 (40_command.md R185). -/
def Regs.overrun (r : Regs) : Regs := { r with ovr := true }

/-- `irq = STATUS.DONE & CTRL.IE` (10_state.md R46, 60_exceptions.md R350). -/
def State.irq (s : State) : Bool := s.regs.done && s.regs.ie

end Sys2Proof.Machine
end

