-- ==== Sys2Proof/Machine/Bus.lean ====
section
/-! DEFINITION. The host's bus accesses (20_memory.md R80 to R94). -/

namespace Sys2Proof.Machine

/-- The number of bytes of an access. -/
def Size.bytes (n : Size) : Nat :=
  match n with
  | .byte => 1
  | .half => 2
  | .word => 4

/-- The access sizes a region permits (R81): FBUF and PROM all, the others 32 bits only. -/
def Region.allows (r : Region) (n : Size) : Bool :=
  match r with
  | .fbuf => true
  | .prom => true
  | .regs => n == .word
  | .pcmIn => n == .word
  | .pcmOut => n == .word
  | .re => n == .word
  | .im => n == .word

/-- The region of a legal access, none for a bus error (R84): mapped, a size the region permits, aligned, and
inside one region. -/
def legalRegion (a : Nat) (n : Size) : Option Region :=
  match regionOf a with
  | none => none
  | some r =>
    if r.allows n && decide (a % n.bytes = 0) && decide (regionOf (a + n.bytes - 1) = some r) then some r
    else none

/-- The register at a 4-byte aligned offset of the register page (R82, R83). -/
def regAt (a : Nat) : HostReg :=
  match a with
  | 0x000 => .version
  | 0x004 => .frameSamples
  | 0x008 => .sampleRate
  | 0x00C => .headerSize
  | 0x010 => .fftSize
  | 0x020 => .ctrl
  | 0x024 => .status
  | 0x028 => .cmd
  | 0x02C => .seq
  | 0x030 => .nsamp
  | 0x034 => .flen
  | 0x038 => .boff
  | 0x03C => .bitidx
  | 0x040 => .value
  | 0x044 => .result
  | 0x048 => .xinLo
  | 0x04C => .xinHi
  | 0x050 => .xoutLo
  | 0x054 => .xoutHi
  | 0x058 => .scaleLo
  | 0x05C => .scaleHi
  | 0x060 => .dprof
  | _ =>
    if a < 0x080 then .reserved
    else if a < 0x090 then .profBins ((a - 0x080) / 4)
    else if a < 0x0A0 then .profTbits ((a - 0x090) / 4)
    else if a < 0x0B0 then .profPbytes ((a - 0x0A0) / 4)
    else if a < 0x0C0 then .profFbytes ((a - 0x0B0) / 4)
    else .reserved

/-- The two halves of a 64-bit register (10_state.md R33). -/
def loHalf (u : Word64) : Word := u.extractLsb' 0 32
def hiHalf (u : Word64) : Word := u.extractLsb' 32 32

/-- A 64-bit register with its low half replaced. -/
def setLo (u : Word64) (v : Word) : Word64 := hiHalf u ++ v

/-- A 64-bit register with its high half replaced. -/
def setHi (u : Word64) (v : Word) : Word64 := v ++ loHalf u

/-- The value of a register of the page while no command is in flight (R87; 10_state.md R22 to R37). -/
def State.readReg (s : State) (r : HostReg) : Word :=
  match r with
  | .version => BitVec.ofNat 32 Config.version
  | .frameSamples => BitVec.ofNat 32 Config.frameSamples
  | .sampleRate => BitVec.ofNat 32 Config.sampleRate
  | .headerSize => BitVec.ofNat 32 Config.headerSize
  | .fftSize => BitVec.ofNat 32 Config.fftSize
  | .ctrl => s.regs.ctrlWord
  | .status => s.statusWord
  | .cmd => s.regs.cmd
  | .seq => s.regs.seq
  | .nsamp => s.regs.nsamp.setWidth 32
  | .flen => s.regs.flen.setWidth 32
  | .boff => s.regs.boff.setWidth 32
  | .bitidx => s.regs.bitidx
  | .value => s.regs.value
  | .result => s.regs.result
  | .xinLo => loHalf s.regs.xin
  | .xinHi => hiHalf s.regs.xin
  | .xoutLo => loHalf s.regs.xout
  | .xoutHi => hiHalf s.regs.xout
  | .scaleLo => loHalf s.regs.scale
  | .scaleHi => hiHalf s.regs.scale
  | .dprof => s.regs.dprof.setWidth 32
  | .profBins p => BitVec.ofNat 32 (binCount p)
  | .profTbits p => BitVec.ofNat 32 (totalBits p)
  | .profPbytes p => BitVec.ofNat 32 (payloadBytes p)
  | .profFbytes p => BitVec.ofNat 32 (frameBytes p)
  | .reserved => 0

/-- Whether a register returns its value while a command is in flight (R94 (a)); a reserved offset reads 0
always (R83; log 7). -/
def HostReg.readableWhileBusy (r : HostReg) : Bool :=
  match r with
  | .version => true
  | .frameSamples => true
  | .sampleRate => true
  | .headerSize => true
  | .fftSize => true
  | .ctrl => true
  | .status => true
  | .cmd => true
  | .seq => false
  | .nsamp => false
  | .flen => false
  | .boff => false
  | .bitidx => false
  | .value => false
  | .result => false
  | .xinLo => false
  | .xinHi => false
  | .xoutLo => false
  | .xoutHi => false
  | .scaleLo => false
  | .scaleHi => false
  | .dprof => false
  | .profBins _ => true
  | .profTbits _ => true
  | .profPbytes _ => true
  | .profFbytes _ => true
  | .reserved => true

/-- The stored FLEN for a host write of `v`: `min(v[15:0], 4096)` (10_state.md R28). -/
def clampFlen (v : Word) : BitVec 16 := BitVec.ofNat 16 (min (v.extractLsb' 0 16).toNat Config.fbufBytes)

/-- A host write to CTRL (10_state.md R23): SRST performs the soft reset and the rest of the value is ignored
(R382); otherwise IE takes bit 0. -/
def State.writeCtrl (s : State) (v : Word) : State :=
  if v.getLsbD 1 then s.softReset else s.setRegs { s.regs with ie := v.getLsbD 0 }

/-- A host write to a register while no command is in flight (R87; 10_state.md R22 to R37). -/
def State.writeRegIdle (s : State) (r : HostReg) (v : Word) : State :=
  match r with
  | .version => s
  | .frameSamples => s
  | .sampleRate => s
  | .headerSize => s
  | .fftSize => s
  | .ctrl => s.writeCtrl v
  | .status => s.setRegs (s.regs.writeStatus v)
  | .cmd => s.accept v
  | .seq => s
  | .nsamp => s.setRegs { s.regs with nsamp := v.extractLsb' 0 16 }
  | .flen => s.setRegs { s.regs with flen := clampFlen v }
  | .boff => s.setRegs { s.regs with boff := v.extractLsb' 0 16 }
  | .bitidx => s.setRegs { s.regs with bitidx := v }
  | .value => s.setRegs { s.regs with value := v }
  | .result => s
  | .xinLo => s.setRegs { s.regs with xin := setLo s.regs.xin v }
  | .xinHi => s.setRegs { s.regs with xin := setHi s.regs.xin v }
  | .xoutLo => s
  | .xoutHi => s
  | .scaleLo => s.setRegs { s.regs with scale := setLo s.regs.scale v }
  | .scaleHi => s.setRegs { s.regs with scale := setHi s.regs.scale v }
  | .dprof => s
  | .profBins _ => s
  | .profTbits _ => s
  | .profPbytes _ => s
  | .profFbytes _ => s
  | .reserved => s

/-- A host write to a register while a command is in flight (R94): CTRL and the W1C bits of STATUS act, a
write to CMD is dropped and sets OVR (40_command.md R185), every other write is dropped. -/
def State.writeRegBusy (s : State) (r : HostReg) (v : Word) : State :=
  match r with
  | .version => s
  | .frameSamples => s
  | .sampleRate => s
  | .headerSize => s
  | .fftSize => s
  | .ctrl => s.writeCtrl v
  | .status => s.setRegs (s.regs.writeStatus v)
  | .cmd => s.setRegs s.regs.overrun
  | .seq => s
  | .nsamp => s
  | .flen => s
  | .boff => s
  | .bitidx => s
  | .value => s
  | .result => s
  | .xinLo => s
  | .xinHi => s
  | .xoutLo => s
  | .xoutHi => s
  | .scaleLo => s
  | .scaleHi => s
  | .dprof => s
  | .profBins _ => s
  | .profTbits _ => s
  | .profPbytes _ => s
  | .profFbytes _ => s
  | .reserved => s

/-- `n` bytes of memory as the data of a read (R86), the data bits above them 0 (log 9). -/
def readData (bs : List Byte) : Word := BitVec.ofNat 32 (leNat bs)

/-- The `n` bytes of PROM from its offset `a` on (R91). -/
def promBytes (a n : Nat) : List Byte := (List.range n).map fun k => promByte (a + k)

/-- The data of a legal read in a region while no command is in flight (R86 to R91). -/
def State.readIdle (s : State) (r : Region) (a : Nat) (n : Size) : Word :=
  match r with
  | .regs => s.readReg (regAt a)
  | .pcmIn => readData (s.mem.bytes a n.bytes)
  | .pcmOut => readData (s.mem.bytes a n.bytes)
  | .re => readData (s.mem.bytes a n.bytes)
  | .im => readData (s.mem.bytes a n.bytes)
  | .fbuf => readData (s.mem.bytes a n.bytes)
  | .prom => readData (promBytes (a - promBase) n.bytes)

/-- Whether a legal read gives its value while a command is in flight (R94 (a)). -/
def Region.readableWhileBusy (r : Region) (a : Nat) : Bool :=
  match r with
  | .regs => (regAt a).readableWhileBusy
  | .pcmIn => false
  | .pcmOut => false
  | .re => false
  | .im => false
  | .fbuf => false
  | .prom => true

/-- The response to a host access. -/
def State.answer (s : State) (data : Word) (error : Bool) : State :=
  s.setResp (some { data := data, error := error })

/-- A legal host read (R86 to R92, R94): it has no effect on CORE's state. While BUSY an engine-used location
reads as a 32-bit draw (log 7). -/
def State.legalRead (s : State) (r : Region) (a : Nat) (n : Size) : State :=
  if s.busy && !r.readableWhileBusy a then (s.answer (Config.freeWord s.draws) false).nextDraw
  else s.answer (s.readIdle r a n) false

/-- The effect of a legal host write (R87 to R91, R94): PCM_OUT and PROM ignore it. -/
def State.legalWrite (s : State) (r : Region) (a : Nat) (n : Size) (v : Word) : State :=
  match r with
  | .regs => if s.busy then s.writeRegBusy (regAt a) v else s.writeRegIdle (regAt a) v
  | .pcmIn => if s.busy then s else s.setMem (s.mem.writeBlock a (leBytes n.bytes v.toNat))
  | .pcmOut => s
  | .re => if s.busy then s else s.setMem (s.mem.writeBlock a (leBytes n.bytes v.toNat))
  | .im => if s.busy then s else s.setMem (s.mem.writeBlock a (leBytes n.bytes v.toNat))
  | .fbuf => if s.busy then s else s.setMem (s.mem.writeBlock a (leBytes n.bytes v.toNat))
  | .prom => s

/-- One host access (R84, R92, R93): performed whole, or a bus error, which changes no state of CORE and
answers data 0 with the error response (60_exceptions.md R348). -/
def State.access (s : State) (x : Access) : State :=
  match x with
  | .read a n =>
    match legalRegion a.toNat n with
    | none => s.answer 0 true
    | some r => s.legalRead r a.toNat n
  | .write a n v =>
    match legalRegion a.toNat n with
    | none => s.answer 0 true
    | some r => (s.legalWrite r a.toNat n v).answer 0 false

end Sys2Proof.Machine
end

