-- ==== Sys2Proof/Machine/Float.lean ====
section
/-! DEFINITION. IEEE-754 binary64 and binary32 as CORE uses them (00_scope.md R11, R12): every operation
is computed exactly and rounded once to nearest, ties to even; subnormals are kept; a NaN that an
operation produces is a draw. The formats are general knowledge in the spec too (G1; log 12). -/

namespace Sys2Proof

/-- binary64: 53 bits of precision, units in the last place from 2^-1074 to 2^971. -/
def binary64 : FpFormat := { prec := 53, eMin := -1074, eMax := 971 }

/-- binary32: 24 bits of precision, units in the last place from 2^-149 to 2^104. -/
def binary32 : FpFormat := { prec := 24, eMin := -149, eMax := 104 }

/-! ## Rounding -/

/-- The number of bits of `m`, 0 for 0. -/
def bitLength (m : Nat) : Nat := if m = 0 then 0 else m.log2 + 1

/-- `m / 2^d` rounded to the nearest integer, ties to even. -/
def roundShift (m d : Nat) : Nat :=
  let q := m / 2 ^ d
  let r := 2 * (m % 2 ^ d)
  if r > 2 ^ d ∨ (r = 2 ^ d ∧ q % 2 = 1) then q + 1 else q

/-- The exponent of the unit in the last place of `m * 2^e` (with `m > 0`) in a format, before rounding. -/
def ulpExp (f : FpFormat) (m : Nat) (e : Int) : Int :=
  max (e + (bitLength m : Int) - (f.prec : Int)) f.eMin

/-- `m * 2^e` on the grid of multiples of `2^u`, rounded to nearest, ties to even. -/
def onGrid (m : Nat) (e u : Int) : Nat :=
  if e ≥ u then m * 2 ^ (e - u).toNat else roundShift m (u - e).toNat

/-- The value with the significand `q`, already rounded, in units of `2^u`: a carry out of the significand goes into
the exponent, a zero keeps its sign, and an exponent above the format's largest gives an infinity. -/
def ofSignificand (f : FpFormat) (neg : Bool) (q : Nat) (u : Int) : Fp :=
  let carry := decide (q = 2 ^ f.prec)
  let q' := if carry then 2 ^ (f.prec - 1) else q
  let u' := if carry then u + 1 else u
  if q' = 0 then .fin neg 0 f.eMin else if u' > f.eMax then .inf neg else .fin neg q' u'

/-- `(-1)^neg * m * 2^e` rounded once to a format (R11): overflow gives an infinity, underflow a subnormal
or a zero of the same sign. -/
def roundTo (f : FpFormat) (neg : Bool) (m : Nat) (e : Int) : Fp :=
  let u := ulpExp f m e
  ofSignificand f neg (onGrid m e u) u

/-! ## Encodings -/

/-- `f64of(u)` (R11). -/
def Fp.ofBits (u : Word64) : Fp :=
  let neg := u.getLsbD 63
  let ex := (u.extractLsb' 52 11).toNat
  let frac := u.extractLsb' 0 52
  if ex = 2047 then (if frac = 0 then .inf neg else .nan neg frac)
  else if ex = 0 then .fin neg frac.toNat (-1074)
  else .fin neg (frac.toNat + 2 ^ 52) ((ex : Int) - 1075)

/-- A binary64 encoding from its three fields. -/
def packBits64 (neg : Bool) (ex frac : Nat) : Word64 :=
  BitVec.ofNat 64 (neg.toNat * 2 ^ 63 + ex * 2 ^ 52 + frac)

/-- `bits64(x)` (R11). -/
def Fp.toBits (x : Fp) : Word64 :=
  match x with
  | .nan neg frac => packBits64 neg 2047 frac.toNat
  | .inf neg => packBits64 neg 2047 0
  | .fin neg m e =>
    if m < 2 ^ 52 then packBits64 neg 0 m else packBits64 neg (e + 1075).toNat (m - 2 ^ 52)

/-- A NaN whose sign and payload are the draw named `t` (R11, I9; log 6). -/
def Fp.drawnNaN (t : Tag) : Fp :=
  .nan (Config.freeNaN64 t).1
    (if (Config.freeNaN64 t).2 = 0 then 1 else (Config.freeNaN64 t).2)

/-- The value of a binary32 encoding that is not a NaN, in binary64 (exact). -/
def Fp.ofBits32 (t : Tag) (u : Word) : Fp :=
  let neg := u.getLsbD 31
  let ex := (u.extractLsb' 23 8).toNat
  let frac := (u.extractLsb' 0 23).toNat
  if ex = 255 then (if frac = 0 then .inf neg else Fp.drawnNaN t)
  else if ex = 0 then roundTo binary64 neg frac (-149)
  else roundTo binary64 neg (frac + 2 ^ 23) ((ex : Int) - 150)

/-- A binary32 encoding from its three fields. -/
def packBits32 (neg : Bool) (ex frac : Nat) : Word :=
  BitVec.ofNat 32 (neg.toNat * 2 ^ 31 + ex * 2 ^ 23 + frac)

/-- The binary32 encoding of a NaN that the conversion named `t` draws (R11, I9; log 6). -/
def drawnNaN32 (t : Tag) : Word :=
  packBits32 (Config.freeNaN32 t).1 255
    (if (Config.freeNaN32 t).2 = 0 then 1 else (Config.freeNaN32 t).2.toNat)

/-- The binary32 encoding of a value that is in the format. -/
def Fp.toBits32 (t : Tag) (x : Fp) : Word :=
  match x with
  | .nan _ _ => drawnNaN32 t
  | .inf neg => packBits32 neg 255 0
  | .fin neg m e =>
    if m < 2 ^ 23 then packBits32 neg 0 m else packBits32 neg (e + 150).toNat (m - 2 ^ 23)

/-! ## Operations of R11 -/

/-- `widen32to64(f32of(u))`: exact, a NaN stays a NaN. -/
def widen32to64 (t : Tag) (u : Word) : Fp := Fp.ofBits32 t u

/-- `bits32(round64to32(x))`. -/
def round64to32 (t : Tag) (x : Fp) : Word :=
  match x with
  | .nan neg frac => Fp.toBits32 t (.nan neg frac)
  | .inf neg => Fp.toBits32 t (.inf neg)
  | .fin neg m e => Fp.toBits32 t (roundTo binary32 neg m e)

/-- `negf(a)`: flips the sign, of a NaN and of a zero too. -/
def Fp.neg (x : Fp) : Fp :=
  match x with
  | .nan s frac => .nan (!s) frac
  | .inf s => .inf (!s)
  | .fin s m e => .fin (!s) m e

/-- `absf(a)`: clears the sign. -/
def Fp.abs (x : Fp) : Fp :=
  match x with
  | .nan _ frac => .nan false frac
  | .inf _ => .inf false
  | .fin _ m e => .fin false m e

/-- +0.0. -/
def Fp.zero : Fp := .fin false 0 (-1074)

/-- The f64 of a natural number below 2^53 (exact), and the nearest one of a larger number. -/
def Fp.ofNat (n : Nat) : Fp := roundTo binary64 false n 0

/-- The signed significand `±m`. -/
def signedMant (neg : Bool) (m : Nat) : Int := if neg then -(m : Int) else m

/-- `m * 2^e` in units of `2^u`, for `u ≤ e`. -/
def inUnits (neg : Bool) (m : Nat) (e u : Int) : Int := signedMant neg (m * 2 ^ (e - u).toNat)

/-- The sum of two finite values. An exact zero sum is +0, and −0 only when both operands are negative
(both are then −0): round to nearest (R11, R227). -/
def addFin (s₁ : Bool) (m₁ : Nat) (e₁ : Int) (s₂ : Bool) (m₂ : Nat) (e₂ : Int) : Fp :=
  let u := min e₁ e₂
  let sum := inUnits s₁ m₁ e₁ u + inUnits s₂ m₂ e₂ u
  if sum = 0 then .fin (s₁ && s₂) 0 (-1074) else roundTo binary64 (decide (sum < 0)) sum.natAbs u

/-- `a +f b`. -/
def Fp.add (t : Tag) (a b : Fp) : Fp :=
  match a, b with
  | .nan _ _, _ => Fp.drawnNaN t
  | _, .nan _ _ => Fp.drawnNaN t
  | .inf s₁, .inf s₂ => if s₁ = s₂ then .inf s₁ else Fp.drawnNaN t
  | .inf s₁, .fin _ _ _ => .inf s₁
  | .fin _ _ _, .inf s₂ => .inf s₂
  | .fin s₁ m₁ e₁, .fin s₂ m₂ e₂ => addFin s₁ m₁ e₁ s₂ m₂ e₂

/-- `a -f b`, which is `a +f negf(b)` in IEEE-754. -/
def Fp.sub (t : Tag) (a b : Fp) : Fp := Fp.add t a b.neg

/-- `a *f b`. -/
def Fp.mul (t : Tag) (a b : Fp) : Fp :=
  match a, b with
  | .nan _ _, _ => Fp.drawnNaN t
  | _, .nan _ _ => Fp.drawnNaN t
  | .inf s₁, .inf s₂ => .inf (s₁ ^^ s₂)
  | .inf s₁, .fin s₂ m₂ _ => if m₂ = 0 then Fp.drawnNaN t else .inf (s₁ ^^ s₂)
  | .fin s₁ m₁ _, .inf s₂ => if m₁ = 0 then Fp.drawnNaN t else .inf (s₁ ^^ s₂)
  | .fin s₁ m₁ e₁, .fin s₂ m₂ e₂ => roundTo binary64 (s₁ ^^ s₂) (m₁ * m₂) (e₁ + e₂)

/-- The quotient `m₁ * 2^e₁ / (m₂ * 2^e₂)`, with `m₂ > 0`, rounded once: the integer quotient has at least
67 bits, and one more bit below them says whether the rest of the division is not 0, so that rounding
it is rounding the exact quotient. -/
def divFin (neg : Bool) (m₁ : Nat) (e₁ : Int) (m₂ : Nat) (e₂ : Int) : Fp :=
  let n := m₁ * 2 ^ 120
  let sticky := if n % m₂ = 0 then 0 else 1
  roundTo binary64 neg (2 * (n / m₂) + sticky) (e₁ - e₂ - 121)

/-- `a /f b`. -/
def Fp.div (t : Tag) (a b : Fp) : Fp :=
  match a, b with
  | .nan _ _, _ => Fp.drawnNaN t
  | _, .nan _ _ => Fp.drawnNaN t
  | .inf _, .inf _ => Fp.drawnNaN t
  | .inf s₁, .fin s₂ _ _ => .inf (s₁ ^^ s₂)
  | .fin s₁ _ _, .inf s₂ => .fin (s₁ ^^ s₂) 0 (-1074)
  | .fin s₁ m₁ e₁, .fin s₂ m₂ e₂ =>
    if m₂ = 0 then (if m₁ = 0 then Fp.drawnNaN t else .inf (s₁ ^^ s₂))
    else divFin (s₁ ^^ s₂) m₁ e₁ m₂ e₂

/-- `a < b`: the ordered comparison, false when an operand is a NaN; the zeros are equal. -/
def Fp.lt (a b : Fp) : Bool :=
  match a, b with
  | .nan _ _, _ => false
  | _, .nan _ _ => false
  | .inf s₁, .inf s₂ => s₁ && !s₂
  | .inf s₁, .fin _ _ _ => s₁
  | .fin _ _ _, .inf s₂ => !s₂
  | .fin s₁ m₁ e₁, .fin s₂ m₂ e₂ =>
    decide (inUnits s₁ m₁ e₁ (min e₁ e₂) < inUnits s₂ m₂ e₂ (min e₁ e₂))

/-- Whether a value is a NaN. -/
def Fp.isNaN (x : Fp) : Bool :=
  match x with
  | .nan _ _ => true
  | .inf _ => false
  | .fin _ _ _ => false

/-- `round_half_up(v)` of a finite `v = (-1)^neg * m * 2^e` (R12): the nearest integer to the exact value,
the larger one when two are equally near. -/
def roundHalfUp (neg : Bool) (m : Nat) (e : Int) : Int :=
  if e ≥ 0 then signedMant neg (m * 2 ^ e.toNat)
  else (2 * signedMant neg m + 2 ^ (-e).toNat) / (2 ^ ((-e).toNat + 1))

end Sys2Proof
end

