-- ==== Sys2Proof/Machine/Operands.lean ====
section
/-! DEFINITION. The operand forms of the commands: what ARG may be (30_encoding.md R121), and the operand
registers as the values the commands compute with (10_state.md R27 to R35). -/

namespace Sys2Proof.Machine

/-- A quantizer bit count: 1..32 (R121, R273, R274). -/
def quantBitsOk (b : Nat) : Bool := decide (1 ≤ b) && decide (b ≤ 32)

/-- A bit-codec bit count: 0..32 (R121, R251, R252). -/
def codecBitsOk (n : Nat) : Bool := decide (n ≤ 32)

/-- `VALUE[b−1:0]` as an integer (44_quantizer.md R274). -/
def Regs.valueBits (r : Regs) (b : Nat) : Nat := r.value.toNat % 2 ^ b

/-- XIN as an f64 (10_state.md R33). -/
def Regs.xinF (r : Regs) : Fp := Fp.ofBits r.xin

/-- SCALE as an f64 (10_state.md R35). -/
def Regs.scaleF (r : Regs) : Fp := Fp.ofBits r.scale

/-- The valid bits of the frame buffer in stream order: those of the bytes 0 .. FLEN−1 (43_bitcodec.md R252). -/
def validBits (m : Memory) (flen : Nat) : List Bool := (m.fbuf.flatMap bitsOfByte).take (8 * flen)

/-- The spectrum buffers as complex values (42_fft.md R220). -/
def Memory.spectrum (m : Memory) : List Cpx :=
  List.zipWith (fun r i => { re := Fp.ofBits r, im := Fp.ofBits i }) m.re m.im

/-- RE and IM replaced by 1024 complex values. -/
def Memory.writeCpx (m : Memory) (xs : List Cpx) : Memory :=
  m.writeSpectrum 0 (xs.map fun x => x.re.toBits) (xs.map fun x => x.im.toBits)

end Sys2Proof.Machine
end

