-- ==== Sys2Proof/Machine/BitCodec.lean ====
section
/-! DEFINITION. The bit codec over the frame buffer: WRBITS, RDBITS, FBCLR (43_bitcodec.md). -/

namespace Sys2Proof.Machine

/-- The bytes ⌊P/8⌋ .. ⌊(P+n−1)/8⌋ of FBUF with the low `n` bits of `v` placed at `P` by OR, the most
significant one first (R251). -/
def orField (m : Memory) (pos n v : Nat) : List Byte :=
  let f := fieldBytes pos n
  List.zipWith (fun old new => old ||| new) (m.bytes (fbufBase + f.1) f.2)
    (packBytes f.2 (List.replicate (pos % 8) false ++ bitsOf n v))

/-- WRBITS n (R251): the bit count is checked first, then the capacity of FBUF. -/
def execWrbits (n : Nat) (s : State) : Host.Outcome State Fault Refusal :=
  if codecBitsOk n then
    if s.inRegs.bitPos + n ≤ 8 * Config.fbufBytes then
      .next (s.succeed { s.regs with bitidx := s.inRegs.bitidx + BitVec.ofNat 32 n }
        (s.mem.writeFbuf (fieldBytes s.inRegs.bitPos n).1
          (orField s.inMem s.inRegs.bitPos n s.inRegs.value.toNat)))
    else .next (s.fail .badArgument)
  else .next (s.fail .badArgument)

/-- RDBITS n (R252): bits at or past 8·FLEN read as 0 and set TRUNC; BITIDX is unchanged. -/
def execRdbits (n : Nat) (s : State) : Host.Outcome State Fault Refusal :=
  if codecBitsOk n then
    .next (s.succeed
      { s.regs with
        result := BitVec.ofNat 32 (readField (validBits s.inMem s.inRegs.flen.toNat) s.inRegs.bitPos n).1
        trunc := (readField (validBits s.inMem s.inRegs.flen.toNat) s.inRegs.bitPos n).2 } s.mem)
  else .next (s.fail .badArgument)

/-- FBCLR (R253): every byte of FBUF becomes 0. -/
def execFbclr (s : State) : Host.Outcome State Fault Refusal :=
  .next (s.succeed s.regs (s.mem.writeFbuf 0 (List.replicate Config.fbufBytes 0)))

end Sys2Proof.Machine
end

