-- ==== Sys2Proof/Machine/Control.lean ====
section
/-! DEFINITION. NOP (40_command.md R186) and FSIZE (41_profile.md R210). -/

namespace Sys2Proof.Machine

/-- NOP (40_command.md R186): nothing but the completion. -/
def execNop (s : State) : Host.Outcome State Fault Refusal := .next (s.succeed s.regs s.mem)

/-- FSIZE p (41_profile.md R210). -/
def execFsize (p : Nat) (s : State) : Host.Outcome State Fault Refusal :=
  match lookup p with
  | none => .next (s.fail .unknownProfile)
  | some q => .next (s.succeed { s.regs with result := BitVec.ofNat 32 (frameBytes q) } s.mem)

end Sys2Proof.Machine
end

