-- ==== Sys2Proof/Machine/Fft.lean ====
section
/-! DEFINITION. The FFT engine: the ROMs REV and TW, and the procedure FFT_CORE (42_fft.md R220 to R223). -/

namespace Sys2Proof.Machine

/-! ## ROMs -/

/-- REV (R221): the reversal of the 10 bits of `i`. -/
def rev (i : Nat) : Nat := (List.range Config.log2N).foldl (fun r k => 2 * r + (i / 2 ^ k) % 2) 0

/-- TWC, the encodings of cos(2π/2^s) for the stages s = 1 .. 10 (R222). -/
def twcRom : List Word64 :=
  [ 0xBFF0000000000000, 0x0000000000000000, 0x3FE6A09E667F3BCD, 0x3FED906BCF328D46, 0x3FEF6297CFF75CB0,
    0x3FEFD88DA3D12526, 0x3FEFF621E3796D7E, 0x3FEFFD886084CD0D, 0x3FEFFF62169B92DB, 0x3FEFFFD8858E8A92 ]

/-- TWS, the encodings of sin(2π/2^s) for the stages s = 1 .. 10 (R222). -/
def twsRom : List Word64 :=
  [ 0x0000000000000000, 0x3FF0000000000000, 0x3FE6A09E667F3BCD, 0x3FD87DE2A6AEA963, 0x3FC8F8B83C69A60B,
    0x3FB917A6BC29B42C, 0x3FA91F65F10DD814, 0x3F992155F7A3667E, 0x3F8921D1FCDEC784, 0x3F7921F0FE670071 ]

/-- The twiddle step (wlr, wli) of stage `s` (R223): the sine is negated for the inverse transform. -/
def twiddleStep (inv : Bool) (s : Nat) : Cpx :=
  let sn := Fp.ofBits (twsRom.getD (s - 1) 0)
  { re := Fp.ofBits (twcRom.getD (s - 1) 0), im := if inv then sn.neg else sn }

/-! ## Complex arithmetic, in the operation order of R223 -/

def Cpx.zero : Cpx := { re := Fp.zero, im := Fp.zero }

/-- `((xr *f wr) -f (xi *f wi), (xr *f wi) +f (xi *f wr))`: the product of the butterfly and of the twiddle
update (R223). -/
def Cpx.mul (t : Tag) (x w : Cpx) : Cpx :=
  { re := Fp.sub (0 :: t) (Fp.mul (1 :: t) x.re w.re) (Fp.mul (2 :: t) x.im w.im)
    im := Fp.add (3 :: t) (Fp.mul (4 :: t) x.re w.im) (Fp.mul (5 :: t) x.im w.re) }

def Cpx.add (t : Tag) (u v : Cpx) : Cpx := { re := Fp.add (6 :: t) u.re v.re, im := Fp.add (7 :: t) u.im v.im }

def Cpx.sub (t : Tag) (u v : Cpx) : Cpx := { re := Fp.sub (8 :: t) u.re v.re, im := Fp.sub (9 :: t) u.im v.im }

/-- The two results of a butterfly (R223): element j and element j + half. -/
def butterfly (t : Tag) (u x w : Cpx) : Cpx × Cpx :=
  (Cpx.add t u (Cpx.mul t x w), Cpx.sub t u (Cpx.mul t x w))

/-- The `n` twiddles of a group from `w` on, each the complex product of the one before and the step (R223). -/
def twiddles (step : Cpx) (n : Nat) (w : Cpx) : List Cpx :=
  match n with
  | 0 => []
  | n + 1 => w :: twiddles step n (Cpx.mul [n] w step)

/-- The twiddles of stage `s`: 2^(s−1) of them, starting at (1.0, 0.0) in every group (R223). -/
def stageTwiddles (inv : Bool) (s : Nat) : List Cpx :=
  twiddles (twiddleStep inv s) (2 ^ (s - 1)) { re := Fp.ofNat 1, im := Fp.zero }

/-! ## FFT_CORE (R223) -/

/-- Step 1, the permutation: swapping i and REV[i] for each pair, REV being an involution, puts element
REV[i] at place i. -/
def bitReverse (xs : List Cpx) : List Cpx :=
  (List.range Config.fftSize).map fun i => xs.getD (rev i) Cpx.zero

/-- The butterflies of one group: the lower elements `us`, the upper ones `xs`, and their twiddles; `j` names
the butterfly. -/
def groupButterflies (t : Tag) (j : Nat) (ws us xs : List Cpx) : List (Cpx × Cpx) :=
  match ws, us, xs with
  | w :: ws, u :: us, x :: xs => butterfly (j :: t) u x w :: groupButterflies t (j + 1) ws us xs
  | _, _, _ => []

/-- One group of a stage: its first half takes the sums, its second half the differences. -/
def group (t : Tag) (ws : List Cpx) (half : Nat) (xs : List Cpx) : List Cpx :=
  let bs := groupButterflies t 0 ws (xs.take half) (xs.drop half)
  bs.map Prod.fst ++ bs.map Prod.snd

/-- The `n` groups of a stage, each of `2 * half` elements. Every butterfly of a stage reads and writes its
own two elements, so the groups can be taken one after the other (log 14). -/
def groups (t : Tag) (ws : List Cpx) (half n : Nat) (xs : List Cpx) : List Cpx :=
  match n with
  | 0 => []
  | n + 1 => group (n :: t) ws half (xs.take (2 * half)) ++ groups t ws half n (xs.drop (2 * half))

/-- Stage `s` of step 2: 1024 / 2^s groups of 2^s elements. -/
def stage (t : Tag) (inv : Bool) (s : Nat) (xs : List Cpx) : List Cpx :=
  groups (s :: t) (stageTwiddles inv s) (2 ^ (s - 1)) (2 ^ (Config.log2N - s)) xs

/-- The stages `s`, `s + 1`, … , `n` of them. -/
def stages (t : Tag) (inv : Bool) (s n : Nat) (xs : List Cpx) : List Cpx :=
  match n with
  | 0 => xs
  | n + 1 => stages t inv (s + 1) n (stage t inv s xs)

/-- Step 3 for one element: both parts divided by 1024.0. -/
def normalise (t : Tag) (x : Cpx) : Cpx :=
  { re := Fp.div (0 :: t) x.re (Fp.ofNat 1024), im := Fp.div (1 :: t) x.im (Fp.ofNat 1024) }

/-- FFT_CORE(inv) on 1024 complex elements (R223). -/
def fftCore (t : Tag) (inv : Bool) (xs : List Cpx) : List Cpx :=
  let ys := stages (0 :: t) inv 1 Config.log2N (bitReverse xs)
  if inv then ys.zipIdx.map (fun p => normalise (p.2 :: 1 :: t) p.1) else ys

end Sys2Proof.Machine
end

