-- ==== Sys2Proof/Machine/Quantizer.lean ====
section
/-! DEFINITION. The quantizer and the dequantizer (44_quantizer.md), and the commands QUANT and DEQUANT. -/

namespace Sys2Proof.Machine

/-- `M = 2^b − 1` (44_quantizer.md R270). -/
def levelMax (b : Nat) : Nat := 2 ^ b - 1

/-- Step 1 of Q: the clip to [−s, +s], which keeps a NaN (R271). -/
def clip (x s : Fp) : Fp := if Fp.lt s x then s else if Fp.lt x s.neg then s.neg else x

/-- Steps 3 and 4 of Q after the scaling: rounding half up, and the clamp to 0..M; a NaN gives 0 (R271). An
infinite `v` does not arise for a scale above 0; it is clamped like the numbers it bounds (log 16). -/
def roundClamp (m : Nat) (v : Fp) : Nat :=
  match v with
  | .nan _ _ => 0
  | .inf neg => if neg then 0 else m
  | .fin neg mant e => (min (max (roundHalfUp neg mant e) 0) (m : Int)).toNat

/-- `Q(x, s, b)` (R271). -/
def quantize (t : Tag) (x s : Fp) (b : Nat) : Nat :=
  let r := Fp.div (0 :: t) (clip x s) s
  let u := Fp.div (2 :: t) (Fp.add (1 :: t) r (Fp.ofNat 1)) (Fp.ofNat 2)
  roundClamp (levelMax b) (Fp.mul (3 :: t) u (Fp.ofNat (levelMax b)))

/-- `DQ(q, b, s)` (R272). -/
def dequantize (t : Tag) (q b : Nat) (s : Fp) : Fp :=
  let a := Fp.div (0 :: t) (Fp.ofNat q) (Fp.ofNat (levelMax b))
  let c := Fp.mul (1 :: t) a (Fp.ofNat 2)
  let d := Fp.sub (2 :: t) c (Fp.ofNat 1)
  Fp.mul (3 :: t) d s

/-- QUANT b (R273): the bit count is checked first, then the scale. -/
def execQuant (b : Nat) (s : State) : Host.Outcome State Fault Refusal :=
  if quantBitsOk b then
    if Fp.lt Fp.zero s.inRegs.scaleF then
      .next (s.succeed
        { s.regs with result := BitVec.ofNat 32 (quantize [s.draws] s.inRegs.xinF s.inRegs.scaleF b) } s.mem)
    else .next (s.fail .badArgument)
  else .next (s.fail .badArgument)

/-- DEQUANT b (R274). -/
def execDequant (b : Nat) (s : State) : Host.Outcome State Fault Refusal :=
  if quantBitsOk b then
    .next (s.succeed
      { s.regs with xout := (dequantize [s.draws] (s.inRegs.valueBits b) b s.inRegs.scaleF).toBits } s.mem).nextDraw
  else .next (s.fail .badArgument)

end Sys2Proof.Machine
end

