-- ==== Sys2Proof/Machine/Encode.lean ====
section
/-! DEFINITION. The frame encoder ENC (45_encode.md). -/

namespace Sys2Proof.Machine

/-- Step 3, the spectrum of the samples (R291). -/
def encSpectrum (t : Tag) (pcm : List Word) : List Cpx :=
  fftCore (1 :: t) false
    (pcm.zipIdx.map fun p => { re := widen32to64 (p.2 :: 0 :: t) p.1, im := Fp.zero })

/-- One comparison of step 4: `if a > m: m = a` (R292). -/
def raiseTo (m a : Fp) : Fp := if Fp.lt m a then a else m

/-- G, the f64 nearest 1e-9 (R292). -/
def silenceGuard : Fp := Fp.ofBits 0x3E112E0BE826D695

/-- Step 4, the scale: the largest magnitude of the encoded bins, at least G (R292). -/
def encScale (bins : List Cpx) : Fp :=
  let m := bins.foldl (fun m x => raiseTo (raiseTo m x.re.abs) x.im.abs) Fp.zero
  if Fp.lt m silenceGuard then silenceGuard else m

/-- Step 5, the 12 header bytes (R293, R294; 30_encoding.md R131 to R136). -/
def encHeader (t : Tag) (p : Nat) (m : Fp) (seq : Word) : List Byte :=
  [BitVec.ofNat 8 Config.version, BitVec.ofNat 8 (binCount p), BitVec.ofNat 8 p, 0] ++
    (leBytes 4 (round64to32 (2 :: t) m).toNat ++ leBytes 4 seq.toNat)

/-- Step 6, the bits of the payload: for each bin the real field, then the imaginary one (R295,
30_encoding.md R137). -/
def encFields (t : Tag) (p : Nat) (m : Fp) (bins : List Cpx) : List Bool :=
  bins.zipIdx.flatMap fun x =>
    bitsOf (weight p x.2) (quantize (0 :: x.2 :: 3 :: t) x.1.re m (weight p x.2)) ++
      bitsOf (weight p x.2) (quantize (1 :: x.2 :: 3 :: t) x.1.im m (weight p x.2))

/-- The whole of FBUF after ENC: the header, the payload, and zeros to the end (R293, R295, R296). -/
def encFrame (t : Tag) (p : Nat) (seq : Word) (xs : List Cpx) : List Byte :=
  let bins := xs.take (binCount p)
  let m := encScale bins
  encHeader t p m seq ++ (packBytes (payloadBytes p) (encFields t p m bins) ++
    List.replicate (Config.fbufBytes - frameBytes p) 0)

/-- ENC p (R290 to R297): the profile is checked first, then the number of samples. -/
def execEnc (p : Nat) (s : State) : Host.Outcome State Fault Refusal :=
  match lookup p with
  | none => .next (s.fail .unknownProfile)
  | some q =>
    if s.inRegs.nsamp.toNat = Config.frameSamples then
      let xs := encSpectrum [s.draws] s.inMem.pcmIn
      .next (s.succeed
        { s.regs with
          scale := (encScale (xs.take (binCount q))).toBits
          seq := s.inRegs.seq + 1
          flen := BitVec.ofNat 16 (frameBytes q)
          dprof := BitVec.ofNat 8 q }
        ((s.mem.writeCpx xs).writeFbuf 0 (encFrame [s.draws] q s.inRegs.seq xs))).nextDraw
    else .next (s.fail .badFrameLength)

end Sys2Proof.Machine
end

