-- ==== Sys2Proof/Machine/Spectrum.lean ====
section
/-! DEFINITION. The commands of the FFT family: FFTF, FFTI, SPCLR (42_fft.md), and HERM
(46_decode.md R317). -/

namespace Sys2Proof.Machine

/-- The transform of RE and IM as the command's writes (R224, R225). The draws of its NaNs are named by the
command's draw number. -/
def transform (inv : Bool) (s : State) : State :=
  (s.succeed s.regs (s.mem.writeCpx (fftCore [s.draws] inv s.inMem.spectrum))).nextDraw

/-- FFTF (42_fft.md R224). -/
def execFftf (s : State) : Host.Outcome State Fault Refusal := .next (transform false s)

/-- FFTI (42_fft.md R225). -/
def execFfti (s : State) : Host.Outcome State Fault Refusal := .next (transform true s)

/-- SPCLR (42_fft.md R228): every element of RE and IM becomes +0.0. -/
def execSpclr (s : State) : Host.Outcome State Fault Refusal :=
  .next (s.succeed s.regs
    (s.mem.writeSpectrum 0 (List.replicate Config.fftSize 0) (List.replicate Config.fftSize 0)))

/-- The Hermitian extension of the first `B` elements of a buffer to all 1024: the band B .. 1024 − B is
`zero`, and element 1024 − i is `conj` of element i for i in 1 .. B−1 (46_decode.md R313, R317). -/
def hermitian {α : Type} (conj : α → α) (zero : α) (xs : List α) : List α :=
  xs ++ (List.replicate (Config.fftSize + 1 - 2 * xs.length) zero ++ (xs.drop 1).reverse.map conj)

/-- `negf` on an encoding: the sign bit is flipped (00_scope.md R11). -/
def negBits (u : Word64) : Word64 := u ^^^ (1#64 <<< 63)

/-- HERM p (46_decode.md R317): strict lookup; the elements from B on are written, those below are kept. -/
def execHerm (p : Nat) (s : State) : Host.Outcome State Fault Refusal :=
  match lookup p with
  | none => .next (s.fail .unknownProfile)
  | some q =>
    .next (s.succeed s.regs
      (s.mem.writeSpectrum (binCount q)
        ((hermitian id 0 (s.inMem.re.take (binCount q))).drop (binCount q))
        ((hermitian negBits 0 (s.inMem.im.take (binCount q))).drop (binCount q))))

end Sys2Proof.Machine
end

