-- ==== Sys2Proof/Machine/FrameDecode.lean ====
section
/-! DEFINITION. The frame decoder DEC (46_decode.md R310 to R316). -/

namespace Sys2Proof.Machine

/-- Byte `a` of a frame. -/
def frameByte (frame : List Byte) (a : Nat) : Byte := frame.getD a 0

/-- Step 4, the header's scale as an f64 (R312). -/
def decScale (t : Tag) (frame : List Byte) : Fp :=
  widen32to64 (0 :: t) (BitVec.ofNat 32 (leNat ((frame.drop 4).take 4)))

/-- Step 5 for the bins from `i` on, whose weights are `ws`: the dequantized pairs, and whether a bit at or
past 8·FLEN was read (R313). `stream` is what is left of the valid bits. -/
def decBins (t : Tag) (scale : Fp) (i : Nat) (ws : List Nat) (stream : List Bool) : List Cpx × Bool :=
  match ws with
  | [] => ([], false)
  | b :: ws =>
    let qr := readField stream 0 b
    let qi := readField stream b b
    let rest := decBins t scale (i + 1) ws (stream.drop (2 * b))
    ({ re := dequantize (0 :: i :: t) qr.1 b scale, im := dequantize (1 :: i :: t) qi.1 b scale } :: rest.1,
      qr.2 || qi.2 || rest.2)

/-- The bins of the frame in FBUF, read from absolute bit position 96 on (R313). -/
def decFrameBins (t : Tag) (m : Memory) (flen p : Nat) : List Cpx × Bool :=
  decBins (1 :: t) (decScale t m.fbuf) 0 (weights p) ((validBits m flen).drop (8 * Config.headerSize))

def Cpx.conj (x : Cpx) : Cpx := { re := x.re, im := x.im.neg }

/-- Steps 5 and 6: the inverse transform of the Hermitian spectrum of the bins (R313, R315). -/
def decSpectrum (t : Tag) (bins : List Cpx) : List Cpx :=
  fftCore (2 :: t) true (hermitian Cpx.conj Cpx.zero bins)

/-- Step 7: the samples, the real parts rounded to f32 (R315). -/
def decPcm (t : Tag) (xs : List Cpx) : List Word :=
  xs.zipIdx.map fun x => round64to32 (x.2 :: 3 :: t) x.1.re

/-- DEC (R310 to R316): the length is checked first, then the version byte; an unknown profile id falls back
to profile 0 and is not an error. -/
def execDec (s : State) : Host.Outcome State Fault Refusal :=
  if s.inRegs.flen.toNat < Config.headerSize then .next (s.fail .tooSmall)
  else if s.inMem.byte fbufBase ≠ BitVec.ofNat 8 Config.version then .next (s.fail .unsupportedVersion)
  else
    let pid := lookupDec (s.inMem.byte (fbufBase + 2)).toNat
    let bins := decFrameBins [s.draws] s.inMem s.inRegs.flen.toNat pid.1
    let xs := decSpectrum [s.draws] bins.1
    .next (s.succeed
      { s.regs with
        scale := (decScale [s.draws] s.inMem.fbuf).toBits
        dprof := BitVec.ofNat 8 pid.1
        trunc := bins.2
        fbk := pid.2 }
      ((s.mem.writeCpx xs).writePcmOut (decPcm [s.draws] xs))).nextDraw

end Sys2Proof.Machine
end

