-- ==== Sys2Proof/Machine/Dispatch.lean ====
section
/-! DEFINITION. The meaning of each command: what its completion does (40_command.md R182, R183). -/

namespace Sys2Proof.Machine

def exec (i : Instr) (s : State) : Host.Outcome State Fault Refusal :=
  match i with
  | .nop => Sys2Proof.Machine.execNop s
  | .fftf => Sys2Proof.Machine.execFftf s
  | .ffti => Sys2Proof.Machine.execFfti s
  | .herm p => Sys2Proof.Machine.execHerm p s
  | .quant b => Sys2Proof.Machine.execQuant b s
  | .dequant b => Sys2Proof.Machine.execDequant b s
  | .wrbits n => Sys2Proof.Machine.execWrbits n s
  | .rdbits n => Sys2Proof.Machine.execRdbits n s
  | .fsize p => Sys2Proof.Machine.execFsize p s
  | .fbclr => Sys2Proof.Machine.execFbclr s
  | .spclr => Sys2Proof.Machine.execSpclr s
  | .enc p => Sys2Proof.Machine.execEnc p s
  | .dec => Sys2Proof.Machine.execDec s

end Sys2Proof.Machine
end

