-- ==== Sys2Proof/Machine/Engine.lean ====
section
/-! DEFINITION. The engine's turn and the events (00_scope.md R7; 40_command.md R181 to R187). -/

namespace Sys2Proof.Machine

/-- The engine's turn: the command in flight completes (40_command.md R183), an ILLEGAL word with
IllegalCommand (R187). An idle engine keeps all state (60_exceptions.md R358). -/
def engineTurn (s : State) : Host.Outcome State Fault Refusal :=
  match s.inFlight with
  | none => .next s
  | some f =>
    match decode f.word with
    | .instr i => exec i s
    | .illegal _ => .next (s.fail .illegalCommand)

/-- One event happens (20_memory.md R96). -/
def performEvent (e : Event) (s : State) : Host.Outcome State Fault Refusal :=
  match e with
  | .host a => .next (s.access a)
  | .engine => engineTurn s
  | .powerOn => .next s.powerOn

/-- What the machine does with its inbox: the first event happens; with none left, the engine has the turn, so
that a command in flight completes (40_command.md R184; log 1). -/
def takeTurn (s : State) : Host.Outcome State Fault Refusal :=
  match s.inbox with
  | [] => engineTurn s
  | e :: rest => performEvent e (s.setInbox rest)

/-- The state in which the command word of a table row has just been accepted and the engine has the turn: what
the host's write of the word to CMD leaves (40_command.md R181; log 2). -/
def placeWord (s : State) (w : Word) : State :=
  match s.inbox with
  | [] => s.accept w
  | e :: rest => (s.accept w).setInbox (.engine :: e :: rest)

end Sys2Proof.Machine
end

