-- ==== Sys2Proof/Machine/Step.lean ====
section
/-! DEFINITION. One step of CORE: the next event of the total order (20_memory.md R96). -/

namespace Sys2Proof.Machine

/-- One step (00_scope.md R7): a host access, the completion of the command in flight, or a power-on reset. -/
def step (s : State) : Host.Outcome State Fault Refusal := Sys2Proof.Machine.takeTurn s

/-- The state whose very next step runs the command with the given bits (log 2). -/
def State.withFetchWord (s : State) (nbits w : Nat) : State :=
  Sys2Proof.Machine.placeWord s (Sys2Proof.tableWord nbits w)

end Sys2Proof.Machine
end

