-- ==== Sys2Proof/Machine/HostProgram.lean ====
section
/-! DEFINITION. The spec's assembler syntax as what it stands for: lists of host accesses
(30_encoding.md R150 to R153). The syntax is the host's; CORE sees the accesses only. -/

namespace Sys2Proof.Machine

/-- The offset of CMD (20_memory.md R82). -/
def cmdOffset : Offset := 0x028

/-- The offset of STATUS (20_memory.md R82). -/
def statusOffset : Offset := 0x024

/-- `W32 off, v` (R151). -/
def w32 (off : Offset) (v : Word) : Access := .write off .word v

/-- `R32 off` (R151). -/
def r32 (off : Offset) : Access := .read off .word

/-- A command line alone: a host write of the command's word to CMD (R150). -/
def issue (i : Instr) : Access := w32 cmdOffset (encode i)

/-- `W64 off, v` (R152): the low word first. -/
def w64 (off : Offset) (v : Word64) : List Access := [w32 off (loHalf v), w32 (off + 4) (hiHalf v)]

/-- `R64 off` (R152). -/
def r64 (off : Offset) : List Access := [r32 off, r32 (off + 4)]

/-- The value of `R64` from the two words read: second ‖ first (R152). -/
def r64Value (first second : Word) : Word64 := second ++ first

/-- `ACK` (R152): clears DONE and OVR. -/
def ack : Access := w32 statusOffset 6

/-- One turn of the loop of `WAIT` (R152). -/
def waitRead : Access := r32 statusOffset

/-- Whether `WAIT` goes round again: bit 0 of the value just read is 1 (R152). -/
def State.waitAgain (s : State) : Bool :=
  match s.resp with
  | some r => r.data.getLsbD 0
  | none => false

/-- `RUN c` (R152), as events, when the command completes after `k` reads of STATUS by its `WAIT`: the CMD
write, `k` reads that see BUSY, the completion, and the read that ends the loop. -/
def runEvents (i : Instr) (k : Nat) : List Event :=
  .host (issue i) :: (List.replicate k (.host waitRead) ++ [.engine, .host waitRead])

/-- The profile a name stands for; any other name is an assembler error (R153, 41_profile.md R203). -/
def profileOfName (name : String) : Option Nat :=
  if name = "low" then some 0
  else if name = "medium" then some 1
  else if name = "high" then some 2
  else if name = "full" then some 3
  else none

end Sys2Proof.Machine
end

