-- ==== Sys2Proof/Safety.lean ====
section
/-! DEFINITION. What counts as a good state of CORE, and the words the claims are written in. -/

namespace Sys2Proof.Machine

/-- The registers of a snapshot are the live ones, but for those the host may change while a command is in
flight: CTRL.IE and the W1C bits DONE and OVR (20_memory.md R94). -/
def Regs.agrees (snap now : Regs) : Bool :=
  decide ({ snap with ie := now.ie, done := now.done, ovr := now.ovr } = now)

/-- A command in flight is the last accepted one, its inputs are still what they were at its acceptance
(20_memory.md R95), and STATUS reports no completion (40_command.md R181). -/
def InFlight.good (f : InFlight) (r : Regs) (m : Memory) : Bool :=
  decide (f.word = r.cmd) && decide (f.mem = m) && f.regs.agrees r &&
    (!r.done && decide (r.err = .success) && !r.trunc && !r.fbk)

/-- A good state: the memory has its canonical form, FLEN is at most 4096 (10_state.md R28), DPROF is a
profile id (R36), and a command in flight is good. -/
def State.inv (s : State) : Bool :=
  s.mem.wf && decide (s.regs.flen.toNat ≤ Config.fbufBytes) && decide (s.regs.dprof.toNat ≤ 3) &&
    match s.inFlight with
    | none => true
    | some f => f.good s.regs s.mem

/-- What every completion does beside the command's own writes: the engine is idle, and the events to come and
the last bus response are kept. -/
def Completed (s t : State) : Prop := t.inFlight = none ∧ t.inbox = s.inbox ∧ t.resp = s.resp

/-- The unsigned integer of the `n` bits of FBUF at absolute bit position `pos`, the most significant one first,
with 0 for each bit at or past position `stop` (43_bitcodec.md R250, R252). -/
def Memory.fbufField (m : Memory) (stop pos n : Nat) : Nat :=
  natOf ((List.range n).map fun k => decide (pos + k < stop) && m.fbufBit (pos + k))

/-- The absolute bit position of the real field of bin `i` in a frame of profile `p` (30_encoding.md R137): 96
bits of header, then two fields for each bin before it. -/
def fieldPos (p i : Nat) : Nat := 96 + 2 * ((List.range i).map (weight p)).sum

/-- A finite encoding: neither an infinity nor a NaN. -/
def finiteBits (u : Word64) : Bool := decide (u.extractLsb' 52 11 ≠ 2047#11)

/-! ## Arithmetic (00_scope.md R11) -/

/-- The magnitude `m * 2^e`. -/
def magnitude (m : Nat) (e : Int) : ℚ := m * 2 ^ e

/-- A magnitude with a sign. -/
def signedValue (neg : Bool) (v : ℚ) : ℚ := if neg then -v else v

/-- The magnitude that the exponent and fraction fields of a finite IEEE-754 encoding stand for, with a fraction of
`bits` bits and subnormals in units of `2^eMin` (log 12). -/
def fieldMagnitude (bits : Nat) (eMin : Int) (ex frac : Nat) : ℚ :=
  if ex = 0 then magnitude frac eMin else magnitude (2 ^ bits + frac) (ex - 1 + eMin)

/-- `r` is the magnitude `v` with the sign `neg`, rounded once to a format, to nearest, ties to even: an infinity from
half a unit above the largest finite value on; else a value of the format, the significand of full length or the
exponent the smallest, with every other value of the format farther from `v`, or as far and the significand of `r`
even. -/
def Rounded (f : FpFormat) (neg : Bool) (v : ℚ) (r : Fp) : Prop :=
  (r = .inf neg ∧ magnitude (2 ^ (f.prec + 1) - 1) (f.eMax - 1) ≤ v) ∨
  ∃ q u, r = .fin neg q u ∧ v < magnitude (2 ^ (f.prec + 1) - 1) (f.eMax - 1) ∧
    q < 2 ^ f.prec ∧ f.eMin ≤ u ∧ u ≤ f.eMax ∧ (u = f.eMin ∨ 2 ^ (f.prec - 1) ≤ q) ∧
    ∀ q' u', q' < 2 ^ f.prec → f.eMin ≤ u' → magnitude q' u' ≠ magnitude q u →
      |v - magnitude q u| < |v - magnitude q' u'| ∨ (|v - magnitude q u| = |v - magnitude q' u'| ∧ q % 2 = 0)

/-! ## Procedures as equations, with the names of NaN draws free (log 6) -/

/-- The value `v` of the quantizer's steps 1 to 3 (44_quantizer.md R271): the clip to ±s, the map to [0, 1], the
scaling to [0, M]. -/
def quantScaled (n : Nat → Tag) (x s : Fp) (b : Nat) : Fp :=
  let xc := if Fp.lt s x then s else if Fp.lt x s.neg then s.neg else x
  let t := Fp.div (n 0) xc s
  let u := Fp.div (n 2) (Fp.add (n 1) t (Fp.ofNat 1)) (Fp.ofNat 2)
  Fp.mul (n 3) u (Fp.ofNat (2 ^ b - 1))

/-- `Q(x, s, b)` is `q` by the steps of R271: 0 for a NaN, else the rounded value clamped to 0..M. -/
def QuantSteps (x s : Fp) (b q : Nat) : Prop :=
  ∃ n : Nat → Tag,
    ((quantScaled n x s b).isNaN = true → q = 0) ∧
    ∀ neg m e, quantScaled n x s b = .fin neg m e → (q : Int) = min (max (roundHalfUp neg m e) 0) (2 ^ b - 1)

/-- `DQ(q, b, s)` is `r` by the steps of 44_quantizer.md R272. -/
def DequantSteps (q b : Nat) (s r : Fp) : Prop :=
  ∃ n : Nat → Tag,
    let a := Fp.div (n 0) (Fp.ofNat q) (Fp.ofNat (2 ^ b - 1))
    let c := Fp.mul (n 1) a (Fp.ofNat 2)
    let d := Fp.sub (n 2) c (Fp.ofNat 1)
    r = Fp.mul (n 3) d s

/-- The complex product in the operation order of R223; `n` names the NaN draw of each operation (log 6). -/
def loopProduct (n : Nat → Tag) (x w : Cpx) : Cpx :=
  { re := Fp.sub (n 0) (Fp.mul (n 1) x.re w.re) (Fp.mul (n 2) x.im w.im)
    im := Fp.add (n 3) (Fp.mul (n 4) x.re w.im) (Fp.mul (n 5) x.im w.re) }

/-- `FFT_CORE(inv)` (42_fft.md R223) as equations on elements: it takes `x` to `y`. `Y s` is what the buffers hold
after stage `s` of the in-place loop, `W s j` the twiddle (wr, wi) of its butterflies `j`; the NaN names are free. -/
def FftLoop (inv : Bool) (x y : Nat → Cpx) : Prop :=
  ∃ Y W : Nat → Nat → Cpx,
    (∀ k < 1024, Y 0 k = x (rev k)) ∧
    (∀ s, 1 ≤ s → s ≤ 10 →
      W s 0 = { re := Fp.ofNat 1, im := Fp.zero } ∧
      (∀ j, j + 1 < 2 ^ (s - 1) → ∃ n, W s (j + 1) = loopProduct n (W s j) (twiddleStep inv s)) ∧
      ∀ base j, base < 1024 → base % 2 ^ s = 0 → j < 2 ^ (s - 1) → ∃ n : Nat → Tag,
        let u := Y (s - 1) (base + j)
        let v := loopProduct n (Y (s - 1) (base + j + 2 ^ (s - 1))) (W s j)
        Y s (base + j) = { re := Fp.add (n 6) u.re v.re, im := Fp.add (n 7) u.im v.im } ∧
        Y s (base + j + 2 ^ (s - 1)) = { re := Fp.sub (n 8) u.re v.re, im := Fp.sub (n 9) u.im v.im }) ∧
    ∀ k < 1024, ∃ n : Nat → Tag, y k = if inv then
      { re := Fp.div (n 0) (Y 10 k).re (Fp.ofNat 1024), im := Fp.div (n 1) (Y 10 k).im (Fp.ofNat 1024) } else Y 10 k

end Sys2Proof.Machine
end

