-- ==== Sys2Proof/Certificates/Slice0/Obligations.lean ====
section
/-! DEFINITION. The statements for the provers. -/

open Sys2Proof Sys2Proof.Machine

/-! ## Encoding -/

/-- Decoding the word of a well-formed command gives the command back (30_encoding.md R120, R122, R126). -/
def Obligations.DecodeOfEncodeIsTheCommand : Prop :=
  ∀ i : Instr, i.wellFormed = true → decode (encode i) = .instr i

/-- A word that decodes to a command is the word of that command, and the command is well formed: no two words
decode to one command (R120, R122, R126). -/
def Obligations.EncodeOfDecodeIsTheWord : Prop :=
  ∀ (w : Word) (i : Instr), decode w = .instr i → i.wellFormed = true ∧ encode i = w

/-- Words the spec writes out decode to the commands it writes beside them (R210, R251, R297, R310, and the
programs P1, P2, P5, P6, P7 of 95_test_vectors.md). -/
def Obligations.SpecWordsDecode : Prop :=
  decode 0x00000000 = .instr .nop ∧ decode 0x00000001 = .instr .fftf ∧ decode 0x00000002 = .instr .ffti ∧
  decode 0x00000403 = .instr (.herm 4) ∧ decode 0x00000804 = .instr (.quant 8) ∧
  decode 0x00000805 = .instr (.dequant 8) ∧ decode 0x00000306 = .instr (.wrbits 3) ∧
  decode 0x00000907 = .instr (.rdbits 9) ∧ decode 0x00000108 = .instr (.fsize 1) ∧
  decode 0x00000009 = .instr .fbclr ∧ decode 0x0000000A = .instr .spclr ∧
  decode 0x00000410 = .instr (.enc 4) ∧ decode 0x00000011 = .instr .dec ∧
  decode 0x00010410 = .illegal .reservedField ∧ decode 0x00000101 = .illegal .unusedArg ∧
  decode 0x00000012 = .illegal .unassignedOpcode

/-- Exactly which words are ILLEGAL, in the numbers of R123 and R124. -/
def Obligations.IllegalWordsAreExactlyThese : Prop :=
  ∀ w : Word, (∃ why, decode w = .illegal why) ↔
    (w.toNat / 65536 ≠ 0 ∨
      (w.toNat % 256 ∈ [0x00, 0x01, 0x02, 0x09, 0x0A, 0x11] ∧ w.toNat / 256 % 256 ≠ 0) ∨
      (0x0B ≤ w.toNat % 256 ∧ w.toNat % 256 ≤ 0x0F) ∨ 0x12 ≤ w.toNat % 256)

/-! ## The step and the lifecycle -/

/-- The step runs the decoded command: when the engine has the turn (the inbox is empty, or its first event is an
engine turn) and the word in flight decodes to `i`, the step is `exec i`, on the state less that event. When the
first event is a host access, busy or not, the step is that access, on the state less that event (00_scope.md R7,
20_memory.md R96). The list of events, and so when the engine has the turn, is the model's (log 1). -/
def Obligations.StepRunsTheDecodedCommand : Prop :=
  (∀ (s : State) (f : InFlight) (i : Instr), s.inFlight = some f → decode f.word = .instr i →
    (s.inbox = [] → step s = exec i s) ∧
    (∀ rest, s.inbox = .engine :: rest → step s = exec i { s with inbox := rest })) ∧
  ∀ (s : State) (x : Access) (rest : List Event), s.inbox = .host x :: rest →
    step s = .next (({ s with inbox := rest } : State).access x)

/-- The host's write of any word to CMD while the engine is idle accepts it (40_command.md R181): CMD holds the
word, DONE, ERR, TRUNC and FBK are cleared, OVR is not, and the word and the snapshot are in flight. -/
def Obligations.CmdWriteIsAccepted : Prop :=
  ∀ (s : State) (w : Word) (rest : List Event), s.inFlight = none → s.inbox = .host (.write 0x028 .word w) :: rest →
    ∃ t, step s = .next t ∧
      t.regs = { s.regs with cmd := w, done := false, err := .success, trunc := false, fbk := false } ∧
      t.inFlight = some { word := w, regs := t.regs, mem := s.mem } ∧ t.mem = s.mem ∧ t.inbox = rest ∧
      t.draws = s.draws ∧ t.busy = true

/-- A write to CMD while BUSY is dropped and sets OVR, and OVR stays 1 until the host writes 1 to it or a reset
occurs (40_command.md R185). -/
def Obligations.CmdWriteWhileBusySetsStickyOverrun : Prop :=
  (∀ (s : State) (f : InFlight) (w : Word) (rest : List Event), s.inFlight = some f →
    s.inbox = .host (.write 0x028 .word w) :: rest →
    ∃ r, step s = .next { s with regs := { s.regs with ovr := true }, inbox := rest, resp := r }) ∧
  (∀ s t : State, step s = .next t → s.regs.ovr = true → t.regs.ovr = false →
    ∃ rest, s.inbox = .powerOn :: rest ∨
      (∃ v : Word, s.inbox = .host (.write 0x024 .word v) :: rest ∧ v.getLsbD 2 = true) ∨
      (∃ v : Word, s.inbox = .host (.write 0x020 .word v) :: rest ∧ v.getLsbD 1 = true))

/-- An ILLEGAL word is accepted like any command and completes with IllegalCommand and no other effect
(40_command.md R187): the CMD write, and the engine's turn, at once or after other events. -/
def Obligations.IllegalWordCompletesWithIllegalCommand : Prop :=
  ∀ (s : State) (w : Word) (why : Illegal), decode w = .illegal why →
    (s.inFlight = none → s.inbox = [.host (.write 0x028 .word w), .engine] →
      ∃ t, Host.Core.run Sys2Proof.core 2 s = .next t ∧
        t.regs = { s.regs with cmd := w, done := true, err := .illegalCommand, trunc := false, fbk := false } ∧
        t.mem = s.mem ∧ t.inFlight = none ∧ t.draws = s.draws) ∧
    (∀ (f : InFlight) (rest : List Event), s.inFlight = some f → f.word = w → s.inbox = .engine :: rest →
      step s = .next { s with
        regs := { s.regs with done := true, err := .illegalCommand }, inFlight := none, inbox := rest })

/-- A command completes: BUSY is 0, DONE is 1, irq is the interrupt enable, and CTRL, CMD, OVR, the events to come
and the bus response are kept (40_command.md R183, 60_exceptions.md R350). -/
def Obligations.EveryCommandCompletes : Prop :=
  ∀ (i : Instr) (s : State), ∃ t, exec i s = .next t ∧ Completed s t ∧ t.busy = false ∧ t.regs.done = true ∧
    t.irq = s.regs.ie ∧ t.regs.ie = s.regs.ie ∧ t.regs.cmd = s.regs.cmd ∧ t.regs.ovr = s.regs.ovr

/-- No step stops: CORE has no trap (60_exceptions.md R349), and every access and every word has an effect. An idle
engine's turn keeps the whole state (60_exceptions.md R358; the turn is the model's, log 1). -/
def Obligations.EveryStepAnswersNext : Prop :=
  ∀ s : State, (∃ t, step s = .next t) ∧
    (s.inFlight = none → (s.inbox = [] → step s = .next s) ∧
      ∀ rest, s.inbox = .engine :: rest → step s = .next { s with inbox := rest })

/-- A command in flight is complete, or aborted by a reset, after finitely many steps, at most one more than there
are events to come (40_command.md R184; the schedule is the model's, log 1). -/
def Obligations.CommandInFlightEnds : Prop :=
  ∀ (s : State), s.inFlight ≠ none → ∃ k, k ≤ s.inbox.length + 1 ∧
    ∃ t, Host.Core.run Sys2Proof.core k s = .next t ∧ t.inFlight = none

/-- Errors are precise (60_exceptions.md R344): a command in flight, ILLEGAL or not, that completes with an error code
writes nothing of its Writes list; CMD holds its word, DONE is 1, BUSY is 0, ERR is the code, TRUNC and FBK
are 0. -/
def Obligations.ErrorsArePrecise : Prop :=
  ∀ (s t : State) (f : InFlight), s.inv = true → s.inFlight = some f →
    (s.inbox = [] ∨ ∃ rest, s.inbox = .engine :: rest) → step s = .next t → t.regs.err ≠ .success →
    t = { s with regs := { s.regs with done := true, err := t.regs.err }, inFlight := none, inbox := s.inbox.tail } ∧
    t.regs.cmd = f.word ∧ t.busy = false ∧ t.regs.trunc = false ∧ t.regs.fbk = false

/-- Write sets are exact (40_command.md R188): a command changes only the memory and the registers its rule's Writes
list names, and STATUS; and PCM_IN, CTRL, NSAMP, BOFF, VALUE and XIN change only by host writes and reset. -/
def Obligations.WriteSetsAreExact : Prop :=
  (∀ (i : Instr) (s t : State), exec i s = .next t →
    (∀ a, ¬ inRanges a (memWrites i s.inRegs) → t.mem.byte a = s.mem.byte a) ∧
    t.regs.ie = s.regs.ie ∧ t.regs.ovr = s.regs.ovr ∧ t.regs.cmd = s.regs.cmd ∧ t.regs.nsamp = s.regs.nsamp ∧
    t.regs.boff = s.regs.boff ∧ t.regs.value = s.regs.value ∧ t.regs.xin = s.regs.xin ∧
    (t.regs.bitidx = s.regs.bitidx ∨ ∃ n, i = .wrbits n) ∧
    (t.regs.result = s.regs.result ∨ (∃ n, i = .rdbits n) ∨ (∃ b, i = .quant b) ∨ ∃ p, i = .fsize p) ∧
    (t.regs.xout = s.regs.xout ∨ ∃ b, i = .dequant b) ∧
    (t.regs.scale = s.regs.scale ∨ i = .dec ∨ ∃ p, i = .enc p) ∧
    (t.regs.dprof = s.regs.dprof ∨ i = .dec ∨ ∃ p, i = .enc p) ∧
    (t.regs.seq = s.regs.seq ∨ ∃ p, i = .enc p) ∧ (t.regs.flen = s.regs.flen ∨ ∃ p, i = .enc p) ∧
    (t.regs.trunc = s.regs.trunc ∨ i = .dec ∨ ∃ n, i = .rdbits n) ∧ (t.regs.fbk = s.regs.fbk ∨ i = .dec)) ∧
  (∀ s t : State, step s = .next t →
    (t.regs.ie = s.regs.ie ∧ t.regs.nsamp = s.regs.nsamp ∧ t.regs.boff = s.regs.boff ∧
      t.regs.value = s.regs.value ∧ t.regs.xin = s.regs.xin ∧
      ∀ a, 0x1000 ≤ a → a < 0x2000 → t.mem.byte a = s.mem.byte a) ∨
    ∃ rest, s.inbox = .powerOn :: rest ∨ ∃ a n v, s.inbox = .host (.write a n v) :: rest)

/-! ## Invariant -/

/-- Every step keeps a good state good: the memory stays in its canonical form, FLEN stays at most 4096
(10_state.md R28), DPROF stays a profile id (R36), and a command in flight keeps the inputs it was accepted with
(20_memory.md R95). The canonical form is the model's (log 4). -/
def Obligations.StepKeepsTheInvariant : Prop :=
  ∀ s t : State, s.inv = true → step s = .next t → t.inv = true

/-- The state after power-on reset is good. -/
def Obligations.InvariantHoldsAtReset : Prop := State.reset.inv = true

/-! ## Reset -/

/-- What power-on reset leaves (70_reset_and_hazards.md R380): every register 0, no command in flight, irq 0, and every
byte of the memories a draw; for the state after reset and for the reset event. The constant registers (10_state.md
R22) and the PROF registers (R37, with the rows of 41_profile.md R207) have their fixed values after reset and, read
by the host, in every state, busy or not. Which number a draw has is the model's (logs 4 and 5). -/
def Obligations.PowerOnResetLeavesTheResetValues : Prop :=
  State.reset.statusWord = 0 ∧ State.reset.regs.ctrlWord = 0 ∧ State.reset.irq = false ∧
  (∀ r : HostReg, r ∈ [.ctrl, .status, .cmd, .seq, .nsamp, .flen, .boff, .bitidx, .value, .result, .xinLo, .xinHi,
    .xoutLo, .xoutHi, .scaleLo, .scaleHi, .dprof] → State.reset.readReg r = 0) ∧
  (∀ s : State,
    let read := fun (a : Nat) => (s.access (.read (BitVec.ofNat 16 a) .word)).resp
    let value := fun (v : Nat) => some ({ data := BitVec.ofNat 32 v, error := false } : Response)
    [0x000, 0x004, 0x008, 0x00C, 0x010].map read = [2, 1024, 48000, 12, 1024].map value ∧
    [0x080, 0x084, 0x088, 0x08C].map read = [160, 256, 384, 512].map value ∧
    [0x090, 0x094, 0x098, 0x09C].map read = [2404, 4452, 7568, 16384].map value ∧
    [0x0A0, 0x0A4, 0x0A8, 0x0AC].map read = [301, 557, 946, 2048].map value ∧
    [0x0B0, 0x0B4, 0x0B8, 0x0BC].map read = [313, 569, 958, 2060].map value) ∧
  State.reset.inFlight = none ∧ (∀ a, State.reset.mem.byte a = Config.freeByte 0 a) ∧
  (∀ (s : State) (rest : List Event), s.inbox = .powerOn :: rest → ∃ t, step s = .next t ∧
    t.regs = State.reset.regs ∧ t.inFlight = none ∧ t.inbox = rest ∧
    ∀ a, t.mem.byte a = Config.freeByte s.draws a)

/-- The soft reset (70_reset_and_hazards.md R382), idle or in flight: every register takes its reset value, no
command is in flight, the other bits of the written value are ignored; every byte of the aborted command's Writes
list becomes a draw, every other byte is kept. Which list an aborted command has that would have failed is the
model's choice (log 8), and so is the number of the draw (log 5). -/
def Obligations.SoftResetResetsAndAborts : Prop :=
  ∀ (s : State) (v : Word) (rest : List Event), v.getLsbD 1 = true →
    s.inbox = .host (.write 0x020 .word v) :: rest →
    ∃ t, step s = .next t ∧ t.regs = State.reset.regs ∧ t.inFlight = none ∧ t.inbox = rest ∧
      (s.inFlight = none → t.mem = s.mem ∧ t.draws = s.draws) ∧
      (∀ f, s.inFlight = some f → t.draws = s.draws + 1 ∧ ∀ a,
        (inRanges a (abortRanges f) → t.mem.byte a = Config.freeByte s.draws a) ∧
        (¬ inRanges a (abortRanges f) → t.mem.byte a = s.mem.byte a))

/-! ## Host accesses -/

/-- Which host accesses are illegal, in the numbers of 20_memory.md R81 and R84, and what they do (60_exceptions.md
R348): no effect on CORE's state, a read's data 0, and the error response. Every other access gets no error
response. -/
def Obligations.IllegalAccessesHaveNoEffect : Prop :=
  ∀ (s : State) (a : Offset) (n : Size) (v : Word),
    let legal := a.toNat % n.bytes = 0 ∧
      (n = .word ∧ (a.toNat < 0x100 ∨ (0x1000 ≤ a.toNat ∧ a.toNat < 0x3000) ∨
          (0x4000 ≤ a.toNat ∧ a.toNat < 0x8000)) ∨
        (0x8000 ≤ a.toNat ∧ a.toNat < 0x9000) ∨ (0xC000 ≤ a.toNat ∧ a.toNat < 0xC800))
    (¬ legal → s.access (.read a n) = { s with resp := some { data := 0, error := true } } ∧
      ∃ d, s.access (.write a n v) = { s with resp := some { data := d, error := true } }) ∧
    (legal → (∃ d, (s.access (.read a n)).resp = some { data := d, error := false }) ∧
      ∃ d, (s.access (.write a n v)).resp = some { data := d, error := false })

/-- No read has a side effect and every read is idempotent (20_memory.md R92): registers, memories, the command in
flight and irq are kept, and while the engine is idle reading again gives the same data. -/
def Obligations.ReadsHaveNoSideEffect : Prop :=
  ∀ (s : State) (a : Offset) (n : Size),
    (s.access (.read a n)).regs = s.regs ∧ (s.access (.read a n)).mem = s.mem ∧
    (s.access (.read a n)).inFlight = s.inFlight ∧ (s.access (.read a n)).inbox = s.inbox ∧
    (s.access (.read a n)).irq = s.irq ∧
    (s.inFlight = none → (s.access (.read a n)).access (.read a n) = s.access (.read a n))

/-- Reads while a command is in flight, of every permitted size. An engine-used location gives a draw (20_memory.md R94
clause b); CTRL, STATUS, CMD, a constant, a PROF register or PROM gives its value (R94 clause a), CMD the last accepted word
(10_state.md R25); a reserved offset gives 0 (R83). That a narrow read of FBUF gives the whole 32-bit draw, and that a
reserved offset gives 0 while BUSY too, is the model's choice (log 7), as is the draw's number (log 5), and as are the
data bits of a narrow PROM read above the bytes it reads, which are 0 (log 9). -/
def Obligations.BusyReadsAreDrawsOrValues : Prop :=
  ∀ (s : State) (f : InFlight) (a : Offset) (n : Size), s.inFlight = some f → a.toNat % n.bytes = 0 →
    let answers := fun (d : Word) => s.access (.read a n) = { s with resp := some { data := d, error := false } }
    ((n = .word ∧ ((0x02C ≤ a.toNat ∧ a.toNat ≤ 0x060) ∨ (0x1000 ≤ a.toNat ∧ a.toNat < 0x3000) ∨
          (0x4000 ≤ a.toNat ∧ a.toNat < 0x8000))) ∨ (0x8000 ≤ a.toNat ∧ a.toNat < 0x9000) →
      s.access (.read a n) =
        { s with resp := some { data := Config.freeWord s.draws, error := false }, draws := s.draws + 1 }) ∧
    (n = .word → a.toNat ≤ 0x010 ∨ (0x020 ≤ a.toNat ∧ a.toNat ≤ 0x028) ∨ (0x080 ≤ a.toNat ∧ a.toNat < 0x0C0) →
      answers (s.readReg (regAt a.toNat))) ∧
    (n = .word → a.toNat = 0x028 → answers s.regs.cmd) ∧
    (n = .word → (0x014 ≤ a.toNat ∧ a.toNat ≤ 0x01C) ∨ (0x064 ≤ a.toNat ∧ a.toNat ≤ 0x07C) ∨
      (0x0C0 ≤ a.toNat ∧ a.toNat ≤ 0x0FC) → answers 0) ∧
    (0xC000 ≤ a.toNat ∧ a.toNat < 0xC800 → answers (readData (promBytes (a.toNat - 0xC000) n.bytes)))

/-- While a command is in flight, a write to anything but CTRL, STATUS and CMD changes nothing and, where the access
is legal, is acknowledged without a bus error (R94 (d)). -/
def Obligations.BusyWritesAreDropped : Prop :=
  ∀ (s : State) (f : InFlight) (a : Offset) (n : Size) (v : Word), s.inFlight = some f →
    a.toNat ≠ 0x020 → a.toNat ≠ 0x024 → a.toNat ≠ 0x028 →
    ∃ d e, s.access (.write a n v) = { s with resp := some { data := d, error := e } } ∧
      (e = true ↔ legalRegion a.toNat n = none)

/-- FBUF through the bus while the engine is idle (20_memory.md R90): a write replaces the addressed bytes in
little-endian order and nothing else but the response, FLEN kept, and a read gives the addressed bytes in that order. -/
def Obligations.FbufAccessesMoveBytes : Prop :=
  ∀ (s : State) (a : Offset) (n : Size) (v : Word), s.inFlight = none → a.toNat % n.bytes = 0 →
    0x8000 ≤ a.toNat → a.toNat < 0x9000 →
    (∃ d, s.access (.write a n v) =
      { s with mem := (s.access (.write a n v)).mem, resp := some { data := d, error := false } }) ∧
    (∀ k < n.bytes, (s.access (.write a n v)).mem.byte (a.toNat + k) = BitVec.ofNat 8 (v.toNat / 256 ^ k)) ∧
    (∀ x, x < a.toNat ∨ a.toNat + n.bytes ≤ x → (s.access (.write a n v)).mem.byte x = s.mem.byte x) ∧
    ∃ d, (s.access (.read a n)).resp = some { data := d, error := false } ∧
      ∀ k < n.bytes, BitVec.ofNat 8 (d.toNat / 256 ^ k) = s.mem.byte (a.toNat + k)

/-- PCM_IN, PCM_OUT, RE and IM through the bus while the engine is idle (20_memory.md R88, R89): the word at
0x1000 + 4i is element i of PCM_IN, that at 0x2000 + 4i element i of PCM_OUT; the low word of an element of RE or IM
stands at its offset, the high word four bytes on. A write to PCM_IN stores the 32 bits as written; a write of one
word of RE or IM replaces those 32 bits and leaves the other 32; each leaves every byte outside the four written, the
registers, and all else but the response, unchanged; a write to PCM_OUT is ignored without a bus error. -/
def Obligations.SpectrumWordsAreHalvesOfElements : Prop :=
  ∀ (s : State) (i : Nat) (v : Word), s.inFlight = none → i < 1024 →
    let reads := fun (a : Nat) (w : Word) =>
      (s.access (.read (BitVec.ofNat 16 a) .word)).resp = some { data := w, error := false }
    let after := fun (a : Nat) => s.access (.write (BitVec.ofNat 16 a) .word v)
    reads (0x1000 + 4 * i) (s.mem.pcmInAt i) ∧ reads (0x2000 + 4 * i) (s.mem.pcmOutAt i) ∧
    reads (0x4000 + 8 * i) ((s.mem.reAt i).extractLsb' 0 32) ∧
    reads (0x4000 + 8 * i + 4) ((s.mem.reAt i).extractLsb' 32 32) ∧
    reads (0x6000 + 8 * i) ((s.mem.imAt i).extractLsb' 0 32) ∧
    reads (0x6000 + 8 * i + 4) ((s.mem.imAt i).extractLsb' 32 32) ∧
    (after (0x1000 + 4 * i)).mem.pcmInAt i = v ∧
    (after (0x4000 + 8 * i)).mem.reAt i = (s.mem.reAt i).extractLsb' 32 32 ++ v ∧
    (after (0x4000 + 8 * i + 4)).mem.reAt i = v ++ (s.mem.reAt i).extractLsb' 0 32 ∧
    (after (0x6000 + 8 * i)).mem.imAt i = (s.mem.imAt i).extractLsb' 32 32 ++ v ∧
    (after (0x6000 + 8 * i + 4)).mem.imAt i = v ++ (s.mem.imAt i).extractLsb' 0 32 ∧
    (∀ a ∈ [0x1000 + 4 * i, 0x4000 + 8 * i, 0x4000 + 8 * i + 4, 0x6000 + 8 * i, 0x6000 + 8 * i + 4],
      (∀ x, x < a ∨ a + 4 ≤ x → (after a).mem.byte x = s.mem.byte x) ∧
      ∃ d, after a = { s with mem := (after a).mem, resp := some { data := d, error := false } }) ∧
    ∃ d, after (0x2000 + 4 * i) = { s with resp := some { data := d, error := false } }

/-- The registers through the bus while the engine is idle (10_state.md R23, R25 to R36, 20_memory.md R83, R87): a
write changes the one register, or the one half of a 64-bit register, at its offset, in the bits it stores (FLEN is
clamped to 4096, CTRL with bit 1 clear takes IE), and nothing else but the response; what was written reads back; and
a read of any other register gives its value, of a reserved offset 0. -/
def Obligations.WritableRegistersReadBack : Prop :=
  ∀ (s : State) (a : Offset) (v : Word), s.inFlight = none →
    let sets := fun (o : Offset) (r : Regs) =>
      ∃ d, s.access (.write o .word v) = { s with regs := r, resp := some { data := d, error := false } }
    let reads := fun (o : Offset) (w : Word) =>
      (s.access (.read o .word)).resp = some { data := w, error := false }
    (v.getLsbD 1 = false → sets 0x020 { s.regs with ie := v.getLsbD 0 } ∧
      ((s.access (.write 0x020 .word v)).access (.read 0x020 .word)).resp =
        some { data := BitVec.ofNat 32 (v.toNat % 2), error := false }) ∧
    sets 0x030 { s.regs with nsamp := BitVec.ofNat 16 v.toNat } ∧
    sets 0x034 { s.regs with flen := BitVec.ofNat 16 (min (v.toNat % 65536) 4096) } ∧
    sets 0x038 { s.regs with boff := BitVec.ofNat 16 v.toNat } ∧
    sets 0x03C { s.regs with bitidx := v } ∧ sets 0x040 { s.regs with value := v } ∧
    sets 0x048 { s.regs with xin := s.regs.xin.extractLsb' 32 32 ++ v } ∧
    sets 0x04C { s.regs with xin := v ++ s.regs.xin.extractLsb' 0 32 } ∧
    sets 0x058 { s.regs with scale := s.regs.scale.extractLsb' 32 32 ++ v } ∧
    sets 0x05C { s.regs with scale := v ++ s.regs.scale.extractLsb' 0 32 } ∧
    (a ∈ [0x03C, 0x040, 0x048, 0x04C, 0x058, 0x05C] →
      ((s.access (.write a .word v)).access (.read a .word)).resp = some { data := v, error := false }) ∧
    (a ∈ [0x030, 0x038] →
      ((s.access (.write a .word v)).access (.read a .word)).resp =
        some { data := BitVec.ofNat 32 (v.toNat % 65536), error := false }) ∧
    (a = 0x034 →
      ((s.access (.write a .word v)).access (.read a .word)).resp =
        some { data := BitVec.ofNat 32 (min (v.toNat % 65536) 4096), error := false }) ∧
    reads 0x028 s.regs.cmd ∧ reads 0x02C s.regs.seq ∧ reads 0x030 (BitVec.ofNat 32 s.regs.nsamp.toNat) ∧
    reads 0x034 (BitVec.ofNat 32 s.regs.flen.toNat) ∧ reads 0x038 (BitVec.ofNat 32 s.regs.boff.toNat) ∧
    reads 0x03C s.regs.bitidx ∧ reads 0x040 s.regs.value ∧ reads 0x044 s.regs.result ∧
    reads 0x048 (s.regs.xin.extractLsb' 0 32) ∧ reads 0x04C (s.regs.xin.extractLsb' 32 32) ∧
    reads 0x050 (s.regs.xout.extractLsb' 0 32) ∧ reads 0x054 (s.regs.xout.extractLsb' 32 32) ∧
    reads 0x058 (s.regs.scale.extractLsb' 0 32) ∧ reads 0x05C (s.regs.scale.extractLsb' 32 32) ∧
    reads 0x060 (BitVec.ofNat 32 s.regs.dprof.toNat) ∧
    (a.toNat % 4 = 0 → (0x014 ≤ a.toNat ∧ a.toNat ≤ 0x01C) ∨ (0x064 ≤ a.toNat ∧ a.toNat ≤ 0x07C) ∨
      (0x0C0 ≤ a.toNat ∧ a.toNat ≤ 0x0FC) → reads a 0)

/-- Writes to read-only registers, reserved offsets, PCM_OUT and PROM are ignored without a bus error, busy or not
(20_memory.md R83, R87, R88, R91): 32-bit writes to the first three, and writes of every size to PROM (R81). -/
def Obligations.ReadOnlyLocationsIgnoreWrites : Prop :=
  ∀ (s : State) (a : Offset) (n : Size) (v : Word), a.toNat % n.bytes = 0 →
    (n = .word ∧ (a.toNat ≤ 0x01C ∨ a.toNat = 0x02C ∨ a.toNat = 0x044 ∨ a.toNat = 0x050 ∨ a.toNat = 0x054 ∨
        (0x060 ≤ a.toNat ∧ a.toNat < 0x100) ∨ (0x2000 ≤ a.toNat ∧ a.toNat < 0x3000)) ∨
      (0xC000 ≤ a.toNat ∧ a.toNat < 0xC800)) →
    ∃ d, s.access (.write a n v) = { s with resp := some { data := d, error := false } }

/-- STATUS, CTRL and the interrupt, busy or not (10_state.md R23, R24, 60_exceptions.md R340, R350). irq is DONE and
IE. STATUS reads BUSY, DONE, OVR, TRUNC and FBK in bits 0 to 4, the number of the error code in bits 11:8, and 0
elsewhere; CTRL reads IE in bit 0 and 0 elsewhere. Writing 1 to STATUS bit 1 clears DONE and with it irq, writing 1 to
bit 2 clears OVR, a bit written 0 keeps its flag, and nothing else but the response changes: ERR, TRUNC and FBK are
kept. A CTRL write with bit 1 clear sets IE to bit 0 and changes nothing else but the response: clearing IE hides irq
without clearing DONE. -/
def Obligations.InterruptFollowsDoneAndEnable : Prop :=
  ∀ (s : State) (v : Word),
    let status := s.access (.write 0x024 .word v)
    let ctrl := s.access (.write 0x020 .word v)
    (s.irq = true ↔ s.regs.done = true ∧ s.regs.ie = true) ∧
    (∃ w : Word, (s.access (.read 0x024 .word)).resp = some { data := w, error := false } ∧
      w.getLsbD 0 = s.inFlight.isSome ∧ w.getLsbD 1 = s.regs.done ∧ w.getLsbD 2 = s.regs.ovr ∧
      w.getLsbD 3 = s.regs.trunc ∧ w.getLsbD 4 = s.regs.fbk ∧
      (∀ k, (5 ≤ k ∧ k ≤ 7) ∨ 12 ≤ k → w.getLsbD k = false) ∧
      (w.extractLsb' 8 4).toNat = match s.regs.err with
        | .success => 0
        | .unknownProfile => 1
        | .badFrameLength => 2
        | .tooSmall => 3
        | .unsupportedVersion => 4
        | .badArgument => 5
        | .illegalCommand => 6) ∧
    (s.access (.read 0x020 .word)).resp = some { data := if s.regs.ie then 1 else 0, error := false } ∧
    (∃ d, status = { s with
      regs := { s.regs with done := status.regs.done, ovr := status.regs.ovr },
      resp := some { data := d, error := false } }) ∧
    (v.getLsbD 1 = true → status.regs.done = false ∧ status.irq = false) ∧
    (v.getLsbD 1 = false → status.regs.done = s.regs.done ∧ status.irq = s.irq) ∧
    (v.getLsbD 2 = true → status.regs.ovr = false) ∧ (v.getLsbD 2 = false → status.regs.ovr = s.regs.ovr) ∧
    (v.getLsbD 1 = false → ∃ d, ctrl = { s with
      regs := { s.regs with ie := v.getLsbD 0 }, resp := some { data := d, error := false } }) ∧
    (v.getLsbD 1 = false → v.getLsbD 0 = false → ctrl.irq = false ∧ ctrl.regs.done = s.regs.done)

/-- SEQ changes only by a successful ENC, which adds 1 modulo 2^32, and by a reset, which makes it 0 (10_state.md
R26, 60_exceptions.md R355). -/
def Obligations.SeqCountsSuccessfulEncodes : Prop :=
  ∀ s t : State, step s = .next t → t.regs.seq ≠ s.regs.seq →
    (∃ (f : InFlight) (p : Nat), s.inFlight = some f ∧ decode f.word = .instr (.enc p) ∧
      t.regs.seq = BitVec.ofNat 32 (f.regs.seq.toNat + 1) ∧ t.regs.err = .success ∧ t.inFlight = none) ∨
    (t.regs.seq = 0 ∧ ∃ rest, s.inbox = .powerOn :: rest ∨
      ∃ v : Word, s.inbox = .host (.write 0x020 .word v) :: rest ∧ v.getLsbD 1 = true)

/-! ## The commands -/

/-- NOP (40_command.md R186): nothing but the completion. -/
def Obligations.NopOnlyCompletes : Prop :=
  ∀ s : State, exec .nop s =
    .next { s with regs := { s.regs with done := true, err := .success }, inFlight := none }

/-- FSIZE p (41_profile.md R210): the word ((p << 8) | 0x08), and RESULT takes the frame size of a profile 0..3, every other id fails. -/
def Obligations.FsizeGivesTheFrameSize : Prop :=
  ∀ (p : Nat) (s : State),
    (p < 256 → decode (BitVec.ofNat 32 (p * 256 + 0x08)) = .instr (.fsize p)) ∧
    (p ≤ 3 → exec (.fsize p) s =
      .next { s with
        regs := { s.regs with result := [313, 569, 958, 2060].getD p 0, done := true, err := .success },
        inFlight := none }) ∧
    (3 < p → exec (.fsize p) s =
      .next { s with regs := { s.regs with done := true, err := .unknownProfile }, inFlight := none })

/-- SPCLR (42_fft.md R228), word 0x0000000A: every element of RE and IM becomes +0.0, and nothing else changes. -/
def Obligations.SpclrClearsTheSpectrum : Prop :=
  decode 0x0000000A = .instr .spclr ∧ ∀ s : State, ∃ t, exec .spclr s = .next t ∧ Completed s t ∧ t.draws = s.draws ∧
    t.regs = { s.regs with done := true, err := .success } ∧
    (∀ k < 1024, t.mem.reAt k = 0 ∧ t.mem.imAt k = 0) ∧
    (∀ a, a < 0x4000 ∨ 0x8000 ≤ a → t.mem.byte a = s.mem.byte a)

/-- FBCLR (43_bitcodec.md R253), word 0x00000009: every byte of FBUF becomes 0, and nothing else changes. -/
def Obligations.FbclrClearsTheFrameBuffer : Prop :=
  decode 0x00000009 = .instr .fbclr ∧ ∀ s : State, ∃ t, exec .fbclr s = .next t ∧ Completed s t ∧ t.draws = s.draws ∧
    t.regs = { s.regs with done := true, err := .success } ∧
    (∀ a, 0x8000 ≤ a ∧ a < 0x9000 → t.mem.byte a = 0) ∧
    (∀ a, a < 0x8000 ∨ 0x9000 ≤ a → t.mem.byte a = s.mem.byte a)

/-- FFTF (42_fft.md R224): RE and IM hold FFT_CORE(0) of what they held at acceptance; nothing else changes. FFT_CORE(0)
is the in-place loop (R223), written as `FftLoop`, for every 1024 elements, and its twiddle steps are the ROM's ten
pairs (R222). The names of NaN draws are the model's (log 6); its list form of the loop is log 14. -/
def Obligations.FftfWritesTheForwardTransform : Prop :=
  (∀ s : State, ∃ t, exec .fftf s = .next t ∧ Completed s t ∧ t.draws = s.draws + 1 ∧
    t.regs = { s.regs with done := true, err := .success } ∧
    (∀ k < 1024,
      let x := (fftCore [s.draws] false ((List.range 1024).map fun j =>
        { re := Fp.ofBits (s.inMem.reAt j), im := Fp.ofBits (s.inMem.imAt j) })).getD k Cpx.zero
      t.mem.reAt k = x.re.toBits ∧ t.mem.imAt k = x.im.toBits) ∧
    (∀ a, a < 0x4000 ∨ 0x8000 ≤ a → t.mem.byte a = s.mem.byte a)) ∧
  (∀ (n : Tag) (xs : List Cpx), xs.length = 1024 →
    FftLoop false (fun k => xs.getD k Cpx.zero) (fun k => (fftCore n false xs).getD k Cpx.zero)) ∧
  ((List.range 10).map fun s => ((twiddleStep false (s + 1)).re.toBits, (twiddleStep false (s + 1)).im.toBits)) =
    [(0xBFF0000000000000, 0x0000000000000000), (0x0000000000000000, 0x3FF0000000000000),
      (0x3FE6A09E667F3BCD, 0x3FE6A09E667F3BCD), (0x3FED906BCF328D46, 0x3FD87DE2A6AEA963),
      (0x3FEF6297CFF75CB0, 0x3FC8F8B83C69A60B), (0x3FEFD88DA3D12526, 0x3FB917A6BC29B42C),
      (0x3FEFF621E3796D7E, 0x3FA91F65F10DD814), (0x3FEFFD886084CD0D, 0x3F992155F7A3667E),
      (0x3FEFFF62169B92DB, 0x3F8921D1FCDEC784), (0x3FEFFFD8858E8A92, 0x3F7921F0FE670071)]

/-- FFTI (42_fft.md R225): RE and IM hold FFT_CORE(1) of what they held at acceptance; nothing else changes. FFT_CORE(1)
is the in-place loop with the division by 1024 (R223), written as `FftLoop`, for every 1024 elements, and its twiddle
steps are the ROM's ten pairs (R222) with the sine negated. The names of NaN draws are the model's (log 6); its list
form of the loop is log 14. -/
def Obligations.FftiWritesTheInverseTransform : Prop :=
  (∀ s : State, ∃ t, exec .ffti s = .next t ∧ Completed s t ∧ t.draws = s.draws + 1 ∧
    t.regs = { s.regs with done := true, err := .success } ∧
    (∀ k < 1024,
      let x := (fftCore [s.draws] true ((List.range 1024).map fun j =>
        { re := Fp.ofBits (s.inMem.reAt j), im := Fp.ofBits (s.inMem.imAt j) })).getD k Cpx.zero
      t.mem.reAt k = x.re.toBits ∧ t.mem.imAt k = x.im.toBits) ∧
    (∀ a, a < 0x4000 ∨ 0x8000 ≤ a → t.mem.byte a = s.mem.byte a)) ∧
  (∀ (n : Tag) (xs : List Cpx), xs.length = 1024 →
    FftLoop true (fun k => xs.getD k Cpx.zero) (fun k => (fftCore n true xs).getD k Cpx.zero)) ∧
  ((List.range 10).map fun s => ((twiddleStep true (s + 1)).re.toBits, (twiddleStep true (s + 1)).im.toBits)) =
    [(0xBFF0000000000000, 0x8000000000000000), (0x0000000000000000, 0xBFF0000000000000),
      (0x3FE6A09E667F3BCD, 0xBFE6A09E667F3BCD), (0x3FED906BCF328D46, 0xBFD87DE2A6AEA963),
      (0x3FEF6297CFF75CB0, 0xBFC8F8B83C69A60B), (0x3FEFD88DA3D12526, 0xBFB917A6BC29B42C),
      (0x3FEFF621E3796D7E, 0xBFA91F65F10DD814), (0x3FEFFD886084CD0D, 0xBF992155F7A3667E),
      (0x3FEFFF62169B92DB, 0xBF8921D1FCDEC784), (0x3FEFFFD8858E8A92, 0xBF7921F0FE670071)]

/-- The forward transform of an impulse of a finite nonzero height h. At element 0 (the example of 42_fft.md R224): every
real part is h, every imaginary part +0.0. At element 256: element k is h times i^k, so that the exponent of the
forward transform is positive (R226), with +0.0 in the other part. -/
def Obligations.ImpulseTransformsToAConstant : Prop :=
  ∀ (t : Tag) (u : Word64), finiteBits u = true → u.extractLsb' 0 63 ≠ 0 → ∀ k < 1024,
    let h := Fp.ofBits u
    let impulse := fun (a : Nat) => (List.range 1024).map fun j => if j = a then { re := h, im := Fp.zero } else Cpx.zero
    (fftCore t false (impulse 0)).getD k Cpx.zero = { re := h, im := Fp.zero } ∧
    (fftCore t false (impulse 256)).getD k Cpx.zero =
      if k % 4 = 0 then { re := h, im := Fp.zero }
      else if k % 4 = 1 then { re := Fp.zero, im := h }
      else if k % 4 = 2 then { re := h.neg, im := Fp.zero }
      else { re := Fp.zero, im := h.neg }

/-- HERM p (46_decode.md R317), word ((p << 8) | 0x03): for a profile of B bins, element 1024 − i becomes the conjugate of element i for i
in 1..B−1, the band B .. 1024 − B becomes +0.0, the bins below B are kept, and nothing else changes; an
unknown profile id fails and changes no buffer. -/
def Obligations.HermMirrorsAndClears : Prop :=
  ∀ (p : Nat) (s : State),
    (p < 256 → decode (BitVec.ofNat 32 (p * 256 + 0x03)) = .instr (.herm p)) ∧
    (p ≤ 3 → ∃ t, exec (.herm p) s = .next t ∧ Completed s t ∧ t.draws = s.draws ∧
      t.regs = { s.regs with done := true, err := .success } ∧
      (∀ i, 1 ≤ i → i < binCount p →
        t.mem.reAt (1024 - i) = s.inMem.reAt i ∧
        t.mem.imAt (1024 - i) = s.inMem.imAt i ^^^ 0x8000000000000000) ∧
      (∀ k, binCount p ≤ k → k ≤ 1024 - binCount p → t.mem.reAt k = 0 ∧ t.mem.imAt k = 0) ∧
      (∀ k, k < binCount p → t.mem.reAt k = s.mem.reAt k ∧ t.mem.imAt k = s.mem.imAt k) ∧
      (∀ a, a < 0x4000 ∨ 0x8000 ≤ a → t.mem.byte a = s.mem.byte a)) ∧
    (3 < p → exec (.herm p) s =
      .next { s with regs := { s.regs with done := true, err := .unknownProfile }, inFlight := none })

/-- QUANT b (44_quantizer.md R273): RESULT is Q(XIN, SCALE, b); b out of 1..32, then a scale not above 0, fail. Q is
its steps (R271), written as `QuantSteps`, for every x, s and b, and for an f64 scale above 0 the value those steps
round is no infinity. A scale of +∞ is above 0; with it a finite x gives (M + 1)/2 and x = ±∞ gives 0. The names of
NaN draws are the model's (log 6). -/
def Obligations.QuantWritesTheQuantizedInteger : Prop :=
  (∀ (b : Nat) (s : State),
    (1 ≤ b → b ≤ 32 → Fp.lt Fp.zero (Fp.ofBits s.inRegs.scale) = true →
      exec (.quant b) s = .next { s with
        regs := { s.regs with
          result := BitVec.ofNat 32 (quantize [s.draws] (Fp.ofBits s.inRegs.xin) (Fp.ofBits s.inRegs.scale) b),
          done := true, err := .success },
        inFlight := none }) ∧
    (b = 0 ∨ 32 < b ∨ Fp.lt Fp.zero (Fp.ofBits s.inRegs.scale) = false →
      exec (.quant b) s =
        .next { s with regs := { s.regs with done := true, err := .badArgument }, inFlight := none })) ∧
  (∀ (t : Tag) (x s : Fp) (b : Nat), QuantSteps x s b (quantize t x s b)) ∧
  (∀ (n : Nat → Tag) (x s : Word64) (b : Nat), Fp.lt Fp.zero (Fp.ofBits s) = true → 1 ≤ b → b ≤ 32 →
    ∀ neg, quantScaled n (Fp.ofBits x) (Fp.ofBits s) b ≠ .inf neg) ∧
  Fp.lt Fp.zero (Fp.ofBits 0x7FF0000000000000) = true ∧
  ∀ (t : Tag) (x : Word64) (b : Nat), 1 ≤ b → b ≤ 32 →
    (finiteBits x = true → quantize t (Fp.ofBits x) (Fp.ofBits 0x7FF0000000000000) b = (2 ^ b - 1 + 1) / 2) ∧
    (x = 0x7FF0000000000000 ∨ x = 0xFFF0000000000000 →
      quantize t (Fp.ofBits x) (Fp.ofBits 0x7FF0000000000000) b = 0)

/-- The quantizer's result is in 0..M for every input (44_quantizer.md R271, 00_scope.md R9). -/
def Obligations.QuantizedIntegersAreInRange : Prop :=
  ∀ (t : Tag) (x s : Fp) (b : Nat), quantize t x s b ≤ 2 ^ b - 1

/-- Inputs beyond ±s are clipped to the outermost levels, infinities too, and a NaN gives 0 (44_quantizer.md R271,
R273), for a finite scale above 0. -/
def Obligations.QuantizerClipsAndMapsNaNToZero : Prop :=
  ∀ (t : Tag) (x : Fp) (u : Word64) (b : Nat), finiteBits u = true → Fp.lt Fp.zero (Fp.ofBits u) = true →
    1 ≤ b → b ≤ 32 →
    (Fp.lt (Fp.ofBits u) x = true → quantize t x (Fp.ofBits u) b = 2 ^ b - 1) ∧
    (Fp.lt x (Fp.ofBits u).neg = true → quantize t x (Fp.ofBits u) b = 0) ∧
    (x.isNaN = true → quantize t x (Fp.ofBits u) b = 0)

/-- A zero input quantizes to 2^(b−1), half up, for every finite scale above 0 (44_quantizer.md R273, R275). -/
def Obligations.ZeroQuantizesToTheUpperMiddle : Prop :=
  ∀ (t : Tag) (neg : Bool) (u : Word64) (b : Nat), finiteBits u = true →
    Fp.lt Fp.zero (Fp.ofBits u) = true → 1 ≤ b → b ≤ 32 →
    quantize t (.fin neg 0 (-1074)) (Fp.ofBits u) b = 2 ^ (b - 1)

/-- DEQUANT b (44_quantizer.md R274): XOUT is DQ of the low b bits of VALUE; b out of 1..32 fails. DQ is its steps
(R272), written as `DequantSteps`, for every q, b and s. The names of NaN draws are the model's (log 6). -/
def Obligations.DequantWritesTheLevel : Prop :=
  (∀ (t : Tag) (q b : Nat) (s : Fp), DequantSteps q b s (dequantize t q b s)) ∧
  ∀ (b : Nat) (s : State),
    (1 ≤ b → b ≤ 32 → exec (.dequant b) s = .next { s with
        regs := { s.regs with
          xout := (dequantize [s.draws] (s.inRegs.value.toNat % 2 ^ b) b (Fp.ofBits s.inRegs.scale)).toBits,
          done := true, err := .success },
        inFlight := none, draws := s.draws + 1 }) ∧
    (b = 0 ∨ 32 < b → exec (.dequant b) s =
        .next { s with regs := { s.regs with done := true, err := .badArgument }, inFlight := none })

/-- The outermost levels are exact (44_quantizer.md R274): q = 0 gives −s and q = M gives +s when s is finite. -/
def Obligations.OutermostLevelsAreExact : Prop :=
  ∀ (t : Tag) (u : Word64) (b : Nat), finiteBits u = true → 1 ≤ b → b ≤ 32 →
    dequantize t 0 b (Fp.ofBits u) = (Fp.ofBits u).neg ∧
    dequantize t (2 ^ b - 1) b (Fp.ofBits u) = Fp.ofBits u

/-- WRBITS n (43_bitcodec.md R251), word ((n << 8) | 0x06): bit P + k of FBUF is ORed with bit n − 1 − k of VALUE, every other bit of FBUF
and every other byte is kept, BITIDX takes BITIDX + n; n above 32, then a field past the end of FBUF, fail
and write nothing. -/
def Obligations.WrbitsOrsTheFieldIn : Prop :=
  ∀ (n : Nat) (s : State), s.inMem = s.mem →
    let P := 8 * s.inRegs.boff.toNat + s.inRegs.bitidx.toNat
    (n < 256 → decode (BitVec.ofNat 32 (n * 256 + 0x06)) = .instr (.wrbits n)) ∧
    (n ≤ 32 → P + n ≤ 8 * 4096 → ∃ t, exec (.wrbits n) s = .next t ∧ Completed s t ∧ t.draws = s.draws ∧
      t.regs = { s.regs with bitidx := BitVec.ofNat 32 (s.inRegs.bitidx.toNat + n), done := true, err := .success } ∧
      (∀ q < 8 * 4096, t.mem.fbufBit q = (s.mem.fbufBit q ||
        (decide (P ≤ q ∧ q < P + n) && s.inRegs.value.getLsbD (n - 1 - (q - P))))) ∧
      (∀ a, a < 0x8000 ∨ 0x9000 ≤ a → t.mem.byte a = s.mem.byte a)) ∧
    (32 < n ∨ 8 * 4096 < P + n → exec (.wrbits n) s =
      .next { s with regs := { s.regs with done := true, err := .badArgument }, inFlight := none })

/-- RDBITS n (43_bitcodec.md R252), word ((n << 8) | 0x07): RESULT is the field of n bits at P, with 0 for each bit at or past 8·FLEN, TRUNC
says whether there was one, and nothing else changes; n above 32 fails. FLEN is at most 4096 (R28). -/
def Obligations.RdbitsReadsTheField : Prop :=
  ∀ (n : Nat) (s : State), s.inRegs.flen.toNat ≤ 4096 →
    let P := 8 * s.inRegs.boff.toNat + s.inRegs.bitidx.toNat
    (n < 256 → decode (BitVec.ofNat 32 (n * 256 + 0x07)) = .instr (.rdbits n)) ∧
    (n ≤ 32 → exec (.rdbits n) s = .next { s with
        regs := { s.regs with
          result := BitVec.ofNat 32 (s.inMem.fbufField (8 * s.inRegs.flen.toNat) P n),
          trunc := decide (0 < n ∧ 8 * s.inRegs.flen.toNat < P + n), done := true, err := .success },
        inFlight := none }) ∧
    (32 < n → exec (.rdbits n) s =
      .next { s with regs := { s.regs with done := true, err := .badArgument }, inFlight := none })

/-- Round trip of the bit codec (43_bitcodec.md R254), for two accepted commands: WRBITS n in flight, with the memories
as they were at its acceptance and zero bits at its position P, completes; and any RDBITS n accepted with the memories
that leaves, at the same P and with 8·FLEN ≥ P + n, gives VALUE mod 2^n, with TRUNC 0. FLEN is at most 4096 (R28). -/
def Obligations.BitCodecRoundTrip : Prop :=
  ∀ (n : Nat) (s : State) (f : InFlight), s.inFlight = some f → f.mem = s.mem → n ≤ 32 →
    let P := 8 * f.regs.boff.toNat + f.regs.bitidx.toNat
    P + n ≤ 8 * 4096 → (∀ q, P ≤ q → q < P + n → f.mem.fbufBit q = false) →
    ∃ t, exec (.wrbits n) s = .next t ∧
      ∀ (u : State) (g : InFlight), u.inFlight = some g → g.mem = t.mem →
        8 * g.regs.boff.toNat + g.regs.bitidx.toNat = P → P + n ≤ 8 * g.regs.flen.toNat → g.regs.flen.toNat ≤ 4096 →
        ∃ r, exec (.rdbits n) u = .next r ∧
          r.regs.result = BitVec.ofNat 32 (f.regs.value.toNat % 2 ^ n) ∧ r.regs.trunc = false ∧
          r.regs.err = .success

/-! ## The frame encoder and decoder -/

/-- ENC p (45_encode.md R290 to R297) on 1024 samples with a profile of B bins: RE and IM hold the forward
transform of the widened samples, SCALE the scale m, FBUF the header (30_encoding.md R131 to R136) with SEQ as it
was, zeros after the frame, SEQ + 1, FLEN and DPROF; and no byte outside RE, IM and FBUF changes. The names of NaN
draws are the model's (log 6). -/
def Obligations.EncWritesTheFrame : Prop :=
  ∀ (p : Nat) (s : State), p ≤ 3 → s.inRegs.nsamp = 1024 →
    let xs := fftCore [1, s.draws] false ((List.range 1024).map fun k =>
      { re := widen32to64 [k, 0, s.draws] (s.inMem.pcmInAt k), im := Fp.zero })
    let m := encScale (xs.take (binCount p))
    ∃ t, exec (.enc p) s = .next t ∧ Completed s t ∧ t.draws = s.draws + 1 ∧
      t.regs = { s.regs with
        scale := m.toBits, seq := BitVec.ofNat 32 (s.inRegs.seq.toNat + 1),
        flen := [313, 569, 958, 2060].getD p 0, dprof := BitVec.ofNat 8 p, done := true, err := .success } ∧
      (∀ k < 1024, t.mem.reAt k = (xs.getD k Cpx.zero).re.toBits ∧
        t.mem.imAt k = (xs.getD k Cpx.zero).im.toBits) ∧
      t.mem.bytes 0x8000 4 = [2, BitVec.ofNat 8 (binCount p), BitVec.ofNat 8 p, 0] ∧
      (∀ k < 4, t.mem.byte (0x8004 + k) =
        BitVec.ofNat 8 ((round64to32 [2, s.draws] m).toNat / 256 ^ k)) ∧
      (∀ k < 4, t.mem.byte (0x8008 + k) = BitVec.ofNat 8 (s.inRegs.seq.toNat / 256 ^ k)) ∧
      (∀ a, [313, 569, 958, 2060].getD p 0 ≤ a → a < 4096 → t.mem.byte (0x8000 + a) = 0) ∧
      (∀ a, a < 0x4000 ∨ 0x9000 ≤ a → t.mem.byte a = s.mem.byte a)

/-- The payload ENC writes (45_encode.md R295, 30_encoding.md R137): at its place, each encoded bin's real field
holds Q of the real part with the scale m and the bin's weight, its imaginary field Q of the imaginary part. Every
bit after the last field is 0. The names of NaN draws are the model's (log 6). -/
def Obligations.EncPayloadHoldsTheQuantizedBins : Prop :=
  ∀ (p i : Nat) (s t : State), p ≤ 3 → i < binCount p → s.inRegs.nsamp = 1024 → exec (.enc p) s = .next t →
    let xs := encSpectrum [s.draws] s.inMem.pcmIn
    let m := encScale (xs.take (binCount p))
    t.mem.fbufField 32768 (fieldPos p i) (weight p i) =
      quantize [0, i, 3, s.draws] (xs.getD i Cpx.zero).re m (weight p i) ∧
    t.mem.fbufField 32768 (fieldPos p i + weight p i) (weight p i) =
      quantize [1, i, 3, s.draws] (xs.getD i Cpx.zero).im m (weight p i) ∧
    ∀ q, 96 + totalBits p ≤ q → q < 32768 → t.mem.fbufBit q = false

/-- ENC's checks in their order (45_encode.md R290, 60_exceptions.md R345): an unknown profile first, then the number
of samples; on either error nothing but STATUS changes. -/
def Obligations.EncChecksProfileThenLength : Prop :=
  ∀ (p : Nat) (s : State),
    (3 < p → exec (.enc p) s =
      .next { s with regs := { s.regs with done := true, err := .unknownProfile }, inFlight := none }) ∧
    (p ≤ 3 → s.inRegs.nsamp ≠ 1024 → exec (.enc p) s =
      .next { s with regs := { s.regs with done := true, err := .badFrameLength }, inFlight := none })

/-- After ENC's step 4 the scale is never a NaN and never below G, whatever the bins hold (45_encode.md R292); it bounds
the magnitude of every part of a bin that is not a NaN; and it is G or the magnitude of a part of one of the bins. -/
def Obligations.EncScaleBoundsTheBins : Prop :=
  ∀ bins : List Cpx, (encScale bins).isNaN = false ∧ Fp.lt (encScale bins) (Fp.ofBits 0x3E112E0BE826D695) = false ∧
    (∀ x ∈ bins, Fp.lt (encScale bins) x.re.abs = false ∧ Fp.lt (encScale bins) x.im.abs = false) ∧
    (encScale bins = Fp.ofBits 0x3E112E0BE826D695 ∨
      ∃ x ∈ bins, encScale bins = x.re.abs ∨ encScale bins = x.im.abs)

/-- DEC (46_decode.md R310 to R316) of a frame of at least 12 bytes whose byte 0 is 2: the profile of byte 2, or 0
with FBK when it is unknown; SCALE, DPROF and TRUNC; RE and IM hold the inverse transform FFT_CORE(1) of the spectrum
with the B decoded bins, their conjugates at 1024 − i for i in 1..B−1, and zeros between; PCM_OUT holds its real parts
rounded; and nothing else changes. TRUNC is 1 exactly when the frame is shorter than its last field. The names of
NaN draws are the model's (log 6). -/
def Obligations.DecWritesTheSamples : Prop :=
  ∀ s : State, 12 ≤ s.inRegs.flen.toNat → s.inRegs.flen.toNat ≤ 4096 → s.inMem.byte 0x8000 = 2 →
    let pid := (s.inMem.byte 0x8002).toNat
    let p := if pid ≤ 3 then pid else 0
    let bins := (decFrameBins [s.draws] s.inMem s.inRegs.flen.toNat p).1
    let xs := fftCore [2, s.draws] true ((List.range 1024).map fun k =>
      if k < binCount p then bins.getD k Cpx.zero
      else if 1024 - binCount p < k then
        { re := (bins.getD (1024 - k) Cpx.zero).re, im := (bins.getD (1024 - k) Cpx.zero).im.neg }
      else { re := Fp.zero, im := Fp.zero })
    ∃ t, exec .dec s = .next t ∧ Completed s t ∧ t.draws = s.draws + 1 ∧
      t.regs = { s.regs with
        scale := (widen32to64 [0, s.draws] (BitVec.ofNat 32 (leNat (s.inMem.bytes 0x8004 4)))).toBits,
        dprof := BitVec.ofNat 8 p, fbk := decide (3 < pid),
        trunc := decide (8 * s.inRegs.flen.toNat < 96 + totalBits p), done := true, err := .success } ∧
      (∀ k < 1024, t.mem.reAt k = (xs.getD k Cpx.zero).re.toBits ∧
        t.mem.imAt k = (xs.getD k Cpx.zero).im.toBits ∧
        t.mem.pcmOutAt k = round64to32 [k, 3, s.draws] (xs.getD k Cpx.zero).re) ∧
      (∀ a, a < 0x2000 ∨ (0x3000 ≤ a ∧ a < 0x4000) ∨ 0x8000 ≤ a → t.mem.byte a = s.mem.byte a)

/-- The bins DEC reads (46_decode.md R313, 30_encoding.md R137): bin i is DQ of its two fields, with 0 for each bit
at or past 8·FLEN. The names of NaN draws are the model's (log 6). -/
def Obligations.DecReadsTheFields : Prop :=
  ∀ (t : Tag) (m : Memory) (flen p i : Nat), flen ≤ 4096 → p ≤ 3 → i < binCount p →
    (decFrameBins t m flen p).1.getD i Cpx.zero =
      { re := dequantize (0 :: i :: 1 :: t) (m.fbufField (8 * flen) (fieldPos p i) (weight p i)) (weight p i)
          (decScale t m.fbuf),
        im := dequantize (1 :: i :: 1 :: t) (m.fbufField (8 * flen) (fieldPos p i + weight p i) (weight p i))
          (weight p i) (decScale t m.fbuf) }

/-- DEC's checks in their order (46_decode.md R310, 60_exceptions.md R345): the length first, then the version; on
either error nothing but STATUS changes. -/
def Obligations.DecChecksLengthThenVersion : Prop :=
  ∀ s : State,
    (s.inRegs.flen.toNat < 12 → exec .dec s =
      .next { s with regs := { s.regs with done := true, err := .tooSmall }, inFlight := none }) ∧
    (12 ≤ s.inRegs.flen.toNat → s.inMem.byte 0x8000 ≠ 2 → exec .dec s =
      .next { s with regs := { s.regs with done := true, err := .unsupportedVersion }, inFlight := none })

/-- DEC does not read bytes 1, 3 and 8 to 11 of a frame, nor the bytes after the frame of its profile (30_encoding.md
R132, R134, R136, R140): frames that differ only there decode alike. -/
def Obligations.DecIgnoresTheBytesItMustNotRead : Prop :=
  ∀ s s' t t' : State, s'.draws = s.draws → s'.inRegs.flen = s.inRegs.flen → s.inRegs.flen.toNat ≤ 4096 →
    (∀ a < frameBytes (lookupDec (s.inMem.byte 0x8002).toNat).1, a ≠ 1 → a ≠ 3 → a < 8 ∨ 11 < a →
      s'.inMem.byte (0x8000 + a) = s.inMem.byte (0x8000 + a)) →
    exec .dec s = .next t → exec .dec s' = .next t' →
    t'.regs.err = t.regs.err ∧
    (t.regs.err = .success → t'.regs.scale = t.regs.scale ∧ t'.regs.dprof = t.regs.dprof ∧
      t'.regs.trunc = t.regs.trunc ∧ t'.regs.fbk = t.regs.fbk ∧
      ∀ k < 1024, t'.mem.pcmOutAt k = t.mem.pcmOutAt k ∧ t'.mem.reAt k = t.mem.reAt k ∧
        t'.mem.imAt k = t.mem.imAt k)

/-- The spectrum DEC builds (46_decode.md R318): Hermitian at every index but 0, and zero at the indices
B .. 1024 − B. -/
def Obligations.DecodedSpectrumIsHermitian : Prop :=
  ∀ bins : List Cpx, 1 ≤ bins.length → bins.length ≤ 512 →
    let xs := hermitian Cpx.conj Cpx.zero bins
    xs.length = 1024 ∧ (∀ i < bins.length, xs.getD i Cpx.zero = bins.getD i Cpx.zero) ∧
    (∀ i, 1 ≤ i → i < bins.length → xs.getD (1024 - i) Cpx.zero =
      { re := (bins.getD i Cpx.zero).re, im := (bins.getD i Cpx.zero).im.neg }) ∧
    (∀ k, bins.length ≤ k → k ≤ 1024 - bins.length → xs.getD k Cpx.zero = { re := Fp.zero, im := Fp.zero })

/-! ## Tables -/

/-- The profile ROM (41_profile.md R206, R207, R211): the weights of the four profiles as runs of consecutive bins, each
a count and a weight, their totals, and every weight in 5..16. -/
def Obligations.ProfileTotalsAndWeights : Prop :=
  ([0, 1, 2, 3].map fun p => (List.range (binCount p)).map (weight p)) =
    ([[(2, 5), (1, 12), (3, 11), (5, 10), (11, 9), (42, 8), (86, 7), (10, 6)],
      [(2, 7), (1, 14), (3, 13), (5, 12), (11, 11), (42, 10), (86, 9), (42, 8), (64, 7)],
      [(2, 9), (1, 16), (3, 15), (5, 14), (11, 13), (42, 12), (86, 11), (42, 10), (86, 9), (106, 8)],
      [(512, 16)]] : List (List (Nat × Nat))).map (·.flatMap fun r => List.replicate r.1 r.2) ∧
  [0, 1, 2, 3].map binCount = [160, 256, 384, 512] ∧
  [0, 1, 2, 3].map totalBits = [2404, 4452, 7568, 16384] ∧
  [0, 1, 2, 3].map payloadBytes = [301, 557, 946, 2048] ∧
  [0, 1, 2, 3].map frameBytes = [313, 569, 958, 2060] ∧
  (∀ p < 4, ∀ i < binCount p, 5 ≤ weight p i ∧ weight p i ≤ 16)

/-- PROM through the bus (20_memory.md R86, R91, 10_state.md R42), busy or not, for reads of every size: byte k of the
data is the byte of PROM k above the offset read, and the byte at 0xC000 + 512p + i is the weight of bin i, 0 from
binCount on; nothing but the response changes. The data bits above the bytes read are the model's (log 9). -/
def Obligations.PromReadsTheWeights : Prop :=
  ∀ s : State,
    (∀ p i, p < 4 → i < 512 → (s.access (.read (BitVec.ofNat 16 (0xC000 + 512 * p + i)) .byte)).resp =
      some { data := BitVec.ofNat 32 (if i < binCount p then weight p i else 0), error := false }) ∧
    ∀ (a : Offset) (n : Size), a.toNat % n.bytes = 0 → 0xC000 ≤ a.toNat → a.toNat < 0xC800 →
      ∃ d, s.access (.read a n) = { s with resp := some { data := d, error := false } } ∧
        d.toNat < 256 ^ n.bytes ∧
        ∀ k < n.bytes,
          let p := (a.toNat + k - 0xC000) / 512
          let i := (a.toNat + k - 0xC000) % 512
          d.toNat / 256 ^ k % 256 = if i < binCount p then weight p i else 0

/-- REV is an involution on 0..1023 with 32 fixed points (42_fft.md R221), and reverses the ten bits. -/
def Obligations.BitReversalIsAnInvolution : Prop :=
  (∀ i < 1024, rev i < 1024 ∧ rev (rev i) = i ∧ ∀ k < 10, (rev i).testBit k = i.testBit (9 - k)) ∧
  ((List.range 1024).filter fun i => rev i == i).length = 32

/-! ## Number formats -/

/-- `bits64` and `f64of` are inverses (00_scope.md R11): every encoding, NaNs included, is kept; and the value of an
encoding is that of its binary64 fields: sign in bit 63, exponent in bits 62:52, fraction in bits 51:0. The layout
itself is general knowledge (log 12). -/
def Obligations.Binary64EncodingsAreKept : Prop :=
  ∀ u : Word64, (Fp.ofBits u).toBits = u ∧
    let ex := (u.extractLsb' 52 11).toNat
    let frac := (u.extractLsb' 0 52).toNat
    (ex ≠ 2047 → ∃ m e, Fp.ofBits u = .fin (u.getLsbD 63) m e ∧
      magnitude m e = fieldMagnitude 52 (-1074) ex frac) ∧
    (ex = 2047 → (frac = 0 → Fp.ofBits u = .inf (u.getLsbD 63)) ∧ (frac ≠ 0 → (Fp.ofBits u).isNaN = true))

/-- `round_half_up` (00_scope.md R12), on the exact value v: of `v = ±m · 2^(−k)` it is the only integer r with
v − 1/2 < r ≤ v + 1/2, in units of 2^(−k−1), so that of two equally near integers it is the larger; a `v = ±m · 2^k`
is an integer and is kept. -/
def Obligations.RoundHalfUpIsNearest : Prop :=
  ∀ (neg : Bool) (m k : Nat) (r : Int),
    (roundHalfUp neg m (-(k : Int)) = r ↔
      (2 * (if neg then -(m : Int) else m) - 2 ^ k < r * 2 ^ (k + 1) ∧
        r * 2 ^ (k + 1) ≤ 2 * (if neg then -(m : Int) else m) + 2 ^ k)) ∧
    roundHalfUp neg m (k : Int) = (if neg then -(m : Int) else m) * 2 ^ k

/-- NaNs and infinities (00_scope.md R11): every operation on a NaN gives a NaN, every comparison with one is false,
narrowing gives an f32 NaN, and widening any f32 NaN gives a NaN. ∞ − ∞, 0 · ∞, ∞ / ∞ and 0 / 0 give a NaN; every other
sum, product and quotient with an infinity, and a nonzero value over 0, give the infinity, or over an infinity the
zero, of the IEEE sign; infinities compare as the ends of the order. The cases are general knowledge (log 12). -/
def Obligations.NaNsPropagate : Prop :=
  (∀ (t : Tag) (x y : Fp), x.isNaN = true →
    (Fp.add t x y).isNaN = true ∧ (Fp.add t y x).isNaN = true ∧ (Fp.sub t x y).isNaN = true ∧
    (Fp.sub t y x).isNaN = true ∧ (Fp.mul t x y).isNaN = true ∧ (Fp.mul t y x).isNaN = true ∧
    (Fp.div t x y).isNaN = true ∧ (Fp.div t y x).isNaN = true ∧ Fp.lt x y = false ∧ Fp.lt y x = false ∧
    ((round64to32 t x).extractLsb' 23 8 = 255 ∧ (round64to32 t x).extractLsb' 0 23 ≠ 0) ∧
    (widen32to64 t (round64to32 t x)).isNaN = true) ∧
  (∀ (t : Tag) (u : Word), u.extractLsb' 23 8 = 255 → u.extractLsb' 0 23 ≠ 0 → (widen32to64 t u).isNaN = true) ∧
  ∀ (t : Tag) (s₁ s₂ : Bool) (m : Nat) (e e' : Int),
    let inf := Fp.inf s₁
    let x := Fp.fin s₂ m e
    let sign := s₁ ^^ s₂
    (Fp.add t inf (.inf s₁) = inf ∧ (Fp.add t inf (.inf !s₁)).isNaN = true ∧ (Fp.sub t inf inf).isNaN = true) ∧
    (Fp.add t inf x = inf ∧ Fp.add t x inf = inf ∧ Fp.sub t inf x = inf ∧ Fp.sub t x inf = .inf !s₁) ∧
    (Fp.mul t inf (.inf s₂) = .inf sign ∧ (m ≠ 0 → Fp.mul t inf x = .inf sign ∧ Fp.mul t x inf = .inf sign) ∧
      (m = 0 → (Fp.mul t inf x).isNaN = true ∧ (Fp.mul t x inf).isNaN = true)) ∧
    ((Fp.div t inf (.inf s₂)).isNaN = true ∧ Fp.div t inf x = .inf sign ∧ Fp.div t x inf = .fin sign 0 (-1074)) ∧
    ((m ≠ 0 → Fp.div t x (.fin s₁ 0 e') = .inf sign) ∧ (m = 0 → (Fp.div t x (.fin s₁ 0 e')).isNaN = true)) ∧
    Fp.lt (.inf true) x = true ∧ Fp.lt x (.inf false) = true ∧ Fp.lt x (.inf true) = false ∧
    Fp.lt (.inf false) x = false ∧ Fp.lt (.inf s₁) (.inf s₂) = (s₁ && !s₂)

/-- The arithmetic (00_scope.md R11). `roundTo` gives, in binary64 and in binary32, a value of the format nearest to
the exact one, the one with the even significand at a tie, ±∞ from half a unit above the largest finite value on. On
finite operands `*f`, `/f` by a nonzero value, `+f` and `-f` give the exact result so rounded to binary64, an exact
zero sum being −0 only when both terms are negative; `<` compares the exact values. `widen32to64` of an f32 that is
no NaN is exact, and `round64to32` gives the encoding of the f64 rounded to binary32. So a product by 1.0 and a sum
with a zero give a finite nonzero operand back as it is (42_fft.md R227). IEEE-754 itself is general knowledge
(log 12). -/
def Obligations.UnitProductsAndZeroSumsAreExact : Prop :=
  (∀ (f : FpFormat) (neg : Bool) (m : Nat) (e : Int), f = binary64 ∨ f = binary32 →
    Rounded f neg (magnitude m e) (roundTo f neg m e)) ∧
  (∀ (t : Tag) (u w : Word64) (s₁ s₂ : Bool) (m₁ m₂ : Nat) (e₁ e₂ : Int),
    Fp.ofBits u = .fin s₁ m₁ e₁ → Fp.ofBits w = .fin s₂ m₂ e₂ →
    let x := signedValue s₁ (magnitude m₁ e₁)
    let y := signedValue s₂ (magnitude m₂ e₂)
    Rounded binary64 (s₁ ^^ s₂) |x * y| (Fp.mul t (Fp.ofBits u) (Fp.ofBits w)) ∧
    (y ≠ 0 → Rounded binary64 (s₁ ^^ s₂) |x / y| (Fp.div t (Fp.ofBits u) (Fp.ofBits w))) ∧
    Rounded binary64 (if x + y = 0 then s₁ && s₂ else decide (x + y < 0)) |x + y|
      (Fp.add t (Fp.ofBits u) (Fp.ofBits w)) ∧
    Rounded binary64 (if x - y = 0 then s₁ && !s₂ else decide (x - y < 0)) |x - y|
      (Fp.sub t (Fp.ofBits u) (Fp.ofBits w)) ∧
    Fp.lt (Fp.ofBits u) (Fp.ofBits w) = decide (x < y)) ∧
  (∀ (t : Tag) (u : Word),
    let ex := (u.extractLsb' 23 8).toNat
    let frac := (u.extractLsb' 0 23).toNat
    (ex ≠ 255 → ∃ m e, widen32to64 t u = .fin (u.getLsbD 31) m e ∧
      magnitude m e = fieldMagnitude 23 (-149) ex frac) ∧
    (ex = 255 → frac = 0 → widen32to64 t u = .inf (u.getLsbD 31))) ∧
  (∀ (t : Tag) (u : Word64) (s : Bool) (m : Nat) (e : Int), Fp.ofBits u = .fin s m e →
    let w := round64to32 t (Fp.ofBits u)
    w.getLsbD 31 = s ∧ ∃ r, Rounded binary32 s (magnitude m e) r ∧
      (r = .inf s → (w.extractLsb' 23 8).toNat = 255 ∧ (w.extractLsb' 0 23).toNat = 0) ∧
      ∀ q x, r = .fin s q x → (w.extractLsb' 23 8).toNat ≠ 255 ∧
        fieldMagnitude 23 (-149) (w.extractLsb' 23 8).toNat (w.extractLsb' 0 23).toNat = magnitude q x) ∧
  ∀ (t : Tag) (u : Word64) (neg : Bool), finiteBits u = true → u.extractLsb' 0 63 ≠ 0 →
    Fp.mul t (Fp.ofBits u) (Fp.ofNat 1) = Fp.ofBits u ∧
    Fp.add t (Fp.ofBits u) (.fin neg 0 (-1074)) = Fp.ofBits u ∧
    Fp.sub t (Fp.ofBits u) (.fin neg 0 (-1074)) = Fp.ofBits u
end

