-- ==== Sys2Proof/Laws/Memory.lean ====
section
/-! SUPPORT. What the memory operations do: reading after a write, bulk reads, and the canonical form. -/

namespace Sys2Proof.Machine

/-! ## Looking a byte up -/

@[simp] theorem lookupCell_nil (a : Nat) : lookupCell [] a = none := rfl

theorem lookupCell_cons (k : Nat) (b : Byte) (rest : List Host.Cell) (a : Nat) :
    lookupCell ((k, b) :: rest) a = if k = a then some b else lookupCell rest a := rfl

theorem lookupCell_append (xs ys : List Host.Cell) (a : Nat) :
    lookupCell (xs ++ ys) a = (lookupCell xs a).or (lookupCell ys a) := by
  induction xs with
  | nil => simp
  | cons c xs ih =>
    obtain ⟨k, b⟩ := c
    by_cases h : k = a <;> simp [lookupCell_cons, h, ih]

/-- A filter on addresses keeps the byte of an address it keeps, and hides that of one it drops. -/
theorem lookupCell_filter (p : Nat → Bool) (cells : List Host.Cell) (a : Nat) :
    lookupCell (cells.filter fun c => p c.1) a = if p a then lookupCell cells a else none := by
  induction cells with
  | nil => simp
  | cons c cells ih =>
    obtain ⟨k, b⟩ := c
    by_cases hk : p k <;> by_cases h : k = a <;> by_cases ha : p a <;>
      simp_all [lookupCell_cons]

theorem lookupCell_cellsFrom (a : Nat) (bs : List Byte) (x : Nat) :
    lookupCell (cellsFrom a bs) x = if a ≤ x ∧ x < a + bs.length then some (bs.getD (x - a) 0) else none := by
  induction bs generalizing a with
  | nil => simp [cellsFrom]
  | cons b bs ih =>
    rw [cellsFrom, lookupCell_cons, ih]
    by_cases h : a = x
    · subst h; simp
    · by_cases h' : a + 1 ≤ x ∧ x < a + 1 + bs.length
      · have hx : x - a = (x - (a + 1)) + 1 := by omega
        simp only [h, if_false, h', and_self, if_true, List.length_cons, hx, List.getD_cons_succ]
        rw [if_pos]; omega
      · simp only [h, if_false, h', List.length_cons]
        rw [if_neg]; omega

/-! ## Reading after a write -/

/-- What one write does to every byte: the written range takes the new bytes, every other byte is kept. -/
theorem byte_writeBlock (m : Memory) (a : Nat) (bs : List Byte) (x : Nat) :
    (m.writeBlock a bs).byte x = if a ≤ x ∧ x < a + bs.length then bs.getD (x - a) 0 else m.byte x := by
  unfold Memory.byte Memory.writeBlock
  simp only [lookupCell_append, lookupCell_filter (fun k => decide (k < a)),
    lookupCell_filter (fun k => decide (a + bs.length ≤ k)), lookupCell_cellsFrom, decide_eq_true_eq]
  by_cases h1 : x < a
  · rw [if_pos h1, if_neg (by omega), if_neg (by omega)]; simp; omega
  · by_cases h2 : x < a + bs.length
    · rw [if_neg h1, if_pos (by omega)]; simp [show a ≤ x by omega, h2]
    · rw [if_neg h1, if_neg (by omega), if_pos (by omega)]; simp; omega

theorem byte_writeBlock_inside (m : Memory) (a : Nat) (bs : List Byte) (k : Nat) (h : k < bs.length) :
    (m.writeBlock a bs).byte (a + k) = bs.getD k 0 := by
  rw [byte_writeBlock, if_pos (by omega)]; congr 1; omega

theorem byte_writeBlock_outside (m : Memory) (a : Nat) (bs : List Byte) (x : Nat)
    (h : x < a ∨ a + bs.length ≤ x) : (m.writeBlock a bs).byte x = m.byte x := by
  rw [byte_writeBlock, if_neg (by omega)]

@[simp] theorem writeBlock_epoch (m : Memory) (a : Nat) (bs : List Byte) :
    (m.writeBlock a bs).epoch = m.epoch := rfl

@[simp] theorem bytes_length (m : Memory) (a n : Nat) : (m.bytes a n).length = n := by simp [Memory.bytes]

@[simp] theorem drawnBytes_length (n a len : Nat) : (drawnBytes n a len).length = len := by
  simp [drawnBytes]

/-- A scramble keeps every byte outside its ranges. -/
theorem byte_scramble_outside (m : Memory) (n : Nat) (ranges : List (Nat × Nat)) (x : Nat)
    (h : ¬ inRanges x ranges) : (m.scramble n ranges).byte x = m.byte x := by
  induction ranges generalizing m with
  | nil => rfl
  | cons r ranges ih =>
    obtain ⟨a, len⟩ := r
    rw [Memory.scramble, ih _ (fun ⟨q, hq, hx⟩ => h ⟨q, List.mem_cons_of_mem _ hq, hx⟩)]
    apply byte_writeBlock_outside
    rw [drawnBytes_length]
    by_contra hc
    exact h ⟨(a, len), List.mem_cons_self, by simp only; omega⟩

/-- A scramble makes every byte inside its ranges the draw. -/
theorem byte_scramble_inside (m : Memory) (n : Nat) (ranges : List (Nat × Nat)) (x : Nat)
    (h : inRanges x ranges) : (m.scramble n ranges).byte x = Config.freeByte n x := by
  induction ranges generalizing m with
  | nil => obtain ⟨r, hr, _⟩ := h; cases hr
  | cons r ranges ih =>
    obtain ⟨b, len⟩ := r
    rw [Memory.scramble]
    by_cases h2 : inRanges x ranges
    · exact ih _ h2
    · rw [byte_scramble_outside _ _ _ _ h2]
      obtain ⟨r, hr, h3⟩ := h
      rcases List.mem_cons.mp hr with rfl | hr
      · simp only at h3
        rw [byte_writeBlock, if_pos (by rw [drawnBytes_length]; omega)]
        simp [drawnBytes, List.getD_eq_getElem?_getD, show x - b < len by omega, show b + (x - b) = x by omega]
      · exact absurd ⟨r, hr, h3⟩ h2

/-! ## Bulk reads -/

theorem blockOf_eq_map (epoch : Nat) (cells : List Host.Cell) (a k : Nat) :
    blockOf epoch cells a k =
      (List.range (2 ^ k)).map fun j => (lookupCell cells (a + j)).getD (Memory.unlisted epoch (a + j)) := by
  induction k generalizing cells a with
  | zero => simp [blockOf]
  | succ k ih =>
    have h2 : (2 : Nat) ^ (k + 1) = 2 ^ k + 2 ^ k := by omega
    rw [blockOf, ih, ih, h2, List.range_add, List.map_append, List.map_map]
    congr 1
    · apply List.map_congr_left
      intro j hj
      rw [List.mem_range] at hj
      rw [lookupCell_filter (fun c => decide (c < a + 2 ^ k))]
      simp [hj]
    · apply List.map_congr_left
      intro j hj
      rw [lookupCell_filter (fun c => decide (a + 2 ^ k ≤ c))]
      simp [Nat.add_assoc]

/-- The fast bulk read gives the bytes one by one. -/
theorem block_eq_bytes (m : Memory) (a k : Nat) : m.block a k = m.bytes a (2 ^ k) := by
  simp [Memory.block, Memory.bytes, Memory.byte, blockOf_eq_map]

@[simp] theorem block_length (m : Memory) (a k : Nat) : (m.block a k).length = 2 ^ k := by
  rw [block_eq_bytes, bytes_length]

theorem fbuf_getD (m : Memory) (a : Nat) (h : a < 4096) : m.fbuf.getD a 0 = m.byte (fbufBase + a) := by
  rw [Memory.fbuf, block_eq_bytes, Memory.bytes]
  simp [List.getD_eq_getElem?_getD, h]

/-! ## The canonical form -/

theorem risingFrom_mono {lo lo' : Nat} (cells : List Host.Cell) (h : risingFrom lo cells = true) (hlo : lo' ≤ lo) :
    risingFrom lo' cells = true := by
  cases cells with
  | nil => rfl
  | cons c cells =>
    obtain ⟨k, b⟩ := c
    simp only [risingFrom, Bool.and_eq_true, decide_eq_true_eq] at h ⊢
    exact ⟨by omega, h.2⟩

theorem risingFrom_filter {lo : Nat} (p : Host.Cell → Bool) (cells : List Host.Cell)
    (h : risingFrom lo cells = true) : risingFrom lo (cells.filter p) = true := by
  induction cells generalizing lo with
  | nil => rfl
  | cons c cells ih =>
    obtain ⟨k, b⟩ := c
    simp only [risingFrom, Bool.and_eq_true, decide_eq_true_eq] at h
    rw [List.filter_cons]
    split
    · simp only [risingFrom, Bool.and_eq_true, decide_eq_true_eq]; exact ⟨h.1, ih h.2⟩
    · exact risingFrom_mono _ (ih h.2) (by omega)

/-- Two rising lists, the first one below `mid` and the second one from `mid` on, rise when joined. -/
theorem risingFrom_append {lo mid : Nat} (xs ys : List Host.Cell) (hx : risingFrom lo xs = true)
    (hb : ∀ c ∈ xs, c.1 < mid) (hlo : lo ≤ mid) (hy : risingFrom mid ys = true) :
    risingFrom lo (xs ++ ys) = true := by
  induction xs generalizing lo with
  | nil => exact risingFrom_mono _ hy hlo
  | cons c xs ih =>
    obtain ⟨k, b⟩ := c
    simp only [risingFrom, Bool.and_eq_true, decide_eq_true_eq, List.cons_append] at hx ⊢
    have hk : k < mid := hb (k, b) List.mem_cons_self
    exact ⟨hx.1, ih hx.2 (fun c hc => hb c (List.mem_cons_of_mem _ hc)) (by omega)⟩

theorem risingFrom_of_ge {mid lo : Nat} (cells : List Host.Cell) (h : risingFrom lo cells = true)
    (hb : ∀ c ∈ cells, mid ≤ c.1) : risingFrom mid cells = true := by
  cases cells with
  | nil => rfl
  | cons c cells =>
    obtain ⟨k, b⟩ := c
    simp only [risingFrom, Bool.and_eq_true, decide_eq_true_eq] at h ⊢
    exact ⟨hb (k, b) List.mem_cons_self, h.2⟩

theorem risingFrom_cellsFrom (a : Nat) (bs : List Byte) : risingFrom a (cellsFrom a bs) = true := by
  induction bs generalizing a with
  | nil => rfl
  | cons b bs ih => simp [cellsFrom, risingFrom, ih]

theorem mem_cellsFrom {a : Nat} {bs : List Byte} {c : Host.Cell} (h : c ∈ cellsFrom a bs) :
    a ≤ c.1 ∧ c.1 < a + bs.length := by
  induction bs generalizing a with
  | nil => simp [cellsFrom] at h
  | cons b bs ih =>
    rw [cellsFrom, List.mem_cons] at h
    rcases h with rfl | h
    · simp
    · have := ih h; simp only [List.length_cons]; omega

/-- Every write keeps the canonical form, if it stays in the working memories. -/
theorem writeBlock_wf (m : Memory) (a : Nat) (bs : List Byte) (h : m.wf = true)
    (hr : ∀ k < bs.length, isRam (a + k) = true) : (m.writeBlock a bs).wf = true := by
  simp only [Memory.wf, Bool.and_eq_true, List.all_eq_true] at h ⊢
  obtain ⟨hrise, hram⟩ := h
  constructor
  · refine risingFrom_append (mid := a) _ _ (risingFrom_filter _ _ hrise) ?_ (by omega) ?_
    · intro c hc; simpa using (List.mem_filter.mp hc).2
    · refine risingFrom_append (mid := a + bs.length) _ _ (risingFrom_cellsFrom a bs)
        (fun c hc => (mem_cellsFrom hc).2) (by omega) ?_
      refine risingFrom_of_ge (lo := 0) _ (risingFrom_filter _ _ hrise) ?_
      intro c hc; simpa using (List.mem_filter.mp hc).2
  · intro c hc
    simp only [Memory.writeBlock, List.mem_append] at hc
    rcases hc with hc | hc | hc
    · exact hram c (List.mem_filter.mp hc).1
    · have hb := mem_cellsFrom hc
      have := hr (c.1 - a) (by omega)
      rwa [show a + (c.1 - a) = c.1 by omega] at this
    · exact hram c (List.mem_filter.mp hc).1

/-- A scramble of ranges of the working memories keeps the canonical form. -/
theorem scramble_wf (m : Memory) (n : Nat) (ranges : List (Nat × Nat)) (h : m.wf = true)
    (hr : ∀ r ∈ ranges, ∀ k < r.2, isRam (r.1 + k) = true) : (m.scramble n ranges).wf = true := by
  induction ranges generalizing m with
  | nil => exact h
  | cons r ranges ih =>
    obtain ⟨a, len⟩ := r
    rw [Memory.scramble]
    refine ih _ (writeBlock_wf _ _ _ h ?_) (fun q hq => hr q (List.mem_cons_of_mem _ hq))
    rw [drawnBytes_length]
    exact hr (a, len) List.mem_cons_self

/-- The memory after power-on has the canonical form. -/
theorem reset_mem_wf : State.reset.mem.wf = true := by decide

theorem powerOn_mem_wf (s : State) : s.powerOn.mem.wf = true := by
  simp [State.powerOn, State.setMem, State.setInFlight, State.setResp, State.nextDraw, Memory.wf, risingFrom]

end Sys2Proof.Machine
end

