-- ==== Sys2Proof/Laws/Bits.lean ====
section
/-! SUPPORT. Byte order and bit order: what the packing and unpacking functions give, element by element and
bit by bit. -/

namespace Sys2Proof

/-! ## Little-endian bytes -/

@[simp] theorem leBytes_length (n v : Nat) : (leBytes n v).length = n := by
  induction n generalizing v with
  | zero => rfl
  | succ n ih => simp [leBytes, ih]

/-- Assembling the bytes of a number gives it back. -/
theorem leNat_leBytes (n v : Nat) : leNat (leBytes n v) = v % 256 ^ n := by
  induction n generalizing v with
  | zero => simp [leBytes, leNat, Nat.mod_one]
  | succ n ih =>
    rw [leBytes, leNat, ih, BitVec.toNat_ofNat, show (256 : Nat) ^ (n + 1) = 256 * 256 ^ n from Nat.pow_succ',
      Nat.mod_mul]

theorem leBytes_zero_getD (n j : Nat) : (leBytes n 0).getD j 0 = 0 := by
  induction n generalizing j with
  | zero => simp [leBytes]
  | succ n ih => cases j with
    | zero => simp [leBytes]
    | succ j => simpa [leBytes] using ih j

@[simp] theorem bytesOf64_length (us : List Word64) : (bytesOf64 us).length = 8 * us.length := by
  induction us with
  | nil => rfl
  | cons u us ih => simp only [bytesOf64, List.flatMap_cons, List.length_append, List.length_cons] at ih ⊢; simp [ih]; omega

@[simp] theorem bytesOf32_length (us : List Word) : (bytesOf32 us).length = 4 * us.length := by
  induction us with
  | nil => rfl
  | cons u us ih => simp only [bytesOf32, List.flatMap_cons, List.length_append, List.length_cons] at ih ⊢; simp [ih]; omega

theorem getD_append_left' {α : Type} (xs ys : List α) (i : Nat) (d : α) (h : i < xs.length) :
    (xs ++ ys).getD i d = xs.getD i d := by
  simp [List.getD_eq_getElem?_getD, List.getElem?_append_left h]

theorem getD_append_right' {α : Type} (xs ys : List α) (i : Nat) (d : α) (h : xs.length ≤ i) :
    (xs ++ ys).getD i d = ys.getD (i - xs.length) d := by
  simp [List.getD_eq_getElem?_getD, List.getElem?_append_right h]

/-- Byte `j` of element `i`. -/
theorem bytesOf64_getD (us : List Word64) (i j : Nat) (hj : j < 8) :
    (bytesOf64 us).getD (8 * i + j) 0 = (leBytes 8 (us.getD i 0).toNat).getD j 0 := by
  induction us generalizing i with
  | nil => exact (leBytes_zero_getD 8 j).symm
  | cons u us ih =>
    rw [bytesOf64, List.flatMap_cons]
    cases i with
    | zero => rw [getD_append_left' _ _ _ _ (by simp; omega)]; simp
    | succ i =>
      rw [getD_append_right' _ _ _ _ (by simp; omega), leBytes_length,
        show 8 * (i + 1) + j - 8 = 8 * i + j by omega]
      simpa [bytesOf64] using ih i

/-- Byte `j` of element `i`. -/
theorem bytesOf32_getD (us : List Word) (i j : Nat) (hj : j < 4) :
    (bytesOf32 us).getD (4 * i + j) 0 = (leBytes 4 (us.getD i 0).toNat).getD j 0 := by
  induction us generalizing i with
  | nil => exact (leBytes_zero_getD 4 j).symm
  | cons u us ih =>
    rw [bytesOf32, List.flatMap_cons]
    cases i with
    | zero => rw [getD_append_left' _ _ _ _ (by simp; omega)]; simp
    | succ i =>
      rw [getD_append_right' _ _ _ _ (by simp; omega), leBytes_length,
        show 4 * (i + 1) + j - 4 = 4 * i + j by omega]
      simpa [bytesOf32] using ih i

/-! ## Bulk reads, element by element -/

@[simp] theorem pieces_length (k n : Nat) (xs : List α) : (pieces k n xs).length = n := by
  induction n generalizing xs with
  | zero => rfl
  | succ n ih => simp [pieces, ih]

theorem pieces_getElem? (k n : Nat) (xs : List α) (i : Nat) (h : i < n) :
    (pieces k n xs)[i]? = some ((xs.drop (k * i)).take k) := by
  induction n generalizing xs i with
  | zero => omega
  | succ n ih =>
    cases i with
    | zero => simp [pieces]
    | succ i =>
      rw [pieces, List.getElem?_cons_succ, ih _ _ (by omega), List.drop_drop, Nat.mul_succ, Nat.add_comm]

@[simp] theorem words64_length (n : Nat) (bs : List Byte) : (words64 n bs).length = n := by simp [words64]

@[simp] theorem words32_length (n : Nat) (bs : List Byte) : (words32 n bs).length = n := by simp [words32]

theorem words64_getD (n : Nat) (bs : List Byte) (i : Nat) (h : i < n) :
    (words64 n bs).getD i 0 = BitVec.ofNat 64 (leNat ((bs.drop (8 * i)).take 8)) := by
  simp [words64, List.getD_eq_getElem?_getD, pieces_getElem? 8 n bs i h]

theorem words32_getD (n : Nat) (bs : List Byte) (i : Nat) (h : i < n) :
    (words32 n bs).getD i 0 = BitVec.ofNat 32 (leNat ((bs.drop (4 * i)).take 4)) := by
  simp [words32, List.getD_eq_getElem?_getD, pieces_getElem? 4 n bs i h]

/-! ## The bit stream -/

@[simp] theorem bitsOf_length (n v : Nat) : (bitsOf n v).length = n := by
  induction n with
  | zero => rfl
  | succ n ih => simp [bitsOf, ih]

/-- Bit `k` of a field, the most significant one first. -/
theorem bitsOf_getD (n v k : Nat) (h : k < n) : (bitsOf n v).getD k false = v.testBit (n - 1 - k) := by
  induction n generalizing k with
  | zero => omega
  | succ n ih =>
    cases k with
    | zero => simp [bitsOf]
    | succ k =>
      rw [bitsOf, List.getD_cons_succ, ih k (by omega)]
      congr 1; omega

theorem natOf_append_singleton (bs : List Bool) (b : Bool) : natOf (bs ++ [b]) = 2 * natOf bs + b.toNat := by
  simp [natOf, List.foldl_append]

/-- Bit `k` of the integer of a field, counted from the least significant one. -/
theorem natOf_testBit (bs : List Bool) (k : Nat) :
    (natOf bs).testBit k = if k < bs.length then bs.getD (bs.length - 1 - k) false else false := by
  induction bs using List.reverseRecOn generalizing k with
  | nil => simp [natOf]
  | append_singleton bs b ih =>
    rw [natOf_append_singleton]
    cases k with
    | zero =>
      have h : (bs ++ [b]).getD bs.length false = b := by simp [List.getD_eq_getElem?_getD]
      simp only [List.length_append, List.length_singleton, Nat.succ_sub_one, Nat.sub_zero,
        Nat.zero_lt_succ, if_true, h, Nat.testBit_zero]
      cases b <;> simp
    | succ k =>
      have hdiv : (2 * natOf bs + b.toNat) / 2 = natOf bs := by cases b <;> simp; omega
      rw [Nat.testBit_succ, hdiv, ih]
      by_cases hk : k < bs.length
      · rw [if_pos hk, if_pos (by simp; omega), getD_append_left' _ _ _ _ (by simp; omega)]
        congr 1; simp; omega
      · rw [if_neg hk, if_neg (by simp; omega)]

theorem natOf_lt (bs : List Bool) : natOf bs < 2 ^ bs.length := by
  induction bs using List.reverseRecOn with
  | nil => simp [natOf]
  | append_singleton bs b ih =>
    rw [natOf_append_singleton, List.length_append, List.length_singleton, Nat.pow_succ]
    cases b <;> simp <;> omega

/-- Reading back the bits of a number gives its low bits. -/
theorem natOf_bitsOf (n v : Nat) : natOf (bitsOf n v) = v % 2 ^ n := by
  apply Nat.eq_of_testBit_eq
  intro k
  rw [natOf_testBit, bitsOf_length, Nat.testBit_mod_two_pow]
  by_cases h : k < n
  · rw [if_pos h, bitsOf_getD _ _ _ (by omega), show n - 1 - (n - 1 - k) = k by omega]; simp [h]
  · simp [h]

@[simp] theorem packBytes_length (n : Nat) (bs : List Bool) : (packBytes n bs).length = n := by
  induction n generalizing bs with
  | zero => rfl
  | succ n ih => simp [packBytes, ih]

/-- Bit `q` of packed bytes, in stream order: the stream's bit, 0 after its end. -/
theorem packBytes_bit (n : Nat) (bs : List Bool) (q : Nat) (h : q < 8 * n) :
    ((packBytes n bs).getD (q / 8) 0).getLsbD (7 - q % 8) = bs.getD q false := by
  induction n generalizing bs q with
  | zero => omega
  | succ n ih =>
    by_cases hq : q < 8
    · have h0 : q / 8 = 0 := by omega
      have h1 : q % 8 = q := by omega
      rw [packBytes, h0, h1, List.getD_cons_zero, BitVec.getLsbD_ofNat, natOf_testBit]
      have hlen : (bs.take 8 ++ List.replicate (8 - bs.length) false).length = 8 := by simp; omega
      rw [hlen, show 8 - 1 - (7 - q) = q by omega]
      simp only [show 7 - q < 8 by omega, decide_true, if_true, Bool.true_and]
      by_cases hb : q < bs.length
      · rw [getD_append_left' _ _ _ _ (by simp; omega)]
        simp [List.getD_eq_getElem?_getD, hq]
      · rw [getD_append_right' _ _ _ _ (by simp; omega)]
        simp only [List.getD_eq_getElem?_getD, List.getElem?_eq_none (Nat.le_of_not_lt hb), List.getElem?_replicate]
        split <;> rfl
    · have h0 : q / 8 = (q - 8) / 8 + 1 := by omega
      have h1 : q % 8 = (q - 8) % 8 := by omega
      rw [packBytes, h0, h1, List.getD_cons_succ, ih (bs.drop 8) (q - 8) (by omega)]
      simp [List.getD_eq_getElem?_getD, show 8 + (q - 8) = q by omega]

@[simp] theorem bitsOfByte_length (b : Byte) : (bitsOfByte b).length = 8 := by simp [bitsOfByte]

theorem flatMap_bitsOfByte_length (bs : List Byte) : (bs.flatMap bitsOfByte).length = 8 * bs.length := by
  induction bs with
  | nil => rfl
  | cons b bs ih => simp only [List.flatMap_cons, List.length_append, List.length_cons, bitsOfByte_length, ih]; omega

/-- Bit `q` of a run of bytes, in stream order. -/
theorem flatMap_bitsOfByte_getD (bs : List Byte) (q : Nat) (h : q < 8 * bs.length) :
    (bs.flatMap bitsOfByte).getD q false = (bs.getD (q / 8) 0).getLsbD (7 - q % 8) := by
  induction bs generalizing q with
  | nil => simp at h
  | cons b bs ih =>
    rw [List.flatMap_cons]
    by_cases hq : q < 8
    · rw [getD_append_left' _ _ _ _ (by simpa using hq), show q / 8 = 0 by omega, List.getD_cons_zero,
        show q % 8 = q by omega, bitsOfByte, bitsOf_getD _ _ _ hq]
      rfl
    · rw [getD_append_right' _ _ _ _ (by simp; omega), bitsOfByte_length,
        ih (q - 8) (by simp only [List.length_cons] at h; omega), show q / 8 = (q - 8) / 8 + 1 by omega,
        List.getD_cons_succ, show q % 8 = (q - 8) % 8 by omega]

/-- What a field read gives, bit by bit: the stream's bits, and 0 past its end. -/
theorem readField_testBit (stream : List Bool) (pos n k : Nat) (h : k < n) :
    (readField stream pos n).1.testBit k = stream.getD (pos + (n - 1 - k)) false := by
  unfold readField
  simp only [natOf_testBit, List.length_append, List.length_replicate, List.length_take, List.length_drop]
  by_cases hk : pos + (n - 1 - k) < stream.length
  · rw [if_pos (by omega), getD_append_left' _ _ _ _ (by simp; omega)]
    simp only [List.getD_eq_getElem?_getD, List.getElem?_take, List.getElem?_drop]
    rw [if_pos (by omega)]
    congr 2; omega
  · rw [if_pos (by omega), getD_append_right' _ _ _ _ (by simp; omega)]
    simp only [List.getD_eq_getElem?_getD, List.getElem?_replicate, List.getElem?_eq_none (Nat.le_of_not_lt hk)]
    split <;> rfl

theorem readField_lt (stream : List Bool) (pos n : Nat) : (readField stream pos n).1 < 2 ^ n := by
  unfold readField
  refine lt_of_lt_of_eq (natOf_lt _) ?_
  congr 1; simp

/-- A field read reports a missing bit exactly when the field reaches past the stream's end. -/
theorem readField_missing (stream : List Bool) (pos n : Nat) :
    (readField stream pos n).2 = decide (0 < n ∧ stream.length < pos + n) := by
  unfold readField
  simp only [List.length_take, List.length_drop, decide_eq_decide]
  omega

namespace Machine

/-! ## Elements of the memories -/

theorem bytes_eq_of_getD (m : Memory) (a n : Nat) (bs : List Byte) (hl : bs.length = n)
    (h : ∀ k < n, m.byte (a + k) = bs.getD k 0) : m.bytes a n = bs := by
  apply List.ext_getElem?
  intro k
  by_cases hk : k < n
  · simp [Memory.bytes, hk, h k hk, List.getD_eq_getElem?_getD, List.getElem?_eq_getElem (hl ▸ hk : k < bs.length)]
  · rw [List.getElem?_eq_none (by simpa using Nat.le_of_not_lt hk), List.getElem?_eq_none (by omega)]

theorem bytes_drop_take (m : Memory) (a n i k : Nat) (h : i + k ≤ n) :
    ((m.bytes a n).drop i).take k = m.bytes (a + i) k := by
  apply List.ext_getElem?
  intro j
  by_cases hj : j < k
  · simp [Memory.bytes, hj, show i + j < n by omega, Nat.add_assoc]
  · rw [List.getElem?_eq_none (by simp; omega), List.getElem?_eq_none (by simp; omega)]

theorem re_getD (m : Memory) (i : Nat) (h : i < 1024) : m.re.getD i 0 = m.reAt i := by
  rw [Memory.re, words64_getD _ _ _ h, block_eq_bytes, bytes_drop_take _ _ _ _ _ (by omega), Memory.reAt]

theorem im_getD (m : Memory) (i : Nat) (h : i < 1024) : m.im.getD i 0 = m.imAt i := by
  rw [Memory.im, words64_getD _ _ _ h, block_eq_bytes, bytes_drop_take _ _ _ _ _ (by omega), Memory.imAt]

theorem pcmIn_getD (m : Memory) (i : Nat) (h : i < 1024) : m.pcmIn.getD i 0 = m.pcmInAt i := by
  rw [Memory.pcmIn, words32_getD _ _ _ h, block_eq_bytes, bytes_drop_take _ _ _ _ _ (by omega), Memory.pcmInAt]

@[simp] theorem re_length (m : Memory) : m.re.length = 1024 := by simp [Memory.re]

@[simp] theorem im_length (m : Memory) : m.im.length = 1024 := by simp [Memory.im]

@[simp] theorem pcmIn_length (m : Memory) : m.pcmIn.length = 1024 := by simp [Memory.pcmIn]

@[simp] theorem fbuf_length (m : Memory) : m.fbuf.length = 4096 := by simp [Memory.fbuf]

/-- 64-bit elements written as one block read back. -/
theorem elem64_writeBlock (m : Memory) (base i : Nat) (us : List Word64) (k : Nat) :
    BitVec.ofNat 64 (leNat ((m.writeBlock (base + 8 * i) (bytesOf64 us)).bytes (base + 8 * k) 8)) =
      if i ≤ k ∧ k < i + us.length then us.getD (k - i) 0
      else BitVec.ofNat 64 (leNat (m.bytes (base + 8 * k) 8)) := by
  split
  · rename_i h
    rw [bytes_eq_of_getD _ _ 8 (leBytes 8 (us.getD (k - i) 0).toNat) (by simp)]
    · rw [leNat_leBytes]
      apply BitVec.eq_of_toNat_eq
      rw [BitVec.toNat_ofNat]
      have := (us.getD (k - i) 0).isLt
      omega
    · intro j hj
      rw [← bytesOf64_getD _ _ _ hj, byte_writeBlock, if_pos (by rw [bytesOf64_length]; omega)]
      congr 1; omega
  · rename_i h
    congr 2
    apply bytes_eq_of_getD _ _ _ _ (by simp)
    intro j hj
    rw [byte_writeBlock_outside _ _ _ _ (by rw [bytesOf64_length]; omega)]
    simp [Memory.bytes, List.getD_eq_getElem?_getD, hj]

/-- 32-bit elements written as one block read back. -/
theorem elem32_writeBlock (m : Memory) (base i : Nat) (us : List Word) (k : Nat) :
    BitVec.ofNat 32 (leNat ((m.writeBlock (base + 4 * i) (bytesOf32 us)).bytes (base + 4 * k) 4)) =
      if i ≤ k ∧ k < i + us.length then us.getD (k - i) 0
      else BitVec.ofNat 32 (leNat (m.bytes (base + 4 * k) 4)) := by
  split
  · rename_i h
    rw [bytes_eq_of_getD _ _ 4 (leBytes 4 (us.getD (k - i) 0).toNat) (by simp)]
    · rw [leNat_leBytes]
      apply BitVec.eq_of_toNat_eq
      rw [BitVec.toNat_ofNat]
      have := (us.getD (k - i) 0).isLt
      omega
    · intro j hj
      rw [← bytesOf32_getD _ _ _ hj, byte_writeBlock, if_pos (by rw [bytesOf32_length]; omega)]
      congr 1; omega
  · rename_i h
    congr 2
    apply bytes_eq_of_getD _ _ _ _ (by simp)
    intro j hj
    rw [byte_writeBlock_outside _ _ _ _ (by rw [bytesOf32_length]; omega)]
    simp [Memory.bytes, List.getD_eq_getElem?_getD, hj]

/-- Bytes that a write leaves alone, as a run. -/
theorem bytes_writeBlock_outside (m : Memory) (a : Nat) (bs : List Byte) (x n : Nat)
    (h : x + n ≤ a ∨ a + bs.length ≤ x) : (m.writeBlock a bs).bytes x n = m.bytes x n := by
  apply bytes_eq_of_getD _ _ _ _ (by simp)
  intro j hj
  rw [byte_writeBlock_outside _ _ _ _ (by omega)]
  simp [Memory.bytes, List.getD_eq_getElem?_getD, hj]

/-- RE after a write of the spectrum buffers from element `i` on. -/
theorem reAt_writeSpectrum (m : Memory) (i : Nat) (re im : List Word64) (k : Nat) (hk : k < 1024) :
    (m.writeSpectrum i re im).reAt k =
      if i ≤ k ∧ k < i + re.length then re.getD (k - i) 0 else m.reAt k := by
  unfold Memory.writeSpectrum Memory.reAt
  rw [bytes_writeBlock_outside _ _ _ _ _ (by simp only [imBase, reBase]; omega), elem64_writeBlock]

/-- IM after a write of the spectrum buffers from element `i` on. -/
theorem imAt_writeSpectrum (m : Memory) (i : Nat) (re im : List Word64) (k : Nat)
    (h : i + re.length ≤ 1024) :
    (m.writeSpectrum i re im).imAt k =
      if i ≤ k ∧ k < i + im.length then im.getD (k - i) 0 else m.imAt k := by
  unfold Memory.writeSpectrum Memory.imAt
  rw [elem64_writeBlock]
  split
  · rfl
  · congr 2
    exact bytes_writeBlock_outside _ _ _ _ _ (by rw [bytesOf64_length]; simp only [imBase, reBase]; omega)

/-- Every byte outside RE and IM is kept by a write of the spectrum buffers. -/
theorem byte_writeSpectrum_outside (m : Memory) (i : Nat) (re im : List Word64) (x : Nat)
    (hr : i + re.length ≤ 1024) (hi : i + im.length ≤ 1024) (h : x < reBase ∨ reBase + 16384 ≤ x) :
    (m.writeSpectrum i re im).byte x = m.byte x := by
  unfold Memory.writeSpectrum
  rw [byte_writeBlock_outside _ _ _ _ (by rw [bytesOf64_length]; simp only [imBase, reBase] at *; omega),
    byte_writeBlock_outside _ _ _ _ (by rw [bytesOf64_length]; simp only [reBase] at *; omega)]

/-- PCM_OUT after it is replaced. -/
theorem pcmOutAt_writePcmOut (m : Memory) (us : List Word) (k : Nat) :
    (m.writePcmOut us).pcmOutAt k = if k < us.length then us.getD k 0 else m.pcmOutAt k := by
  have := elem32_writeBlock m pcmOutBase 0 us k
  simpa [Memory.writePcmOut, Memory.pcmOutAt] using this

theorem byte_writePcmOut_outside (m : Memory) (us : List Word) (x : Nat) (hl : us.length ≤ 1024)
    (h : x < pcmOutBase ∨ pcmOutBase + 4096 ≤ x) : (m.writePcmOut us).byte x = m.byte x := by
  unfold Memory.writePcmOut
  exact byte_writeBlock_outside _ _ _ _ (by rw [bytesOf32_length]; omega)

theorem byte_writeFbuf (m : Memory) (a : Nat) (bs : List Byte) (x : Nat) :
    (m.writeFbuf a bs).byte x =
      if fbufBase + a ≤ x ∧ x < fbufBase + a + bs.length then bs.getD (x - (fbufBase + a)) 0 else m.byte x :=
  byte_writeBlock m (fbufBase + a) bs x

@[simp] theorem validBits_length (m : Memory) (flen : Nat) : (validBits m flen).length = min (8 * flen) 32768 := by
  rw [validBits, List.length_take, flatMap_bitsOfByte_length, fbuf_length]

/-- A valid bit is the bit of FBUF at that position. -/
theorem validBits_getD (m : Memory) (flen q : Nat) (hf : flen ≤ 4096) :
    (validBits m flen).getD q false = (decide (q < 8 * flen) && m.fbufBit q) := by
  by_cases h : q < 8 * flen
  · have h2 : q < 8 * m.fbuf.length := by rw [fbuf_length]; omega
    have h3 := flatMap_bitsOfByte_getD m.fbuf q h2
    rw [fbuf_getD _ _ (by omega)] at h3
    simp only [validBits, List.getD_eq_getElem?_getD, List.getElem?_take, h, if_true, decide_true, Bool.true_and,
      Memory.fbufBit] at h3 ⊢
    exact h3
  · simp only [validBits, List.getD_eq_getElem?_getD, List.getElem?_take, h, if_false, decide_false, Bool.false_and,
      Option.getD_none]

end Machine

end Sys2Proof
end

