-- ==== Sys2Proof/Laws/Fft.lean ====
section
/-! SUPPORT. Lengths of what the FFT engine, the frame encoder and the frame decoder produce, the elements of an FFT
stage, and the profile lookups. -/

namespace Sys2Proof.Machine

/-! ## Profiles -/

theorem lookup_le {p : Nat} (h : p ≤ 3) : lookup p = some p := by simp [lookup, h]

theorem lookup_gt {p : Nat} (h : 3 < p) : lookup p = none := by simp [lookup]; omega

theorem lookup_some {p q : Nat} (h : lookup p = some q) : q = p ∧ p ≤ 3 := by
  unfold lookup at h; split at h
  · simp_all
  · simp at h

theorem lookupDec_le (p : Nat) : (lookupDec p).1 ≤ 3 := by
  unfold lookupDec; split <;> simp [*]

theorem binCount_le (p : Nat) : binCount p ≤ 512 := by
  unfold binCount; split <;> omega

theorem binCount_pos {p : Nat} (h : p ≤ 3) : 160 ≤ binCount p := by
  interval_cases p <;> decide

/-- The totals of R207, computed from the weight table. -/
theorem totalBits_eq {p : Nat} (h : p ≤ 3) : totalBits p = [2404, 4452, 7568, 16384].getD p 0 := by
  interval_cases p <;> decide +kernel

theorem payloadBytes_eq {p : Nat} (h : p ≤ 3) : payloadBytes p = [301, 557, 946, 2048].getD p 0 := by
  rw [payloadBytes, totalBits_eq h]; interval_cases p <;> rfl

theorem frameBytes_eq {p : Nat} (h : p ≤ 3) : frameBytes p = [313, 569, 958, 2060].getD p 0 := by
  rw [frameBytes, payloadBytes_eq h]; interval_cases p <;> rfl

theorem frameBytes_le {p : Nat} (h : p ≤ 3) : frameBytes p ≤ 2060 := by
  rw [frameBytes_eq h]; interval_cases p <;> decide

@[simp] theorem weights_length (p : Nat) : (weights p).length = binCount p := by simp [weights]

/-! ## FFT_CORE -/

@[simp] theorem spectrum_length (m : Memory) : m.spectrum.length = 1024 := by simp [Memory.spectrum]

/-- Element k of the spectrum buffers. -/
theorem spectrum_getD (m : Memory) (k : Nat) (h : k < 1024) :
    m.spectrum.getD k Cpx.zero = { re := Fp.ofBits (m.reAt k), im := Fp.ofBits (m.imAt k) } := by
  have hr := re_getD m k h
  have hi := im_getD m k h
  have lr : k < m.re.length := by simpa using h
  have li : k < m.im.length := by simpa using h
  simp only [List.getD_eq_getElem?_getD, List.getElem?_eq_getElem lr, List.getElem?_eq_getElem li,
    Option.getD_some] at hr hi
  simp [Memory.spectrum, List.getD_eq_getElem?_getD, List.getElem?_zipWith, List.getElem?_eq_getElem lr,
    List.getElem?_eq_getElem li, hr, hi]

@[simp] theorem bitReverse_length (xs : List Cpx) : (bitReverse xs).length = 1024 := by
  simp [bitReverse, Config.fftSize]

@[simp] theorem twiddles_length (st : Cpx) (n : Nat) (w : Cpx) : (twiddles st n w).length = n := by
  induction n generalizing w with
  | zero => rfl
  | succ n ih => simp [twiddles, ih]

theorem groupButterflies_length (t : Tag) (j : Nat) (ws us xs : List Cpx) :
    (groupButterflies t j ws us xs).length = min ws.length (min us.length xs.length) := by
  induction ws generalizing j us xs with
  | nil => simp [groupButterflies]
  | cons w ws ih =>
    cases us with
    | nil => simp [groupButterflies]
    | cons u us =>
      cases xs with
      | nil => simp [groupButterflies]
      | cons x xs => simp [groupButterflies, ih]

theorem group_length (t : Tag) (ws : List Cpx) (half : Nat) (xs : List Cpx) (hw : ws.length = half)
    (hx : xs.length = 2 * half) : (group t ws half xs).length = 2 * half := by
  simp [group, groupButterflies_length, hw, hx]; omega

theorem groups_length (t : Tag) (ws : List Cpx) (half n : Nat) (xs : List Cpx) (hw : ws.length = half)
    (hx : xs.length = 2 * half * n) : (groups t ws half n xs).length = 2 * half * n := by
  induction n generalizing xs with
  | zero => simp [groups]
  | succ n ih =>
    have hx' : xs.length = 2 * half * n + 2 * half := by rw [hx, Nat.mul_succ]
    rw [groups, List.length_append, group_length _ _ _ _ hw (by rw [List.length_take]; omega),
      ih _ (by rw [List.length_drop]; omega), Nat.mul_succ]; omega

theorem stage_length (t : Tag) (inv : Bool) (s : Nat) (xs : List Cpx) (h1 : 1 ≤ s) (h2 : s ≤ 10)
    (hx : xs.length = 1024) : (stage t inv s xs).length = 1024 := by
  have hp : 2 * 2 ^ (s - 1) * 2 ^ (Config.log2N - s) = 1024 := by
    interval_cases s <;> decide
  rw [stage, groups_length _ _ _ _ _ (by simp [stageTwiddles]) (by rw [hx, hp]), hp]

theorem stages_length (t : Tag) (inv : Bool) (s n : Nat) (xs : List Cpx) (h1 : 1 ≤ s) (h2 : s + n ≤ 11)
    (hx : xs.length = 1024) : (stages t inv s n xs).length = 1024 := by
  induction n generalizing s xs with
  | zero => simpa [stages] using hx
  | succ n ih => exact ih (s + 1) _ (by omega) (by omega) (stage_length _ _ _ _ h1 (by omega) hx)

@[simp] theorem fftCore_length (t : Tag) (inv : Bool) (xs : List Cpx) : (fftCore t inv xs).length = 1024 := by
  have h := stages_length (0 :: t) inv 1 10 (bitReverse xs) (by omega) (by omega) (by simp)
  unfold fftCore
  cases inv <;> simpa [Config.log2N] using h

/-! ## Elements of a stage -/

/-- Butterfly `k` of a group takes the elements and the twiddle of its place. -/
theorem groupButterflies_getElem? (t : Tag) (j k : Nat) (ws us xs : List Cpx) (w u x : Cpx) (hw : ws[k]? = some w)
    (hu : us[k]? = some u) (hx : xs[k]? = some x) :
    (groupButterflies t j ws us xs)[k]? = some (butterfly ((j + k) :: t) u x w) := by
  induction ws generalizing j k us xs with
  | nil => simp at hw
  | cons w' ws ih =>
    cases us with
    | nil => simp at hu
    | cons u' us =>
      cases xs with
      | nil => simp at hx
      | cons x' xs =>
        cases k with
        | zero => simp at hw hu hx; subst hw hu hx; simp [groupButterflies]
        | succ k =>
          simp only [List.getElem?_cons_succ] at hw hu hx
          simp only [groupButterflies, List.getElem?_cons_succ]
          rw [ih (j + 1) k us xs hw hu hx]; congr 2; congr 1; omega

/-- The two results of butterfly `j` of group `g` of a stage (42_fft.md R223). -/
theorem groups_getD (t : Tag) (ws : List Cpx) (half n g j : Nat) (xs : List Cpx) (hw : ws.length = half)
    (hx : xs.length = 2 * half * n) (hg : g < n) (hj : j < half) (z : Cpx) :
    let b := butterfly (j :: (n - 1 - g) :: t) (xs.getD (2 * half * g + j) z) (xs.getD (2 * half * g + j + half) z)
      (ws.getD j z)
    (groups t ws half n xs).getD (2 * half * g + j) z = b.1 ∧
      (groups t ws half n xs).getD (2 * half * g + j + half) z = b.2 := by
  induction n generalizing g xs with
  | zero => omega
  | succ n ih =>
    have hx' : xs.length = 2 * half * n + 2 * half := by rw [hx, Nat.mul_succ]
    have hl : (group (n :: t) ws half (xs.take (2 * half))).length = 2 * half :=
      group_length _ _ _ _ hw (by rw [List.length_take]; omega)
    simp only [groups, List.getD_eq_getElem?_getD]
    cases g with
    | zero =>
      have e : (groupButterflies (n :: t) 0 ws ((xs.take (2 * half)).take half) ((xs.take (2 * half)).drop half))[j]? =
          some (butterfly (j :: n :: t) (xs[j]?.getD z) (xs[j + half]?.getD z) (ws[j]?.getD z)) := by
        have h1 : j < xs.length := by omega
        have h2 : j + half < xs.length := by omega
        have h3 : j < ws.length := by omega
        have := groupButterflies_getElem? (n :: t) 0 j ws ((xs.take (2 * half)).take half)
          ((xs.take (2 * half)).drop half) (ws[j]) (xs[j]) (xs[j + half]) (by simp [h3])
          (by rw [List.getElem?_take_of_lt hj, List.getElem?_take_of_lt (by omega)]; simp [h1])
          (by rw [List.getElem?_drop, List.getElem?_take_of_lt (by omega), Nat.add_comm half j]; simp [h2])
        simpa [h1, h2, h3] using this
      have hb : (groupButterflies (n :: t) 0 ws ((xs.take (2 * half)).take half)
          ((xs.take (2 * half)).drop half)).length = half := by
        rw [groupButterflies_length, List.length_take, List.length_take, List.length_drop, List.length_take]; omega
      simp only [Nat.mul_zero, Nat.zero_add, Nat.add_sub_cancel, Nat.sub_zero]
      rw [List.getElem?_append_left (by omega), List.getElem?_append_left (by omega)]
      constructor
      · rw [group, List.getElem?_append_left (by simp [hb, hj]), List.getElem?_map, e]; simp
      · rw [group, List.getElem?_append_right (by simp [hb]), List.getElem?_map]
        simp only [List.length_map, hb, Nat.add_sub_cancel]; rw [e]; simp
    | succ g =>
      have := ih g (xs.drop (2 * half)) (by rw [List.length_drop]; omega) (by omega)
      simp only [List.getD_eq_getElem?_getD, List.getElem?_drop] at this
      have e1 : 2 * half * (g + 1) + j = 2 * half + (2 * half * g + j) := by rw [Nat.mul_succ]; omega
      have e2 : 2 * half * (g + 1) + j + half = 2 * half + (2 * half * g + j + half) := by rw [Nat.mul_succ]; omega
      have e3 : n + 1 - 1 - (g + 1) = n - 1 - g := by omega
      rw [e1, Nat.add_assoc (2 * half) _ half, e3,
        List.getElem?_append_right (by omega), List.getElem?_append_right (by omega), hl,
        Nat.add_sub_cancel_left, Nat.add_sub_cancel_left]
      exact this

/-- The two results of butterfly `j` of the group at `base` of stage `s` (42_fft.md R223). -/
theorem stage_getD (t : Tag) (inv : Bool) (s g j : Nat) (xs : List Cpx) (h1 : 1 ≤ s) (h2 : s ≤ 10)
    (hx : xs.length = 1024) (hg : g < 2 ^ (10 - s)) (hj : j < 2 ^ (s - 1)) (z : Cpx) :
    let b := butterfly (j :: (2 ^ (10 - s) - 1 - g) :: s :: t) (xs.getD (2 ^ s * g + j) z)
      (xs.getD (2 ^ s * g + j + 2 ^ (s - 1)) z) ((stageTwiddles inv s).getD j z)
    (stage t inv s xs).getD (2 ^ s * g + j) z = b.1 ∧
      (stage t inv s xs).getD (2 ^ s * g + j + 2 ^ (s - 1)) z = b.2 := by
  have h2s : 2 ^ s = 2 * 2 ^ (s - 1) := by rw [← Nat.pow_succ', Nat.succ_eq_add_one, Nat.sub_add_cancel h1]
  have hp : 2 * 2 ^ (s - 1) * 2 ^ (10 - s) = 1024 := by interval_cases s <;> decide
  rw [h2s]
  exact groups_getD (s :: t) (stageTwiddles inv s) (2 ^ (s - 1)) (2 ^ (10 - s)) g j xs (by simp [stageTwiddles])
    (by rw [hx, hp]) hg hj z

/-- Each twiddle is the product of the one before and the step (42_fft.md R223). -/
theorem twiddles_getD_succ (step w z : Cpx) (n j : Nat) (h : j + 1 < n) :
    (twiddles step n w).getD (j + 1) z = Cpx.mul [n - 1 - j] ((twiddles step n w).getD j z) step := by
  induction n generalizing w j with
  | zero => omega
  | succ n ih =>
    cases j with
    | zero =>
      cases n with
      | zero => omega
      | succ n => simp [twiddles]
    | succ j =>
      have := ih (Cpx.mul [n] w step) j (by omega)
      simp only [twiddles, List.getD_cons_succ]
      rw [this]; congr 2; omega

/-! ## Frames -/

@[simp] theorem encSpectrum_length (t : Tag) (pcm : List Word) : (encSpectrum t pcm).length = 1024 := by
  simp [encSpectrum]

@[simp] theorem decSpectrum_length (t : Tag) (bins : List Cpx) : (decSpectrum t bins).length = 1024 := by
  simp [decSpectrum]

@[simp] theorem decPcm_length (t : Tag) (xs : List Cpx) : (decPcm t xs).length = xs.length := by simp [decPcm]

@[simp] theorem decBins_length (t : Tag) (sc : Fp) (i : Nat) (ws : List Nat) (stream : List Bool) :
    (decBins t sc i ws stream).1.length = ws.length := by
  induction ws generalizing i stream with
  | nil => rfl
  | cons b ws ih => simp [decBins, ih]

@[simp] theorem encHeader_length (t : Tag) (p : Nat) (m : Fp) (seq : Word) :
    (encHeader t p m seq).length = 12 := by simp [encHeader]

@[simp] theorem encFrame_length {p : Nat} (h : p ≤ 3) (t : Tag) (seq : Word) (xs : List Cpx) :
    (encFrame t p seq xs).length = 4096 := by
  have := frameBytes_le h
  simp only [encFrame, List.length_append, encHeader_length, packBytes_length, List.length_replicate, frameBytes,
    Config.headerSize, Config.fbufBytes] at this ⊢
  omega

theorem hermitian_length {α : Type} (f : α → α) (z : α) (xs : List α) (h1 : 1 ≤ xs.length)
    (h2 : xs.length ≤ 512) : (hermitian f z xs).length = 1024 := by
  simp [hermitian, Config.fftSize]; omega

@[simp] theorem orField_length (m : Memory) (pos n v : Nat) : (orField m pos n v).length = (fieldBytes pos n).2 := by
  simp [orField]

/-- Every byte outside RE and IM is kept when 1024 complex values replace them. -/
theorem byte_writeCpx_outside (m : Memory) (xs : List Cpx) (x : Nat) (hl : xs.length = 1024)
    (h : x < reBase ∨ reBase + 16384 ≤ x) : (m.writeCpx xs).byte x = m.byte x :=
  byte_writeSpectrum_outside m 0 _ _ x (by simp [hl]) (by simp [hl]) h

theorem reAt_writeCpx (m : Memory) (xs : List Cpx) (hl : xs.length = 1024) (k : Nat) (hk : k < 1024) :
    (m.writeCpx xs).reAt k = (xs.getD k Cpx.zero).re.toBits := by
  have : k < xs.length := by omega
  rw [Memory.writeCpx, reAt_writeSpectrum _ _ _ _ _ hk, if_pos (by simp [hl, hk])]
  simp [List.getD_eq_getElem?_getD, List.getElem?_eq_getElem this]

theorem imAt_writeCpx (m : Memory) (xs : List Cpx) (hl : xs.length = 1024) (k : Nat) (hk : k < 1024) :
    (m.writeCpx xs).imAt k = (xs.getD k Cpx.zero).im.toBits := by
  have : k < xs.length := by omega
  rw [Memory.writeCpx, imAt_writeSpectrum _ _ _ _ _ (by simp [hl]), if_pos (by simp [hl, hk])]
  simp [List.getD_eq_getElem?_getD, List.getElem?_eq_getElem this]

end Sys2Proof.Machine
end

