-- ==== Sys2Proof/Laws/State.lean ====
section
/-! SUPPORT. One lemma for each field of State under each update and each lifecycle operation, so that no
later proof unfolds a record update. -/

namespace Sys2Proof.Machine

@[simp] theorem setRegs_regs (s : State) (r : Regs) : (s.setRegs r).regs = r := rfl
@[simp] theorem setRegs_mem (s : State) (r : Regs) : (s.setRegs r).mem = s.mem := rfl
@[simp] theorem setRegs_inFlight (s : State) (r : Regs) : (s.setRegs r).inFlight = s.inFlight := rfl
@[simp] theorem setRegs_inbox (s : State) (r : Regs) : (s.setRegs r).inbox = s.inbox := rfl
@[simp] theorem setRegs_resp (s : State) (r : Regs) : (s.setRegs r).resp = s.resp := rfl
@[simp] theorem setRegs_draws (s : State) (r : Regs) : (s.setRegs r).draws = s.draws := rfl

@[simp] theorem setMem_regs (s : State) (m : Memory) : (s.setMem m).regs = s.regs := rfl
@[simp] theorem setMem_mem (s : State) (m : Memory) : (s.setMem m).mem = m := rfl
@[simp] theorem setMem_inFlight (s : State) (m : Memory) : (s.setMem m).inFlight = s.inFlight := rfl
@[simp] theorem setMem_inbox (s : State) (m : Memory) : (s.setMem m).inbox = s.inbox := rfl
@[simp] theorem setMem_resp (s : State) (m : Memory) : (s.setMem m).resp = s.resp := rfl
@[simp] theorem setMem_draws (s : State) (m : Memory) : (s.setMem m).draws = s.draws := rfl

@[simp] theorem setInFlight_regs (s : State) (f : Option InFlight) : (s.setInFlight f).regs = s.regs := rfl
@[simp] theorem setInFlight_mem (s : State) (f : Option InFlight) : (s.setInFlight f).mem = s.mem := rfl
@[simp] theorem setInFlight_inFlight (s : State) (f : Option InFlight) : (s.setInFlight f).inFlight = f := rfl
@[simp] theorem setInFlight_inbox (s : State) (f : Option InFlight) : (s.setInFlight f).inbox = s.inbox := rfl
@[simp] theorem setInFlight_resp (s : State) (f : Option InFlight) : (s.setInFlight f).resp = s.resp := rfl
@[simp] theorem setInFlight_draws (s : State) (f : Option InFlight) : (s.setInFlight f).draws = s.draws := rfl

@[simp] theorem setInbox_regs (s : State) (l : List Event) : (s.setInbox l).regs = s.regs := rfl
@[simp] theorem setInbox_mem (s : State) (l : List Event) : (s.setInbox l).mem = s.mem := rfl
@[simp] theorem setInbox_inFlight (s : State) (l : List Event) : (s.setInbox l).inFlight = s.inFlight := rfl
@[simp] theorem setInbox_inbox (s : State) (l : List Event) : (s.setInbox l).inbox = l := rfl
@[simp] theorem setInbox_resp (s : State) (l : List Event) : (s.setInbox l).resp = s.resp := rfl
@[simp] theorem setInbox_draws (s : State) (l : List Event) : (s.setInbox l).draws = s.draws := rfl

@[simp] theorem setResp_regs (s : State) (r : Option Response) : (s.setResp r).regs = s.regs := rfl
@[simp] theorem setResp_mem (s : State) (r : Option Response) : (s.setResp r).mem = s.mem := rfl
@[simp] theorem setResp_inFlight (s : State) (r : Option Response) : (s.setResp r).inFlight = s.inFlight := rfl
@[simp] theorem setResp_inbox (s : State) (r : Option Response) : (s.setResp r).inbox = s.inbox := rfl
@[simp] theorem setResp_resp (s : State) (r : Option Response) : (s.setResp r).resp = r := rfl
@[simp] theorem setResp_draws (s : State) (r : Option Response) : (s.setResp r).draws = s.draws := rfl

@[simp] theorem nextDraw_regs (s : State) : (s.nextDraw).regs = s.regs := rfl
@[simp] theorem nextDraw_mem (s : State) : (s.nextDraw).mem = s.mem := rfl
@[simp] theorem nextDraw_inFlight (s : State) : (s.nextDraw).inFlight = s.inFlight := rfl
@[simp] theorem nextDraw_inbox (s : State) : (s.nextDraw).inbox = s.inbox := rfl
@[simp] theorem nextDraw_resp (s : State) : (s.nextDraw).resp = s.resp := rfl
@[simp] theorem nextDraw_draws (s : State) : (s.nextDraw).draws = s.draws + 1 := rfl

/-! ## Acceptance, completion, answers -/

@[simp] theorem accept_regs (s : State) (w : Word) : (s.accept w).regs = s.regs.accepting w := rfl
@[simp] theorem accept_mem (s : State) (w : Word) : (s.accept w).mem = s.mem := rfl
@[simp] theorem accept_inFlight (s : State) (w : Word) : (s.accept w).inFlight = some { word := w, regs := s.regs.accepting w, mem := s.mem } := rfl
@[simp] theorem accept_inbox (s : State) (w : Word) : (s.accept w).inbox = s.inbox := rfl
@[simp] theorem accept_resp (s : State) (w : Word) : (s.accept w).resp = s.resp := rfl
@[simp] theorem accept_draws (s : State) (w : Word) : (s.accept w).draws = s.draws := rfl

@[simp] theorem finish_regs (s : State) (c : ErrCode) (r : Regs) (m : Memory) : (s.finish c r m).regs = { r with done := true, err := c } := rfl
@[simp] theorem finish_mem (s : State) (c : ErrCode) (r : Regs) (m : Memory) : (s.finish c r m).mem = m := rfl
@[simp] theorem finish_inFlight (s : State) (c : ErrCode) (r : Regs) (m : Memory) : (s.finish c r m).inFlight = none := rfl
@[simp] theorem finish_inbox (s : State) (c : ErrCode) (r : Regs) (m : Memory) : (s.finish c r m).inbox = s.inbox := rfl
@[simp] theorem finish_resp (s : State) (c : ErrCode) (r : Regs) (m : Memory) : (s.finish c r m).resp = s.resp := rfl
@[simp] theorem finish_draws (s : State) (c : ErrCode) (r : Regs) (m : Memory) : (s.finish c r m).draws = s.draws := rfl

@[simp] theorem succeed_regs (s : State) (r : Regs) (m : Memory) : (s.succeed r m).regs = { r with done := true, err := .success } := rfl
@[simp] theorem succeed_mem (s : State) (r : Regs) (m : Memory) : (s.succeed r m).mem = m := rfl
@[simp] theorem succeed_inFlight (s : State) (r : Regs) (m : Memory) : (s.succeed r m).inFlight = none := rfl
@[simp] theorem succeed_inbox (s : State) (r : Regs) (m : Memory) : (s.succeed r m).inbox = s.inbox := rfl
@[simp] theorem succeed_resp (s : State) (r : Regs) (m : Memory) : (s.succeed r m).resp = s.resp := rfl
@[simp] theorem succeed_draws (s : State) (r : Regs) (m : Memory) : (s.succeed r m).draws = s.draws := rfl

@[simp] theorem fail_regs (s : State) (c : ErrCode) : (s.fail c).regs = { s.regs with done := true, err := c } := rfl
@[simp] theorem fail_mem (s : State) (c : ErrCode) : (s.fail c).mem = s.mem := rfl
@[simp] theorem fail_inFlight (s : State) (c : ErrCode) : (s.fail c).inFlight = none := rfl
@[simp] theorem fail_inbox (s : State) (c : ErrCode) : (s.fail c).inbox = s.inbox := rfl
@[simp] theorem fail_resp (s : State) (c : ErrCode) : (s.fail c).resp = s.resp := rfl
@[simp] theorem fail_draws (s : State) (c : ErrCode) : (s.fail c).draws = s.draws := rfl

@[simp] theorem answer_regs (s : State) (d : Word) (e : Bool) : (s.answer d e).regs = s.regs := rfl
@[simp] theorem answer_mem (s : State) (d : Word) (e : Bool) : (s.answer d e).mem = s.mem := rfl
@[simp] theorem answer_inFlight (s : State) (d : Word) (e : Bool) : (s.answer d e).inFlight = s.inFlight := rfl
@[simp] theorem answer_inbox (s : State) (d : Word) (e : Bool) : (s.answer d e).inbox = s.inbox := rfl
@[simp] theorem answer_resp (s : State) (d : Word) (e : Bool) : (s.answer d e).resp = some { data := d, error := e } := rfl
@[simp] theorem answer_draws (s : State) (d : Word) (e : Bool) : (s.answer d e).draws = s.draws := rfl

@[simp] theorem powerOn_regs (s : State) : s.powerOn.regs = Regs.reset := rfl
@[simp] theorem powerOn_mem (s : State) : s.powerOn.mem = { cells := [], epoch := s.draws } := rfl
@[simp] theorem powerOn_inFlight (s : State) : s.powerOn.inFlight = none := rfl
@[simp] theorem powerOn_inbox (s : State) : s.powerOn.inbox = s.inbox := rfl
@[simp] theorem powerOn_resp (s : State) : s.powerOn.resp = none := rfl
@[simp] theorem powerOn_draws (s : State) : s.powerOn.draws = s.draws + 1 := rfl

/-! ## Busy, and what a command reads -/

theorem busy_iff (s : State) : s.busy = true ↔ ∃ f, s.inFlight = some f := by
  simp [State.busy, Option.isSome_iff_exists]

@[simp] theorem busy_none {s : State} (h : s.inFlight = none) : s.busy = false := by simp [State.busy, h]

@[simp] theorem busy_some {s : State} {f : InFlight} (h : s.inFlight = some f) : s.busy = true := by
  simp [State.busy, h]

@[simp] theorem accept_busy (s : State) (w : Word) : (s.accept w).busy = true := rfl

@[simp] theorem accept_inRegs (s : State) (w : Word) : (s.accept w).inRegs = s.regs.accepting w := rfl

@[simp] theorem accept_inMem (s : State) (w : Word) : (s.accept w).inMem = s.mem := rfl

theorem inRegs_none {s : State} (h : s.inFlight = none) : s.inRegs = s.regs := by simp [State.inRegs, h]

theorem inRegs_some {s : State} {f : InFlight} (h : s.inFlight = some f) : s.inRegs = f.regs := by
  simp [State.inRegs, h]

theorem inMem_none {s : State} (h : s.inFlight = none) : s.inMem = s.mem := by simp [State.inMem, h]

theorem inMem_some {s : State} {f : InFlight} (h : s.inFlight = some f) : s.inMem = f.mem := by
  simp [State.inMem, h]

/-- The turn of an event does not change what a command in flight reads. -/
@[simp] theorem setInbox_inRegs (s : State) (l : List Event) : (s.setInbox l).inRegs = s.inRegs := rfl

@[simp] theorem setInbox_inMem (s : State) (l : List Event) : (s.setInbox l).inMem = s.inMem := rfl

/-! ## The soft reset -/

@[simp] theorem softReset_regs (s : State) : s.softReset.regs = Regs.reset := by
  unfold State.softReset; split <;> rfl

@[simp] theorem softReset_inFlight (s : State) : s.softReset.inFlight = none := by
  unfold State.softReset; split
  · assumption
  · rfl

@[simp] theorem softReset_inbox (s : State) : s.softReset.inbox = s.inbox := by
  unfold State.softReset; split <;> rfl

@[simp] theorem softReset_resp (s : State) : s.softReset.resp = s.resp := by
  unfold State.softReset; split <;> rfl

theorem softReset_mem_idle {s : State} (h : s.inFlight = none) : s.softReset.mem = s.mem := by
  simp [State.softReset, h]

theorem softReset_mem_busy {s : State} {f : InFlight} (h : s.inFlight = some f) :
    s.softReset.mem = s.mem.scramble s.draws (abortRanges f) := by
  simp [State.softReset, h]

end Sys2Proof.Machine
end

