-- ==== Sys2Proof/Laws/Step.lean ====
section
/-! SUPPORT. What a step can do: one inversion lemma for the step, for the engine's turn, for a command and
for a host access. -/

namespace Sys2Proof.Machine

/-! ## The step -/

theorem step_empty {s : State} (h : s.inbox = []) : step s = engineTurn s := by
  simp [step, takeTurn, h]

theorem step_event {s : State} {e : Event} {rest : List Event} (h : s.inbox = e :: rest) :
    step s = performEvent e (s.setInbox rest) := by
  simp [step, takeTurn, h]

theorem step_host {s : State} {a : Access} {rest : List Event} (h : s.inbox = .host a :: rest) :
    step s = .next ((s.setInbox rest).access a) := by
  simp [step_event h, performEvent]

theorem step_engine {s : State} {rest : List Event} (h : s.inbox = .engine :: rest) :
    step s = engineTurn (s.setInbox rest) := by
  simp [step_event h, performEvent]

theorem step_powerOn {s : State} {rest : List Event} (h : s.inbox = .powerOn :: rest) :
    step s = .next (s.setInbox rest).powerOn := by
  simp [step_event h, performEvent]

theorem engineTurn_idle {s : State} (h : s.inFlight = none) : engineTurn s = .next s := by
  simp [engineTurn, h]

theorem engineTurn_instr {s : State} {f : InFlight} {i : Instr} (h : s.inFlight = some f)
    (hd : decode f.word = .instr i) : engineTurn s = exec i s := by
  simp [engineTurn, h, hd]

theorem engineTurn_illegal {s : State} {f : InFlight} {why : Illegal} (h : s.inFlight = some f)
    (hd : decode f.word = .illegal why) : engineTurn s = .next (s.fail .illegalCommand) := by
  simp [engineTurn, h, hd]

/-- Everything a command can do: it completes, with an error and no other effect, or with its writes. -/
theorem exec_cases (i : Instr) (s : State) :
    (∃ c, c ≠ .success ∧ exec i s = .next (s.fail c)) ∨
    (∃ r m, exec i s = .next (s.succeed r m)) ∨
    (∃ r m, exec i s = .next (s.succeed r m).nextDraw) := by
  cases i <;>
    simp only [exec, execNop, execFftf, execFfti, execSpclr, execFbclr, execHerm, execQuant, execDequant,
      execWrbits, execRdbits, execFsize, execEnc, execDec, transform] <;>
    repeat' split
  all_goals first
    | exact .inr (.inl ⟨_, _, rfl⟩)
    | exact .inr (.inr ⟨_, _, rfl⟩)
    | exact .inl ⟨_, ErrCode.noConfusion, rfl⟩

/-! ## Host accesses -/

/-- A host read changes nothing but the bus response and the number of the next draw (20_memory.md R92). -/
theorem access_read (s : State) (a : Offset) (n : Size) :
    ∃ d e k, s.access (.read a n) = { s with resp := some { data := d, error := e }, draws := k } := by
  unfold State.access State.legalRead
  dsimp only
  split
  · exact ⟨_, _, _, rfl⟩
  · split
    · exact ⟨_, _, _, rfl⟩
    · exact ⟨_, _, _, rfl⟩

theorem access_write_illegal {s : State} {a : Offset} {n : Size} {v : Word} (h : legalRegion a.toNat n = none) :
    s.access (.write a n v) = s.answer 0 true := by simp [State.access, h]

theorem access_read_illegal {s : State} {a : Offset} {n : Size} (h : legalRegion a.toNat n = none) :
    s.access (.read a n) = s.answer 0 true := by simp [State.access, h]

theorem access_write_legal {s : State} {a : Offset} {n : Size} {v : Word} {r : Region}
    (h : legalRegion a.toNat n = some r) : s.access (.write a n v) = (s.legalWrite r a.toNat n v).answer 0 false := by
  simp [State.access, h]

theorem legalRegion_some {a : Nat} {n : Size} {r : Region} (h : legalRegion a n = some r) :
    regionOf a = some r ∧ r.allows n = true ∧ a % n.bytes = 0 ∧ regionOf (a + n.bytes - 1) = some r := by
  unfold legalRegion at h
  split at h
  · simp at h
  · rename_i q hq
    split at h
    · rename_i hc
      simp only [Option.some.injEq] at h
      subst h
      simp only [Bool.and_eq_true, decide_eq_true_eq] at hc
      exact ⟨hq, hc.1.1, hc.1.2, hc.2⟩
    · simp at h

/-- The numeric ranges of R81. -/
theorem regionOf_eq (a : Nat) :
    regionOf a =
      if a < 0x100 then some .regs
      else if 0x1000 ≤ a ∧ a < 0x2000 then some .pcmIn
      else if 0x2000 ≤ a ∧ a < 0x3000 then some .pcmOut
      else if 0x4000 ≤ a ∧ a < 0x6000 then some .re
      else if 0x6000 ≤ a ∧ a < 0x8000 then some .im
      else if 0x8000 ≤ a ∧ a < 0x9000 then some .fbuf
      else if 0xC000 ≤ a ∧ a < 0xC800 then some .prom
      else none := by
  simp [regionOf, regionIn, regionRows, pcmInBase, pcmOutBase, reBase, imBase, fbufBase, promBase]

/-- Everything a legal write can do while a command is in flight (20_memory.md R94). -/
theorem legalWrite_busy_cases {s : State} (h : s.busy = true) (r : Region) (a : Nat) (n : Size) (v : Word) :
    s.legalWrite r a n v = s ∨
    (r = .regs ∧ regAt a = .ctrl ∧ s.legalWrite r a n v = s.writeCtrl v) ∨
    (r = .regs ∧ regAt a = .status ∧ s.legalWrite r a n v = s.setRegs (s.regs.writeStatus v)) ∨
    (r = .regs ∧ regAt a = .cmd ∧ s.legalWrite r a n v = s.setRegs s.regs.overrun) := by
  unfold State.legalWrite
  cases r <;> simp only [h, if_true, true_or]
  unfold State.writeRegBusy
  split <;> simp_all

end Sys2Proof.Machine
end

