-- ==== Sys2Proof/Laws/Bus.lean ====
section
/-! SUPPORT. The bus: which region an offset lies in, which register stands at an offset, what an access can do,
and runs of several steps. -/

namespace Sys2Proof.Machine

/-! ## Regions and registers -/

/-- The offsets of each region (20_memory.md R81). -/
theorem regionOf_some (a : Nat) (r : Region) : regionOf a = some r ↔
    match r with
    | .regs => a < 0x100
    | .pcmIn => 0x1000 ≤ a ∧ a < 0x2000
    | .pcmOut => 0x2000 ≤ a ∧ a < 0x3000
    | .re => 0x4000 ≤ a ∧ a < 0x6000
    | .im => 0x6000 ≤ a ∧ a < 0x8000
    | .fbuf => 0x8000 ≤ a ∧ a < 0x9000
    | .prom => 0xC000 ≤ a ∧ a < 0xC800 := by
  rw [regionOf_eq]
  split_ifs <;> cases r <;> simp <;> omega

theorem legalRegion_of {a : Nat} {n : Size} {r : Region} (h1 : regionOf a = some r)
    (h2 : regionOf (a + n.bytes - 1) = some r) (h3 : a % n.bytes = 0) (h4 : r.allows n = true) :
    legalRegion a n = some r := by
  simp [legalRegion, h1, h2, h3, h4]

/-- An aligned word access to the register page is legal. -/
theorem legalRegion_regs (a : Nat) (h : a < 0x100) (h4 : a % 4 = 0) : legalRegion a .word = some .regs :=
  legalRegion_of ((regionOf_some a .regs).mpr h) ((regionOf_some _ .regs).mpr (by simp only [Size.bytes]; omega)) h4 rfl

/-- A legal access to the register page is a word access. -/
theorem word_of_regs {a : Nat} {n : Size} (h : legalRegion a n = some .regs) : n = .word := by
  have := (legalRegion_some h).2.1
  simpa [Region.allows] using this

theorem eq_of_regAt_ctrl {a : Nat} (h : regAt a = .ctrl) : a = 0x020 := by
  unfold regAt at h
  split at h <;> try (cases h; done)
  · rfl
  · repeat' split at h
    all_goals cases h

theorem eq_of_regAt_status {a : Nat} (h : regAt a = .status) : a = 0x024 := by
  unfold regAt at h
  split at h <;> try (cases h; done)
  · rfl
  · repeat' split at h
    all_goals cases h

theorem eq_of_regAt_cmd {a : Nat} (h : regAt a = .cmd) : a = 0x028 := by
  unfold regAt at h
  split at h <;> try (cases h; done)
  · rfl
  · repeat' split at h
    all_goals cases h

/-! ## What an access can do -/

/-- A host access keeps the events to come. -/
@[simp] theorem access_inbox (s : State) (x : Access) : (s.access x).inbox = s.inbox := by
  cases x with
  | read a n => obtain ⟨d, e, k, h⟩ := access_read s a n; rw [h]
  | write a n v =>
    cases hl : legalRegion a.toNat n with
    | none => rw [access_write_illegal hl]; rfl
    | some r =>
      rw [access_write_legal hl]
      simp only [answer_inbox]
      unfold State.legalWrite
      cases r <;> simp only <;> try split
      all_goals try rfl
      · unfold State.writeRegBusy State.writeCtrl; split <;> try split
        all_goals simp
      · unfold State.writeRegIdle State.writeCtrl; split <;> try split
        all_goals simp

/-- A host access leaves the command in flight alone, or aborts it. -/
theorem access_inFlight (s : State) (x : Access) (f : InFlight) (hf : s.inFlight = some f) :
    (s.access x).inFlight = none ∨ (s.access x).inFlight = some f := by
  cases x with
  | read a n => obtain ⟨d, e, k, h⟩ := access_read s a n; right; rw [h]; exact hf
  | write a n v =>
    cases hl : legalRegion a.toNat n with
    | none => right; rw [access_write_illegal hl]; exact hf
    | some r =>
      rw [access_write_legal hl]
      simp only [answer_inFlight]
      rcases legalWrite_busy_cases (busy_some hf) r a.toNat n v with h | ⟨_, _, h⟩ | ⟨_, _, h⟩ | ⟨_, _, h⟩ <;> rw [h]
      · exact .inr hf
      · unfold State.writeCtrl; split
        · left; simp
        · exact .inr hf
      · exact .inr hf
      · exact .inr hf

/-- An idle register write, from the offset (20_memory.md R87). -/
theorem access_write_reg_idle {s : State} (hf : s.inFlight = none) {a : Offset} (h : a.toNat < 0x100)
    (h4 : a.toNat % 4 = 0) (v : Word) :
    s.access (.write a .word v) = (s.writeRegIdle (regAt a.toNat) v).answer 0 false := by
  rw [access_write_legal (legalRegion_regs _ h h4)]
  simp [State.legalWrite, State.busy, hf]

/-- A register write while a command is in flight, from the offset (20_memory.md R94). -/
theorem access_write_reg_busy {s : State} {f : InFlight} (hf : s.inFlight = some f) {a : Offset} (h : a.toNat < 0x100)
    (h4 : a.toNat % 4 = 0) (v : Word) :
    s.access (.write a .word v) = (s.writeRegBusy (regAt a.toNat) v).answer 0 false := by
  rw [access_write_legal (legalRegion_regs _ h h4)]
  simp [State.legalWrite, State.busy, hf]

/-- An idle register read, from the offset (20_memory.md R87). -/
theorem access_read_reg_idle {s : State} (hf : s.inFlight = none) {a : Offset} (h : a.toNat < 0x100)
    (h4 : a.toNat % 4 = 0) : s.access (.read a .word) = s.answer (s.readReg (regAt a.toNat)) false := by
  simp [State.access, legalRegion_regs _ h h4, State.legalRead, State.busy, hf, State.readIdle]

/-! ## Several steps -/

@[simp] theorem run_zero (s : State) : Host.Core.run Sys2Proof.core 0 s = .next s := rfl

theorem run_next {s s₁ : State} (k : Nat) (h : step s = .next s₁) :
    Host.Core.run Sys2Proof.core (k + 1) s = Host.Core.run Sys2Proof.core k s₁ := by
  have h' : Sys2Proof.core.step s = .next s₁ := h
  simp only [Host.Core.run, h']

end Sys2Proof.Machine
end

