-- ==== Sys2Proof/Laws/Codec.lean ====
section
/-! SUPPORT. The fields of a command word, and the bit codec's operations said once: a field read as a field of
FBUF, and the bytes of a field write bit by bit. -/

namespace Sys2Proof

/-! ## Fields of a command word (30_encoding.md R120) -/

theorem opcField_eq (w : Word) : opcField w = w.toNat % 256 := by simp [opcField, BitVec.extractLsb'_toNat]

theorem argField_eq (w : Word) : argField w = w.toNat / 256 % 256 := by
  simp [argField, BitVec.extractLsb'_toNat, Nat.shiftRight_eq_div_pow]

theorem rsvField_eq (w : Word) : rsvField w = w.toNat / 65536 := by
  have := w.isLt
  simp [rsvField, BitVec.extractLsb'_toNat, Nat.shiftRight_eq_div_pow]
  omega

namespace Machine

/-! ## The bit codec -/

/-- A field read from the valid bits is the field of FBUF, with 0 from position 8·FLEN on. -/
theorem readField_validBits (m : Memory) (flen pos n : Nat) (hf : flen ≤ 4096) :
    (readField (validBits m flen) pos n).1 = m.fbufField (8 * flen) pos n := by
  apply Nat.eq_of_testBit_eq
  intro k
  by_cases hk : k < n
  · rw [readField_testBit _ _ _ _ hk, validBits_getD _ _ _ hf, Memory.fbufField, natOf_testBit,
      if_pos (by simpa using hk)]
    simp [List.getD_eq_getElem?_getD, show n - 1 - k < n by omega]
  · rw [Nat.testBit_lt_two_pow
      (lt_of_lt_of_le (readField_lt _ _ _) (Nat.pow_le_pow_right (by omega) (by omega : n ≤ k)))]
    rw [Memory.fbufField, natOf_testBit, if_neg (by simpa using hk)]

/-- The field's bytes stand in FBUF when its bits do. -/
theorem fieldBytes_le (pos n : Nat) (h : pos + n ≤ 32768) : (fieldBytes pos n).1 + (fieldBytes pos n).2 ≤ 4096 := by
  simp only [fieldBytes]
  split <;> omega

/-- The bits of the bytes a field write stores: the old bit, ORed with the value's bit inside the field. -/
theorem orField_bit (m : Memory) (pos n v q : Nat) (h1 : (fieldBytes pos n).1 ≤ q / 8)
    (h2 : q / 8 < (fieldBytes pos n).1 + (fieldBytes pos n).2) :
    ((orField m pos n v).getD (q / 8 - (fieldBytes pos n).1) 0).getLsbD (7 - q % 8) =
      (m.fbufBit q || (decide (pos ≤ q ∧ q < pos + n) && v.testBit (n - 1 - (q - pos)))) := by
  have hp : (fieldBytes pos n).1 = pos / 8 := rfl
  have e : (orField m pos n v).getD (q / 8 - (fieldBytes pos n).1) 0 =
      m.byte (fbufBase + q / 8) |||
        (packBytes (fieldBytes pos n).2 (List.replicate (pos % 8) false ++ bitsOf n v)).getD
          (q / 8 - (fieldBytes pos n).1) 0 := by
    have hl : q / 8 - (fieldBytes pos n).1 < (fieldBytes pos n).2 := by omega
    have hl2 : q / 8 - (fieldBytes pos n).1 <
        (packBytes (fieldBytes pos n).2 (List.replicate (pos % 8) false ++ bitsOf n v)).length := by simpa using hl
    simp only [orField, List.getD_eq_getElem?_getD, List.getElem?_zipWith, List.getElem?_eq_getElem hl2,
      Memory.bytes, List.getElem?_map, List.getElem?_range hl]
    simp only [Option.map_some, Option.getD_some]
    congr 2
    omega
  rw [e, BitVec.getLsbD_or]
  congr 1
  have := packBytes_bit (fieldBytes pos n).2 (List.replicate (pos % 8) false ++ bitsOf n v) (q - 8 * (pos / 8))
    (by omega)
  rw [show (q - 8 * (pos / 8)) / 8 = q / 8 - pos / 8 by omega,
    show (q - 8 * (pos / 8)) % 8 = q % 8 by omega] at this
  rw [hp, this]
  by_cases c : pos ≤ q
  · rw [getD_append_right' _ _ _ _ (by simp; omega), List.length_replicate,
      show q - 8 * (pos / 8) - pos % 8 = q - pos by omega]
    by_cases d : q < pos + n
    · rw [bitsOf_getD _ _ _ (by omega)]; simp [c, d]
    · simp [c, d, List.getD_eq_getElem?_getD,
        List.getElem?_eq_none (show (bitsOf n v).length ≤ q - pos by simp; omega)]
  · rw [getD_append_left' _ _ _ _ (by simp; omega)]
    simp [c, List.getD_eq_getElem?_getD, List.getElem?_replicate]
    split <;> rfl

end Machine

end Sys2Proof
end

