-- ==== Sys2Proof/Laws/Float.lean ====
section
/-! SUPPORT. The rounding operation on values the format holds, and what each binary64 operation does with
them (00_scope.md R11). -/

namespace Sys2Proof

@[simp] theorem bitLength_zero : bitLength 0 = 0 := rfl

theorem bitLength_pos {m : Nat} (h : 0 < m) : bitLength m = m.log2 + 1 := by
  simp [bitLength, Nat.pos_iff_ne_zero.mp h]

/-- A number below `2^n` has at most `n` bits. -/
theorem bitLength_le {m n : Nat} (h : m < 2 ^ n) : bitLength m ≤ n := by
  rcases Nat.eq_zero_or_pos m with rfl | hm
  · simp
  · rw [bitLength_pos hm]
    exact (Nat.log2_lt (Nat.pos_iff_ne_zero.mp hm)).mpr h

/-- A number from `2^n` on has more than `n` bits. -/
theorem lt_bitLength {m n : Nat} (h : 2 ^ n ≤ m) : n < bitLength m := by
  have hm : 0 < m := lt_of_lt_of_le (Nat.two_pow_pos n) h
  rw [bitLength_pos hm]
  have := (Nat.le_log2 (Nat.pos_iff_ne_zero.mp hm)).mpr h
  omega

theorem bitLength_mul_two_pow {m : Nat} (h : 0 < m) (k : Nat) : bitLength (m * 2 ^ k) = bitLength m + k := by
  induction k with
  | zero => simp
  | succ k ih =>
    have hp : 0 < m * 2 ^ k := Nat.mul_pos h (Nat.two_pow_pos k)
    have hq : 0 < m * 2 ^ (k + 1) := Nat.mul_pos h (Nat.two_pow_pos (k + 1))
    rw [bitLength_pos hp] at ih
    have : (m * 2 ^ (k + 1)).log2 = (m * 2 ^ k).log2 + 1 := by
      rw [Nat.pow_succ, ← Nat.mul_assoc, Nat.mul_comm _ 2, Nat.log2_two_mul (Nat.pos_iff_ne_zero.mp hp)]
    rw [bitLength_pos hq, this]
    omega

theorem roundShift_mul_two_pow (m k : Nat) : roundShift (m * 2 ^ k) k = m := by
  have hp : 0 < 2 ^ k := Nat.two_pow_pos k
  simp only [roundShift, Nat.mul_mod_left, Nat.mul_div_cancel _ hp]
  rw [if_neg (by omega)]

/-- A value the format holds is kept, however its significand is scaled: `m * 2^e` with `m` of 53 bits, or with
the smallest exponent. -/
theorem roundTo_canonical (neg : Bool) (m k : Nat) (e : Int) (hm : m < 2 ^ 53)
    (h : (2 ^ 52 ≤ m ∧ -1074 ≤ e ∧ e ≤ 971) ∨ e = -1074) :
    roundTo binary64 neg (m * 2 ^ k) (e - k) = .fin neg m e := by
  rcases Nat.eq_zero_or_pos m with rfl | h0
  · have he : e = -1074 := by
      rcases h with ⟨h, _⟩ | h
      · exact absurd (Nat.two_pow_pos 52) (by omega)
      · exact h
    have hq : ∀ u, onGrid 0 (e - k) u = 0 := by
      intro u
      unfold onGrid
      split
      · simp
      · simpa using roundShift_mul_two_pow 0 (u - (e - k)).toNat
    simp only [roundTo, ofSignificand, Nat.zero_mul, hq]
    simp [he, binary64]
  · have hb := bitLength_le hm
    have hu : ulpExp binary64 (m * 2 ^ k) (e - k) = e := by
      simp only [ulpExp, bitLength_mul_two_pow h0, binary64]
      rcases h with ⟨h1, h2, h3⟩ | h
      · have := lt_bitLength h1
        push_cast
        omega
      · push_cast
        omega
    have hg : onGrid (m * 2 ^ k) (e - k) e = m := by
      unfold onGrid
      split
      · have : k = 0 := by omega
        subst this
        simp
      · rw [show (e - (e - k)).toNat = k by omega, roundShift_mul_two_pow]
    have hc : decide (m = 2 ^ binary64.prec) = false := decide_eq_false (Nat.ne_of_lt hm)
    simp only [roundTo, ofSignificand, hu, hg, hc, Bool.false_eq_true, if_false]
    rw [if_neg (Nat.pos_iff_ne_zero.mp h0), if_neg]
    show ¬ (971 : Int) < e
    omega

/-! ## NaN operands (R11) -/

@[simp] theorem drawnNaN_isNaN (t : Tag) : (Fp.drawnNaN t).isNaN = true := rfl

@[simp] theorem add_nan (t : Tag) (g : Bool) (f : BitVec 52) (y : Fp) : Fp.add t (.nan g f) y = Fp.drawnNaN t := by
  cases y <;> rfl

@[simp] theorem mul_nan (t : Tag) (g : Bool) (f : BitVec 52) (y : Fp) : Fp.mul t (.nan g f) y = Fp.drawnNaN t := by
  cases y <;> rfl

@[simp] theorem div_nan (t : Tag) (g : Bool) (f : BitVec 52) (y : Fp) : Fp.div t (.nan g f) y = Fp.drawnNaN t := by
  cases y <;> rfl

@[simp] theorem neg_neg' (x : Fp) : x.neg.neg = x := by
  cases x <;> simp [Fp.neg]

@[simp] theorem abs_isNaN (x : Fp) : x.abs.isNaN = x.isNaN := by cases x <;> rfl

@[simp] theorem neg_isNaN (x : Fp) : x.neg.isNaN = x.isNaN := by cases x <;> rfl

end Sys2Proof
end

