-- ==== Sys2Proof/Laws/PerInstr.lean ====
section
/-! SUPPORT. Per-instruction families: statements about a command as syntax, one lemma for each constructor. -/

namespace Sys2Proof.Laws.WordLayout

/-- A well-formed command's word has 0 in its reserved field, its opcode in OPC and its argument in ARG
(30_encoding.md R120, R122). -/
def Statement (i : Instr) : Prop :=
  i.wellFormed = true → (encode i).toNat = i.arg * 256 + i.opcode ∧ i.arg < 256 ∧ i.opcode < 256

theorem ofArg {n opc : Nat} (h : fitsArg n = true) (ho : opc < 256) :
    (BitVec.ofNat 32 (n * 256 + opc)).toNat = n * 256 + opc ∧ n < 256 ∧ opc < 256 := by
  have hn : n < 256 := by simpa [fitsArg] using h
  exact ⟨by rw [BitVec.toNat_ofNat]; omega, hn, ho⟩

theorem nop : Statement .nop := fun _ => ofArg (n := 0) rfl (by decide)
theorem fftf : Statement .fftf := fun _ => ofArg (n := 0) rfl (by decide)
theorem ffti : Statement .ffti := fun _ => ofArg (n := 0) rfl (by decide)
theorem herm (p : Nat) : Statement (.herm p) := fun h => ofArg (opc := 3) h (by decide)
theorem quant (b : Nat) : Statement (.quant b) := fun h => ofArg (opc := 4) h (by decide)
theorem dequant (b : Nat) : Statement (.dequant b) := fun h => ofArg (opc := 5) h (by decide)
theorem wrbits (n : Nat) : Statement (.wrbits n) := fun h => ofArg (opc := 6) h (by decide)
theorem rdbits (n : Nat) : Statement (.rdbits n) := fun h => ofArg (opc := 7) h (by decide)
theorem fsize (p : Nat) : Statement (.fsize p) := fun h => ofArg (opc := 8) h (by decide)
theorem fbclr : Statement .fbclr := fun _ => ofArg (n := 0) rfl (by decide)
theorem spclr : Statement .spclr := fun _ => ofArg (n := 0) rfl (by decide)
theorem enc (p : Nat) : Statement (.enc p) := fun h => ofArg (opc := 16) h (by decide)
theorem dec : Statement .dec := fun _ => ofArg (n := 0) rfl (by decide)

end Sys2Proof.Laws.WordLayout
end

