-- ==== Sys2Proof/Laws/Rounding.lean ====
section
/-! SUPPORT. Rounding to nearest, ties to even (00_scope.md R11): the integer a significand rounds to, and that the
nearest multiple of the last place is the nearest value of the format. -/

namespace Sys2Proof.Machine

/-- `x` rounds to the integer `q`: to nearest, ties to even. -/
def NearestInt (x : ℚ) (q : Nat) : Prop := |x - q| < 1 / 2 ∨ (|x - q| = 1 / 2 ∧ q % 2 = 0)

/-- A significand shifted right is the nearest integer, the even one at a tie. -/
theorem roundShift_nearest (m d : Nat) : NearestInt ((m : ℚ) / 2 ^ d) (roundShift m d) := by
  have hp : (0 : ℚ) < 2 ^ d := by positivity
  have hm : (m : ℚ) = 2 ^ d * (m / 2 ^ d : Nat) + (m % 2 ^ d : Nat) := by
    have := Nat.div_add_mod m (2 ^ d)
    exact_mod_cast this.symm
  have hr : m % 2 ^ d < 2 ^ d := Nat.mod_lt _ (Nat.two_pow_pos d)
  have hrq : ((m % 2 ^ d : Nat) : ℚ) < 2 ^ d := by exact_mod_cast hr
  set q := m / 2 ^ d
  set r := m % 2 ^ d
  have hx : (m : ℚ) / 2 ^ d = q + (r : ℚ) / 2 ^ d := by rw [hm]; field_simp
  have h0 : (0 : ℚ) ≤ (r : ℚ) / 2 ^ d := by positivity
  have h1 : (r : ℚ) / 2 ^ d < 1 := by rw [div_lt_one hp]; exact hrq
  have hc : (2 * r < 2 ^ d ↔ (r : ℚ) / 2 ^ d < 1 / 2) ∧ (2 * r = 2 ^ d ↔ (r : ℚ) / 2 ^ d = 1 / 2) := by
    constructor
    · rw [div_lt_div_iff₀ hp (by norm_num)]
      constructor
      · intro h; have : ((2 * r : Nat) : ℚ) < ((2 ^ d : Nat) : ℚ) := by exact_mod_cast h
        push_cast at this; linarith
      · intro h; have : ((2 * r : Nat) : ℚ) < ((2 ^ d : Nat) : ℚ) := by push_cast; linarith
        exact_mod_cast this
    · rw [div_eq_div_iff hp.ne' (by norm_num)]
      constructor
      · intro h; have : ((2 * r : Nat) : ℚ) = ((2 ^ d : Nat) : ℚ) := by exact_mod_cast h
        push_cast at this; linarith
      · intro h; have : ((2 * r : Nat) : ℚ) = ((2 ^ d : Nat) : ℚ) := by push_cast; linarith
        exact_mod_cast this
  obtain ⟨hlt, heq⟩ := hc
  unfold NearestInt
  rw [hx]
  generalize (r : ℚ) / 2 ^ d = z at *
  have hrs : roundShift m d = if 2 * r > 2 ^ d ∨ (2 * r = 2 ^ d ∧ q % 2 = 1) then q + 1 else q := rfl
  rw [hrs]
  split
  · next h =>
    push_cast
    rw [show (q : ℚ) + z - (q + 1) = -(1 - z) by ring, abs_neg, abs_of_pos (by linarith)]
    rcases h with h | ⟨h, h'⟩
    · left
      have : ¬ z < 1 / 2 := fun c => by have := hlt.mpr c; omega
      have : z ≠ 1 / 2 := fun c => by have := heq.mpr c; omega
      have : 1 / 2 < z := lt_of_le_of_ne (not_lt.mp ‹_›) (Ne.symm this)
      linarith
    · right
      rw [heq.mp h]
      exact ⟨by norm_num, by omega⟩
  · next h =>
    rw [show (q : ℚ) + z - q = z by ring, abs_of_nonneg h0]
    rcases Nat.lt_trichotomy (2 * r) (2 ^ d) with c | c | c
    · left; exact hlt.mp c
    · right; exact ⟨heq.mp c, by omega⟩
    · omega

/-- The significand on the grid of 2^u is the nearest one, the even one at a tie. -/
theorem onGrid_nearest (m : Nat) (e u : Int) : NearestInt (magnitude m e / 2 ^ u) (onGrid m e u) := by
  unfold onGrid
  split
  · next h =>
    left
    have : magnitude m e / 2 ^ u = ((m * 2 ^ (e - u).toNat : Nat) : ℚ) := by
      unfold magnitude
      rw [mul_div_assoc, ← zpow_sub₀ (by norm_num), Nat.cast_mul, Nat.cast_pow, ← zpow_natCast]
      congr 2; simp; omega
    rw [this]; norm_num
  · next h =>
    have : magnitude m e / 2 ^ u = (m : ℚ) / 2 ^ (u - e).toNat := by
      unfold magnitude
      rw [mul_div_assoc, ← zpow_sub₀ (by norm_num), div_eq_mul_inv, ← zpow_natCast, ← zpow_neg]
      congr 2; simp; omega
    rw [this]; exact roundShift_nearest _ _

/-- The value lies below 2^prec units of its last place. -/
theorem magnitude_lt_ulp (f : FpFormat) (m : Nat) (e : Int) :
    magnitude m e < 2 ^ f.prec * 2 ^ ulpExp f m e := by
  have h1 : (m : ℚ) < 2 ^ bitLength m := by
    rcases Nat.eq_zero_or_pos m with rfl | h
    · simp
    · rw [bitLength_pos h]; exact_mod_cast Nat.lt_log2_self
  have h2 : e + bitLength m ≤ f.prec + ulpExp f m e := by unfold ulpExp; omega
  calc magnitude m e < 2 ^ bitLength m * 2 ^ e := by unfold magnitude; exact mul_lt_mul_of_pos_right h1 (by positivity)
    _ = (2 : ℚ) ^ (e + bitLength m) := by rw [← zpow_natCast, ← zpow_add₀ (by norm_num), add_comm]
    _ ≤ (2 : ℚ) ^ (f.prec + ulpExp f m e) := zpow_le_zpow_right₀ (by norm_num) h2
    _ = _ := by rw [zpow_add₀ (by norm_num), zpow_natCast]

/-- Above the smallest exponent, it has at least 2^(prec−1) of them. -/
theorem ulp_le_magnitude (f : FpFormat) (m : Nat) (e : Int) (hm : 0 < m) (hp : 1 ≤ f.prec)
    (h : f.eMin < ulpExp f m e) :
    (2 : ℚ) ^ (f.prec - 1) * 2 ^ ulpExp f m e ≤ magnitude m e := by
  have h1 : (2 : ℚ) ^ (bitLength m - 1) ≤ m := by
    rw [bitLength_pos hm]; exact_mod_cast Nat.log2_self_le (Nat.pos_iff_ne_zero.mp hm)
  have hb : 1 ≤ bitLength m := by rw [bitLength_pos hm]; omega
  have h2 : ((f.prec - 1 : Nat) : Int) + ulpExp f m e = e + ((bitLength m - 1 : Nat) : Int) := by
    unfold ulpExp at h ⊢; omega
  calc (2 : ℚ) ^ (f.prec - 1) * 2 ^ ulpExp f m e = 2 ^ (((f.prec - 1 : Nat) : Int) + ulpExp f m e) := by
        rw [zpow_add₀ (by norm_num), zpow_natCast]
    _ = 2 ^ (bitLength m - 1) * 2 ^ e := by rw [h2, zpow_add₀ (by norm_num), zpow_natCast, mul_comm]
    _ ≤ _ := by unfold magnitude; exact mul_le_mul_of_nonneg_right h1 (by positivity)
/-- The nearest integer is within a half, and even at a half. -/
theorem nearest_bounds {x : ℚ} {q : Nat} (h : NearestInt x q) : (q : ℚ) - 1 / 2 ≤ x ∧ x ≤ q + 1 / 2 ∧
    (x = q - 1 / 2 → q % 2 = 0) ∧ (x = q + 1 / 2 → q % 2 = 0) := by
  have h' : |x - q| ≤ 1 / 2 := by rcases h with h | h; exacts [h.le, h.1.le]
  have := abs_le.mp h'
  refine ⟨by linarith, by linarith, fun e => ?_, fun e => ?_⟩
  · rcases h with h | h
    · rw [e] at h; norm_num at h
    · exact h.2
  · rcases h with h | h
    · rw [e] at h; norm_num at h
    · exact h.2

/-- A nearest integer multiple of 2^u is nearest among the members of the format too. -/
theorem nearest_member (f : FpFormat) (v : ℚ) (u : Int) (q : Nat) (hp : 1 ≤ f.prec)
    (hl : f.eMin < u → 2 ^ (f.prec - 1) * 2 ^ u ≤ v) (hn : NearestInt (v / 2 ^ u) q)
    (q' : Nat) (u' : Int) (h1 : q' < 2 ^ f.prec) (h2 : f.eMin ≤ u') (h3 : magnitude q' u' ≠ magnitude q u) :
    |v - magnitude q u| < |v - magnitude q' u'| ∨ (|v - magnitude q u| = |v - magnitude q' u'| ∧ q % 2 = 0) := by
  have pu : (0 : ℚ) < 2 ^ u := by positivity
  obtain ⟨b1, b2, b3, b4⟩ := nearest_bounds hn
  have hv : v = (v / 2 ^ u) * 2 ^ u := by field_simp
  -- distance to an integer multiple
  have key : ∀ N : Nat, N ≠ q → |v - magnitude q u| < |v - (N : ℚ) * 2 ^ u| ∨ (|v - magnitude q u| = |v - (N : ℚ) * 2 ^ u| ∧ q % 2 = 0) := by
    intro N hN
    generalize v / 2 ^ u = x at *
    have e1 : |v - magnitude q u| = |x - q| * 2 ^ u := by
      unfold magnitude; rw [hv, ← sub_mul, abs_mul, abs_of_pos pu]
    have e2 : |v - (N : ℚ) * 2 ^ u| = |x - N| * 2 ^ u := by
      rw [hv, ← sub_mul, abs_mul, abs_of_pos pu]
    rw [e1, e2]
    have d : (1 : ℚ) ≤ |(q : ℚ) - N| := by
      have : (1 : ℤ) ≤ |(q : ℤ) - N| := Int.one_le_abs (by omega)
      exact_mod_cast this
    have tri : |(q : ℚ) - N| ≤ |x - q| + |x - N| := by
      calc |(q : ℚ) - N| = |(q - x) + (x - N)| := by ring_nf
        _ ≤ |(q : ℚ) - x| + |x - N| := abs_add_le _ _
        _ = _ := by rw [abs_sub_comm (q : ℚ) x]
    rcases hn with h | ⟨h, hq⟩
    · left; exact mul_lt_mul_of_pos_right (by linarith) pu
    · rcases lt_or_eq_of_le (by linarith : |x - q| ≤ |x - N|) with c | c
      · left; exact mul_lt_mul_of_pos_right c pu
      · right; exact ⟨by rw [c], hq⟩
  by_cases c : u ≤ u'
  · have : magnitude q' u' = ((q' * 2 ^ (u' - u).toNat : Nat) : ℚ) * 2 ^ u := by
      unfold magnitude
      rw [Nat.cast_mul, Nat.cast_pow, mul_assoc, ← zpow_natCast, Nat.cast_ofNat, ← zpow_add₀ (by norm_num)]
      congr 2; omega
    rw [this]
    apply key
    intro e; apply h3; rw [this, e]; rfl
  · left
    have hlu := hl (by omega)
    have hB : magnitude q' u' < 2 ^ (f.prec - 1) * 2 ^ u := by
      have h1' : (q' : ℚ) < 2 ^ f.prec := by exact_mod_cast h1
      calc magnitude q' u' < 2 ^ f.prec * 2 ^ u' := mul_lt_mul_of_pos_right h1' (by positivity)
        _ ≤ 2 ^ f.prec * 2 ^ (u - 1) := by
          apply mul_le_mul_of_nonneg_left _ (by positivity)
          exact zpow_le_zpow_right₀ (by norm_num) (by omega)
        _ = 2 ^ (f.prec - 1) * 2 ^ u := by
          rw [zpow_sub_one₀ (by norm_num), show f.prec = (f.prec - 1) + 1 by omega, pow_succ]
          simp only [Nat.add_sub_cancel]; ring
    have k2 : |v - magnitude q u| ≤ v - 2 ^ (f.prec - 1) * 2 ^ u := by
      by_cases hN : 2 ^ (f.prec - 1) = q
      · rw [← hN]; unfold magnitude; push_cast; rw [abs_of_nonneg (by linarith)]
      · have := key (2 ^ (f.prec - 1)) hN
        push_cast at this
        rw [abs_of_nonneg (a := v - 2 ^ (f.prec - 1) * 2 ^ u) (by linarith)] at this
        rcases this with h | h
        · exact h.le
        · exact h.1.le
    rw [abs_of_pos (a := v - magnitude q' u') (by linarith)]
    linarith

/-- The value from which on rounding overflows: half a unit above the largest finite one. -/
theorem threshold_eq (f : FpFormat) :
    magnitude (2 ^ (f.prec + 1) - 1) (f.eMax - 1) = (2 ^ f.prec - 1 / 2) * 2 ^ f.eMax := by
  unfold magnitude
  rw [Nat.cast_sub Nat.one_le_two_pow]; push_cast
  rw [zpow_sub_one₀ (by norm_num), pow_succ]; ring

/-- The value with a nearest significand of full length, or with the smallest exponent, is the rounded value. -/
theorem ofSignificand_rounded (f : FpFormat) (neg : Bool) (v : ℚ) (u : Int) (q : Nat)
    (hp : 2 ≤ f.prec) (hE : f.eMin ≤ f.eMax)
    (hu : f.eMin ≤ u) (hv : v < 2 ^ f.prec * 2 ^ u)
    (hl : f.eMin < u → 2 ^ (f.prec - 1) * 2 ^ u ≤ v) (hn : NearestInt (v / 2 ^ u) q) :
    Rounded f neg v (ofSignificand f neg q u) := by
  have pu : (0 : ℚ) < 2 ^ u := by positivity
  obtain ⟨b1, b2, b3, b4⟩ := nearest_bounds hn
  have hxv : v = (v / 2 ^ u) * 2 ^ u := by field_simp
  have hx : v / 2 ^ u < 2 ^ f.prec := by rw [div_lt_iff₀ pu]; exact hv
  have hq : q ≤ 2 ^ f.prec := by
    by_contra h
    have : (2 : ℚ) ^ f.prec + 1 ≤ q := by exact_mod_cast (not_le.mp h)
    linarith
  have hmem := fun q' u' => nearest_member f v u q (by omega) hl hn q' u'
  have hql : u = f.eMin ∨ 2 ^ (f.prec - 1) ≤ q := by
    by_cases c : u = f.eMin
    · exact .inl c
    · right
      have := hl (by omega)
      have h' : (2 : ℚ) ^ (f.prec - 1) ≤ v / 2 ^ u := by rw [le_div_iff₀ pu]; exact this
      by_contra h
      have : (q : ℚ) + 1 ≤ 2 ^ (f.prec - 1) := by exact_mod_cast (not_le.mp h)
      linarith
  have h2p : (2 : ℚ) ^ f.prec = 2 * 2 ^ (f.prec - 1) := by
    rw [← pow_succ', Nat.sub_add_cancel (by omega)]
  have h2pn : 2 ^ f.prec = 2 * 2 ^ (f.prec - 1) := by
    rw [← pow_succ', Nat.sub_add_cancel (by omega)]
  have hpe : 2 ^ (f.prec - 1) % 2 = 0 := by
    rw [show f.prec - 1 = (f.prec - 2) + 1 by omega, pow_succ]; omega
  have h1p : 0 < 2 ^ (f.prec - 1) := Nat.two_pow_pos _
  have hpge : (2 : ℚ) ≤ 2 ^ f.prec := by rw [h2p]; have : (1 : ℚ) ≤ 2 ^ (f.prec - 1) := one_le_pow₀ (by norm_num); linarith
  unfold ofSignificand
  by_cases hc : q = 2 ^ f.prec
  · simp only [hc, decide_true, if_true]
    rw [if_neg h1p.ne']
    have hm : magnitude (2 ^ (f.prec - 1)) (u + 1) = magnitude q u := by
      unfold magnitude; rw [hc]; push_cast; rw [zpow_add_one₀ (by norm_num), h2p]; ring
    have hqq : (q : ℚ) = 2 ^ f.prec := by rw [hc]; push_cast; rfl
    split
    · next hb =>
      left; refine ⟨rfl, ?_⟩
      rw [threshold_eq]
      rcases (by omega : u = f.eMax ∨ f.eMax < u) with c | c
      · rw [← c, hxv]
        apply mul_le_mul_of_nonneg_right _ pu.le
        linarith
      · have hlu := hl (by omega)
        have : (2 : ℚ) ^ (f.eMax + 1) ≤ 2 ^ u := zpow_le_zpow_right₀ (by norm_num) (by omega)
        rw [zpow_add_one₀ (by norm_num)] at this
        have h3 : (0 : ℚ) < 2 ^ (f.prec - 1) := by positivity
        have h4 : (0 : ℚ) < 2 ^ f.eMax := by positivity
        nlinarith
    · next hb =>
      right
      refine ⟨2 ^ (f.prec - 1), u + 1, rfl, ?_, by omega, by omega, by omega, .inr (le_refl _), ?_⟩
      · rw [threshold_eq]
        have : (2 : ℚ) ^ (u + 1) ≤ 2 ^ f.eMax := zpow_le_zpow_right₀ (by norm_num) (by omega)
        rw [zpow_add_one₀ (by norm_num)] at this
        have h3 : (0 : ℚ) < 2 ^ f.eMax := by positivity
        nlinarith
      · intro q' u' h1 h2 h3
        rw [hm] at h3 ⊢
        rcases hmem q' u' h1 h2 h3 with h | h
        · exact .inl h
        · exact .inr ⟨h.1, hpe⟩
  · simp only [hc, decide_false, Bool.false_eq_true, if_false]
    have hq' : q < 2 ^ f.prec := by omega
    split
    · next h0 =>
      have hue : u = f.eMin := by rcases hql with h | h; exact h; omega
      right
      refine ⟨0, f.eMin, rfl, ?_, by omega, le_refl _, hE, .inl rfl, ?_⟩
      · rw [threshold_eq]
        rw [h0] at b2
        have : (2 : ℚ) ^ u ≤ 2 ^ f.eMax := zpow_le_zpow_right₀ (by norm_num) (by omega)
        have h5 : v ≤ 1 / 2 * 2 ^ u := by rw [hxv]; apply mul_le_mul_of_nonneg_right _ pu.le; simpa using b2
        have h3 : (0 : ℚ) < 2 ^ f.eMax := by positivity
        nlinarith
      · intro q' u' h1 h2 h3
        rw [h0, hue] at hmem
        exact hmem q' u' h1 h2 h3
    · next h0 =>
      split
      · next hb =>
        left; refine ⟨rfl, ?_⟩
        rw [threshold_eq]
        have hlu := hl (by omega)
        have : (2 : ℚ) ^ (f.eMax + 1) ≤ 2 ^ u := zpow_le_zpow_right₀ (by norm_num) (by omega)
        rw [zpow_add_one₀ (by norm_num)] at this
        have h3 : (0 : ℚ) < 2 ^ (f.prec - 1) := by positivity
        have h4 : (0 : ℚ) < 2 ^ f.eMax := by positivity
        nlinarith
      · next hb =>
        right
        refine ⟨q, u, rfl, ?_, hq', hu, by omega, hql, hmem⟩
        rw [threshold_eq]
        rcases (by omega : u < f.eMax ∨ u = f.eMax) with c | c
        · have : (2 : ℚ) ^ (u + 1) ≤ 2 ^ f.eMax := zpow_le_zpow_right₀ (by norm_num) (by omega)
          rw [zpow_add_one₀ (by norm_num)] at this
          have h3 : (0 : ℚ) < 2 ^ f.eMax := by positivity
          nlinarith
        · rw [← c, hxv]
          apply mul_lt_mul_of_pos_right _ pu
          have hqc : (q : ℚ) + 1 ≤ 2 ^ f.prec := by exact_mod_cast hq'
          by_contra h
          have e : v / 2 ^ u = q + 1 / 2 := by linarith
          have h2 := b4 e
          have : (q : ℚ) + 1 = 2 ^ f.prec := by linarith
          have : q + 1 = 2 ^ f.prec := by exact_mod_cast this
          omega

/-- What a rounded value keeps below: it is at most any power of two of the format that the exact one is at most. -/
theorem Rounded.le_two_pow {f : FpFormat} {neg : Bool} {v : ℚ} {r : Fp} {k : Int} (h : Rounded f neg v r) (h0 : 0 ≤ v)
    (hp : 1 ≤ f.prec) (hk : f.eMin ≤ k) (hE : k + 1 ≤ f.eMax) (hv : v ≤ 2 ^ k) :
    ∃ q u, r = .fin neg q u ∧ magnitude q u ≤ 2 ^ k := by
  rcases h with ⟨_, h⟩ | ⟨q, u, hr, _, _, _, _, _, hn⟩
  · exfalso
    rw [threshold_eq] at h
    have h1 : (2 : ℚ) ^ (k + 1) ≤ 2 ^ f.eMax := zpow_le_zpow_right₀ (by norm_num) hE
    rw [zpow_add_one₀ (by norm_num)] at h1
    have h2 : (2 : ℚ) ≤ 2 ^ f.prec := by
      calc (2 : ℚ) = 2 ^ 1 := by norm_num
        _ ≤ 2 ^ f.prec := pow_le_pow_right₀ (by norm_num) hp
    have h3 : (0 : ℚ) < 2 ^ k := by positivity
    nlinarith
  · refine ⟨q, u, hr, ?_⟩
    by_contra c
    have c := not_le.mp c
    have hone : magnitude 1 k = 2 ^ k := by simp [magnitude]
    have := hn 1 k (Nat.one_lt_two_pow (by omega)) hk (by rw [hone]; exact c.ne)
    rw [hone, abs_of_neg (by linarith), abs_of_nonpos (by linarith)] at this
    rcases this with h | h
    · linarith
    · linarith [h.1]

/-- A value the format holds is kept. -/
theorem Rounded.exact {f : FpFormat} {neg : Bool} {q' : Nat} {u' : Int} {r : Fp}
    (h : Rounded f neg (magnitude q' u') r) (hq : q' < 2 ^ f.prec) (hu : f.eMin ≤ u')
    (hv : magnitude q' u' < magnitude (2 ^ (f.prec + 1) - 1) (f.eMax - 1)) :
    ∃ q u, r = .fin neg q u ∧ magnitude q u = magnitude q' u' := by
  rcases h with ⟨_, h⟩ | ⟨q, u, hr, _, _, _, _, _, hn⟩
  · exact absurd h (not_le.mpr hv)
  · refine ⟨q, u, hr, ?_⟩
    by_contra c
    have := hn q' u' hq hu (Ne.symm c)
    rw [sub_self, abs_zero] at this
    have d : 0 < |magnitude q' u' - magnitude q u| := abs_pos.mpr (sub_ne_zero.mpr (Ne.symm c))
    rcases this with h | h
    · linarith
    · linarith [h.1]

end Sys2Proof.Machine
end

