-- ==== Sys2Proof/Tests/Slice0.lean ====
section
/-! SUPPORT. The model's own tests: small, on one step each, with results from the spec's vectors
(95_test_vectors.md) or by hand from its rules; and a witness for the hypotheses of every obligation. -/

namespace Sys2Proof.Tests

open Sys2Proof Sys2Proof.Machine

/-! ## WellFormed: the check of the ARG field refuses 256 for every command that has an argument -/

theorem test_wf_herm : (Instr.herm 256).wellFormed = false := by decide
theorem test_wf_quant : (Instr.quant 256).wellFormed = false := by decide
theorem test_wf_dequant : (Instr.dequant 256).wellFormed = false := by decide
theorem test_wf_wrbits : (Instr.wrbits 256).wellFormed = false := by decide
theorem test_wf_rdbits : (Instr.rdbits 256).wellFormed = false := by decide
theorem test_wf_fsize : (Instr.fsize 256).wellFormed = false := by decide
theorem test_wf_enc : (Instr.enc 256).wellFormed = false := by decide
theorem test_wf_admits_255 : (Instr.enc 255).wellFormed = true := by decide

/-! ## Decoding: words written out from 30_encoding.md R120 and R122 -/

theorem test_decode_nop : decode 0b0000000000000000_00000000_00000000 = .instr .nop := by decide
theorem test_decode_fftf : decode 0b0000000000000000_00000000_00000001 = .instr .fftf := by decide
theorem test_decode_ffti : decode 0b0000000000000000_00000000_00000010 = .instr .ffti := by decide
theorem test_decode_herm : decode 0b0000000000000000_00000011_00000011 = .instr (.herm 3) := by decide
theorem test_decode_quant : decode 0b0000000000000000_00010000_00000100 = .instr (.quant 16) := by decide
theorem test_decode_dequant : decode 0b0000000000000000_00001000_00000101 = .instr (.dequant 8) := by decide
theorem test_decode_wrbits : decode 0b0000000000000000_00100000_00000110 = .instr (.wrbits 32) := by decide
theorem test_decode_rdbits : decode 0b0000000000000000_00001001_00000111 = .instr (.rdbits 9) := by decide
theorem test_decode_fsize : decode 0b0000000000000000_00000001_00001000 = .instr (.fsize 1) := by decide
theorem test_decode_fbclr : decode 0b0000000000000000_00000000_00001001 = .instr .fbclr := by decide
theorem test_decode_spclr : decode 0b0000000000000000_00000000_00001010 = .instr .spclr := by decide
theorem test_decode_enc : decode 0b0000000000000000_11111111_00010000 = .instr (.enc 255) := by decide
theorem test_decode_dec : decode 0b0000000000000000_00000000_00010001 = .instr .dec := by decide

/-- The words of V-CTL-1, and 0x00010410, are ILLEGAL. -/
theorem test_decode_illegal :
    [0x00000012, 0x0000000B, 0x000000FF, 0x00010000, 0x00000101, 0x00000111, 0x00000100, 0x00010410].map
        (fun w => decode (BitVec.ofNat 32 w)) =
      [.illegal .unassignedOpcode, .illegal .unassignedOpcode, .illegal .unassignedOpcode, .illegal .reservedField,
        .illegal .unusedArg, .illegal .unusedArg, .illegal .unusedArg, .illegal .reservedField] := by decide

/-! ## Helpers -/

/-- The state a step leads to. -/
def after (o : Host.Outcome State Fault Refusal) : State :=
  match o with
  | .next t => t
  | .fault _ => State.reset
  | .refused _ => State.reset

/-- The reset state with other registers. -/
def withRegs (r : Regs) : State := { State.reset with regs := r }

/-- The reset state with bytes written to FBUF from offset 0 on, and FLEN. -/
def withFrame (bs : List Byte) (flen : BitVec 16) : State :=
  { State.reset with mem := State.reset.mem.writeFbuf 0 bs, regs := { Regs.reset with flen := flen } }

/-- The reset state with a word in flight, and the events to come. -/
def inFlightState (w : Word) (events : List Event) : State := (State.reset.accept w).setInbox events

/-- A word read at an offset. -/
def readWord (s : State) (a : Offset) : Option Response := (s.access (.read a .word)).resp

/-! ## Meanings -/

/-- The example of R186. -/
theorem test_nop :
    (after (step (((withRegs { Regs.reset with done := true, err := .tooSmall }).accept 0)))).statusWord =
      0x00000002 := by decide

/-- V-PROF-1. -/
theorem test_fsize : (after (exec (.fsize 1) State.reset)).regs.result = 569 := by decide +kernel
theorem test_fsize_unknown : (after (exec (.fsize 4) State.reset)).statusWord = 0x00000102 := by decide

/-- V-Q-1: QUANT 8 of 0.3 and of −0.3 with scale 1.0. -/
theorem test_quant :
    (after (exec (.quant 8) (withRegs { Regs.reset with xin := 0x3FD3333333333333, scale := 0x3FF0000000000000 }))).regs.result
      = 166 := by decide +kernel
theorem test_quant_negative :
    (after (exec (.quant 8) (withRegs { Regs.reset with xin := 0xBFD3333333333333, scale := 0x3FF0000000000000 }))).regs.result
      = 89 := by decide +kernel

/-- The example of R274, and V-DQ-3. -/
theorem test_dequant :
    (after (exec (.dequant 4) (withRegs { Regs.reset with value := 8, scale := 0x3FF0000000000000 }))).regs.xout =
      0x3FB1111111111110 := by decide
theorem test_dequant_errors :
    [0, 33].map (fun b => (after (exec (.dequant b) State.reset)).statusWord) = [0x00000502, 0x00000502] := by decide

/-- V-BIT-3 and V-BIT-4. -/
theorem test_wrbits_crosses_bytes :
    (after (exec (.wrbits 32)
      { withFrame [0, 0, 0, 0, 0] 0 with regs := { Regs.reset with bitidx := 7, value := 0xFFFFFFFF } })).mem.bytes 0x8000 5 =
      [0x01, 0xFF, 0xFF, 0xFF, 0xFE] := by decide
theorem test_wrbits_ors :
    (after (exec (.wrbits 4) { withFrame [0x0F] 0 with regs := { Regs.reset with value := 0xA } })).mem.byte 0x8000 =
      0xAF := by decide

/-- The bytes of V-BIT-1 read as in V-BIT-2, at byte 0: 12 bits, and past the valid bytes. -/
theorem test_rdbits :
    (after (exec (.rdbits 12) (withFrame [0xBF, 0x3A, 0xBC, 0xD0] 4))).regs.result = 0xBF3 := by decide +kernel
theorem test_rdbits_truncates :
    (after (exec (.rdbits 8)
      { withFrame [0xBF, 0x3A] 2 with regs := { Regs.reset with flen := 2, bitidx := 12 } })).statusWord = 0x0000000A := by
  decide +kernel

/-- V-BIT-6, and SPCLR's example (R228), on one location each. -/
theorem test_fbclr : (after (exec .fbclr (withFrame [0xFF] 0))).mem.byte 0x8000 = 0 := by decide +kernel
theorem test_spclr : (after (exec .spclr State.reset)).mem.byte 0x7FFF = 0 := by decide +kernel

/-- V-HERM-2. -/
theorem test_herm_unknown : (after (exec (.herm 4) State.reset)).statusWord = 0x00000102 := by decide
/-- The mirror of three bins of a buffer of 1024 elements (R317): element 1023 is the conjugate of element 1. -/
theorem test_herm_mirror :
    ((hermitian negBits 0 [5, 3, 7]).getD 1023 0, (hermitian negBits 0 [5, 3, 7]).getD 3 9) =
      (0x8000000000000003, 0) := by decide +kernel

/-- The sample entries of R221. -/
theorem test_fft_reversal :
    [0, 1, 2, 3, 4, 5, 511, 512, 513, 1023].map rev = [0, 512, 256, 768, 128, 640, 1022, 1, 513, 1023] := by decide
/-- A butterfly at j = 1 of stage 2 of the inverse transform, by hand from R223: u = (1, 0), x = (0, 1), w = (0, −1):
v = (1, 0), so u + v = (2, 0) and u − v = (0, 0). -/
theorem test_fft_butterfly :
    (butterfly [] ⟨Fp.ofNat 1, Fp.zero⟩ ⟨Fp.zero, Fp.ofNat 1⟩ (twiddleStep true 2)).1.re.toBits = 0x4000000000000000 ∧
      (butterfly [] ⟨Fp.ofNat 1, Fp.zero⟩ ⟨Fp.zero, Fp.ofNat 1⟩ (twiddleStep true 2)).2.re.toBits = 0 := by decide +kernel

/-- The header of V-ENC-1 for profile 0, and its scale. -/
theorem test_enc_header :
    encHeader [] 0 (encScale []) 0 = [0x02, 0xA0, 0x00, 0x00, 0x5F, 0x70, 0x89, 0x30, 0, 0, 0, 0] := by decide +kernel
/-- V-ENC-8: the checks in their order. -/
theorem test_enc_errors :
    [4, 3].map (fun p => (after (exec (.enc p) State.reset)).statusWord) = [0x00000102, 0x00000202] := by decide

/-- V-DEC-3: a short frame, and a wrong version. -/
theorem test_dec_errors :
    (after (exec .dec (withFrame [1] 11))).statusWord = 0x00000302 ∧
      (after (exec .dec (withFrame [1] 12))).statusWord = 0x00000402 := by decide
/-- V-DQ-2: the scale of the silent frame as an f64. -/
theorem test_dec_scale :
    (decScale [] [0x02, 0xA0, 0x00, 0x00, 0x5F, 0x70, 0x89, 0x30]).toBits = 0x3E112E0BE0000000 := by decide

/-! ## The bus and the lifecycle -/

/-- V-BUS-1: bus errors, a reserved offset, the constants. -/
theorem test_bus_errors :
    [(0x024, Size.byte), (0x100, .word), (0x8001, .half), (0x014, .word)].map
        (fun x => (State.reset.access (.read (BitVec.ofNat 16 x.1) x.2)).resp) =
      [some ⟨0, true⟩, some ⟨0, true⟩, some ⟨0, true⟩, some ⟨0, false⟩] := by decide
theorem test_bus_constants :
    [0x000, 0x004, 0x008, 0x00C, 0x010].map (fun a => readWord State.reset (BitVec.ofNat 16 a)) =
      [some ⟨2, false⟩, some ⟨1024, false⟩, some ⟨48000, false⟩, some ⟨12, false⟩, some ⟨1024, false⟩] := by decide

/-- V-PROF-1: the profile registers of profile 1, whose frame has 569 bytes. -/
theorem test_bus_profile_registers :
    [0x084, 0x094, 0x0A4, 0x0B4].map (fun a => readWord State.reset (BitVec.ofNat 16 a)) =
      [some ⟨256, false⟩, some ⟨4452, false⟩, some ⟨557, false⟩, some ⟨569, false⟩] := by decide +kernel

/-- The clamp of FLEN (R28). -/
theorem test_bus_flen_clamp :
    readWord (State.reset.access (.write 0x034 .word 0x12345)) 0x034 = some ⟨0x1000, false⟩ := by decide

/-- V-CTL-2: acceptance, a dropped CMD write, completion, and irq. -/
theorem test_lifecycle_overrun :
    ((withRegs { Regs.reset with ie := true }).access (.write 0x028 .word 0x0A)).statusWord = 0x00000001 ∧
      (((withRegs { Regs.reset with ie := true }).access (.write 0x028 .word 0x0A)).access
        (.write 0x028 .word 0x09)).statusWord = 0x00000005 := by decide
theorem test_lifecycle_irq :
    (after (step ((withRegs { Regs.reset with ie := true, ovr := true }).accept 0))).statusWord = 0x00000006 ∧
      (after (step ((withRegs { Regs.reset with ie := true, ovr := true }).accept 0))).irq = true := by decide

/-- V-CTL-3: CTRL = 3 resets, also while a command is in flight, and DONE is not set. -/
theorem test_soft_reset :
    ((inFlightState 0 []).access (.write 0x020 .word 3)).statusWord = 0 ∧
      ((inFlightState 0 []).access (.write 0x020 .word 3)).regs.ie = false := by decide

/-- The listings of R152: `RUN` with one poll that sees BUSY. -/
theorem test_run_listing :
    runEvents .nop 1 = [.host (.write 0x028 .word 0), .host (.read 0x024 .word), .engine,
      .host (.read 0x024 .word)] := by decide

/-! ## Witnesses: states and operands that meet the hypotheses of the obligations -/

theorem witness_DecodeOfEncodeIsTheCommand :
    (Instr.enc 255).wellFormed = true ∧ (Instr.quant 0).wellFormed = true ∧ Instr.dec.wellFormed = true := by decide

theorem witness_EncodeOfDecodeIsTheWord : decode 0x0000FF10 = .instr (.enc 255) := by decide

theorem witness_IllegalWordsAreExactlyThese :
    [0x00010000, 0x00000100, 0x00000111, 0x0B, 0x0F, 0x12, 0xFF].all
        (fun w => match decode (BitVec.ofNat 32 w) with | .illegal _ => true | .instr _ => false) = true ∧
      [0x0A, 0x10, 0x11, 0xFF03].all
        (fun w => match decode (BitVec.ofNat 32 w) with | .illegal _ => false | .instr _ => true) = true := by decide

theorem witness_StepRunsTheDecodedCommand :
    (∃ f, (inFlightState 0x108 []).inFlight = some f ∧ decode f.word = .instr (.fsize 1) ∧
      (inFlightState 0x108 []).inbox = []) ∧
    (∃ f, (inFlightState 0x108 [.engine, .powerOn]).inFlight = some f ∧ decode f.word = .instr (.fsize 1) ∧
      (inFlightState 0x108 [.engine, .powerOn]).inbox = .engine :: [.powerOn]) ∧
    (inFlightState 0x108 [.host (.read 0x024 .word), .engine]).inbox = .host (.read 0x024 .word) :: [.engine] :=
  ⟨⟨_, rfl, by decide, rfl⟩, ⟨_, rfl, by decide, rfl⟩, rfl⟩

theorem witness_CmdWriteIsAccepted :
    (State.reset.setInbox [.host (.write 0x028 .word 0x11)]).inFlight = none ∧
      (State.reset.setInbox [.host (.write 0x028 .word 0x11)]).inbox = .host (.write 0x028 .word 0x11) :: [] := by decide

theorem witness_CmdWriteWhileBusySetsStickyOverrun :
    (∃ f, (inFlightState 0x0A [.host (.write 0x028 .word 9)]).inFlight = some f ∧
      (inFlightState 0x0A [.host (.write 0x028 .word 9)]).inbox = .host (.write 0x028 .word 9) :: []) ∧
    (∃ s t : State, step s = .next t ∧ s.regs.ovr = true ∧ t.regs.ovr = false) :=
  ⟨⟨_, rfl, rfl⟩,
    ⟨(withRegs { Regs.reset with ovr := true }).setInbox [.host (.write 0x024 .word 4)], _, rfl, by decide, by decide⟩⟩

theorem witness_IllegalWordCompletesWithIllegalCommand :
    decode 0x12 = .illegal .unassignedOpcode ∧
      (State.reset.setInbox [.host (.write 0x028 .word 0x12), .engine]).inFlight = none ∧
      (State.reset.setInbox [.host (.write 0x028 .word 0x12), .engine]).inbox =
        [.host (.write 0x028 .word 0x12), .engine] ∧
      ∃ f, (inFlightState 0x12 [.engine]).inFlight = some f ∧ f.word = 0x12 ∧
        (inFlightState 0x12 [.engine]).inbox = .engine :: [] :=
  ⟨by decide, rfl, rfl, _, rfl, rfl, rfl⟩

theorem witness_EveryStepAnswersNext :
    State.reset.inFlight = none ∧ State.reset.inbox = [] ∧
      (State.reset.setInbox [.engine]).inFlight = none ∧ (State.reset.setInbox [.engine]).inbox = .engine :: [] := by
  decide

theorem witness_CommandInFlightEnds : (inFlightState 0x01 [.host (.read 0x024 .word)]).inFlight ≠ none := by decide

theorem witness_ErrorsArePrecise :
    ∃ (s t : State) (f : InFlight), s.inv = true ∧ s.inFlight = some f ∧ s.inbox = [] ∧ step s = .next t ∧
      t.regs.err ≠ .success :=
  ⟨inFlightState 0x408 [], _, _, by decide, rfl, rfl, rfl, by decide⟩

theorem witness_WriteSetsAreExact :
    (∃ t, exec (.enc 0) (withRegs { Regs.reset with nsamp := 1024 }) = .next t ∧
      ¬ inRanges 0x1000 (memWrites (.enc 0) (withRegs { Regs.reset with nsamp := 1024 }).inRegs)) ∧
    (∃ t, step (inFlightState 0 []) = .next t) :=
  ⟨⟨_, rfl, by simp [inRanges, memWrites, fbufBase, reBase, imBase]⟩, ⟨_, rfl⟩⟩

theorem witness_StepKeepsTheInvariant :
    ∃ t, (inFlightState 0x0A []).inv = true ∧ step (inFlightState 0x0A []) = .next t := ⟨_, by decide, rfl⟩

theorem witness_PowerOnResetLeavesTheResetValues :
    ((inFlightState 0 []).setInbox [.powerOn, .engine]).inbox = .powerOn :: [.engine] := by decide

/-- The last PROF register of each row of R207, read while a command is in flight. -/
theorem test_bus_profile_registers_busy :
    [0x08C, 0x09C, 0x0AC, 0x0BC].map (fun a => readWord (inFlightState 0 []) (BitVec.ofNat 16 a)) =
      [some ⟨512, false⟩, some ⟨16384, false⟩, some ⟨2048, false⟩, some ⟨2060, false⟩] := by decide +kernel

theorem witness_SoftResetResetsAndAborts :
    (0x2 : Word).getLsbD 1 = true ∧
      (State.reset.setInbox [.host (.write 0x020 .word 2)]).inFlight = none ∧
      (State.reset.setInbox [.host (.write 0x020 .word 2)]).inbox = .host (.write 0x020 .word 2) :: [] ∧
      (∃ f, (inFlightState 0x0A [.host (.write 0x020 .word 2)]).inFlight = some f ∧
        inRanges 0x4000 (abortRanges f) ∧ ¬ inRanges 0x8000 (abortRanges f)) := by
  refine ⟨by decide, by decide, by decide, _, rfl, ?_, ?_⟩
  · exact ⟨(0x4000, 8192), List.mem_cons_self, by decide, by decide⟩
  · rintro ⟨r, hr, h⟩
    have e : abortRanges { word := 0x0A, regs := State.reset.regs.accepting 0x0A, mem := State.reset.mem } =
        [(0x4000, 8192), (0x6000, 8192)] := by decide
    rw [e] at hr
    simp only [List.mem_cons, List.not_mem_nil, or_false] at hr
    rcases hr with rfl | rfl
    · exact absurd h.2 (by decide)
    · exact absurd h.2 (by decide)

/-- The boundary offsets of the clauses of IllegalAccessesHaveNoEffect: which accesses are legal. -/
theorem witness_IllegalAccessesHaveNoEffect :
    [(0x0FC, Size.word), (0x1000, .word), (0x2FFC, .word), (0x4000, .word), (0x7FFC, .word), (0x8000, .word),
        (0x8FFF, .byte), (0x8FFE, .half), (0xC000, .byte), (0xC7FC, .word)].all
        (fun x => (legalRegion x.1 x.2).isSome) = true ∧
      [(0x100, Size.word), (0x0FC, .half), (0x0FFC, .word), (0x3000, .word), (0x3FFC, .word), (0x7FFE, .word),
        (0x8FFF, .half), (0x9000, .byte), (0xBFFF, .byte), (0xC800, .byte), (0xFFFF, .byte)].all
        (fun x => (legalRegion x.1 x.2).isNone) = true := by decide

theorem witness_ReadsHaveNoSideEffect : State.reset.inFlight = none := by decide

theorem witness_BusyReadsAreDrawsOrValues :
    (∃ f, (inFlightState 0 []).inFlight = some f) ∧
      [0x02C, 0x060, 0x1000, 0x2FFC, 0x4000, 0x7FFC].all
        (fun a => decide (a % Size.word.bytes = 0 ∧ ((0x02C ≤ a ∧ a ≤ 0x060) ∨ (0x1000 ≤ a ∧ a < 0x3000) ∨
          (0x4000 ≤ a ∧ a < 0x8000)))) = true ∧
      [(0x8000, Size.byte), (0x8FFF, .byte), (0x8FFE, .half), (0x8FFC, .word)].all
        (fun x => decide (x.1 % x.2.bytes = 0 ∧ 0x8000 ≤ x.1 ∧ x.1 < 0x9000)) = true ∧
      [0x000, 0x010, 0x020, 0x028, 0x080, 0x0BC].all
        (fun a => decide (a % 4 = 0 ∧ (a ≤ 0x010 ∨ (0x020 ≤ a ∧ a ≤ 0x028) ∨ (0x080 ≤ a ∧ a < 0x0C0)))) = true ∧
      [0x014, 0x01C, 0x064, 0x07C, 0x0C0, 0x0FC].all (fun a => decide (a % 4 = 0 ∧ ((0x014 ≤ a ∧ a ≤ 0x01C) ∨
        (0x064 ≤ a ∧ a ≤ 0x07C) ∨ (0x0C0 ≤ a ∧ a ≤ 0x0FC)))) = true ∧
      [(0xC000, Size.byte), (0xC7FF, .byte), (0xC7FE, .half), (0xC7FC, .word)].all
        (fun x => decide (x.1 % x.2.bytes = 0 ∧ 0xC000 ≤ x.1 ∧ x.1 < 0xC800)) = true :=
  ⟨⟨_, rfl⟩, by decide, by decide, by decide, by decide, by decide⟩

theorem witness_BusyWritesAreDropped :
    (∃ f, (inFlightState 0 []).inFlight = some f) ∧ (0x034 : Offset).toNat ≠ 0x020 ∧ (0x034 : Offset).toNat ≠ 0x024 ∧
      (0x034 : Offset).toNat ≠ 0x028 := ⟨⟨_, rfl⟩, by decide, by decide, by decide⟩

theorem witness_FbufAccessesMoveBytes :
    State.reset.inFlight = none ∧ (0x8000 : Offset).toNat % Size.word.bytes = 0 ∧ 0x8000 ≤ (0x8000 : Offset).toNat ∧
      (0x8FFF : Offset).toNat % Size.byte.bytes = 0 ∧ (0x8FFF : Offset).toNat < 0x9000 := by decide

theorem witness_SpectrumWordsAreHalvesOfElements : State.reset.inFlight = none ∧ 0 < 1024 ∧ 1023 < 1024 := by decide

theorem witness_WritableRegistersReadBack :
    State.reset.inFlight = none ∧ (0x05C : Offset) ∈ [0x03C, 0x040, 0x048, 0x04C, 0x058, (0x05C : Offset)] ∧
      (0x038 : Offset) ∈ [0x030, (0x038 : Offset)] ∧ (0x1 : Word).getLsbD 1 = false ∧
      [0x014, 0x01C, 0x064, 0x07C, 0x0C0, 0x0FC].all (fun a => decide (a % 4 = 0 ∧ ((0x014 ≤ a ∧ a ≤ 0x01C) ∨
        (0x064 ≤ a ∧ a ≤ 0x07C) ∨ (0x0C0 ≤ a ∧ a ≤ 0x0FC)))) = true := by decide

/-- A write of XIN_LO keeps XIN_HI (R33). -/
theorem test_bus_half_write :
    ((withRegs { Regs.reset with xin := 0x1111111122222222 }).access (.write 0x048 .word 0x33333333)).regs.xin =
      0x1111111133333333 := by decide

theorem witness_ReadOnlyLocationsIgnoreWrites :
    [0x000, 0x01C, 0x02C, 0x044, 0x050, 0x054, 0x060, 0x0FC, 0x2000, 0x2FFC].all
      (fun a => decide (a % Size.word.bytes = 0 ∧ (a ≤ 0x01C ∨ a = 0x02C ∨ a = 0x044 ∨ a = 0x050 ∨ a = 0x054 ∨
        (0x060 ≤ a ∧ a < 0x100) ∨ (0x2000 ≤ a ∧ a < 0x3000)))) = true ∧
      [(0xC000, Size.byte), (0xC7FF, .byte), (0xC7FE, .half), (0xC7FC, .word)].all
        (fun x => decide (x.1 % x.2.bytes = 0 ∧ 0xC000 ≤ x.1 ∧ x.1 < 0xC800)) = true := by decide

/-- V-BUS-1: an 8-bit write to PROM is ignored without a bus error. -/
theorem test_bus_prom_write :
    State.reset.access (.write 0xC000 .byte 0xFF) = { State.reset with resp := some ⟨0, false⟩ } := by decide

theorem witness_InterruptFollowsDoneAndEnable :
    (0x2 : Word).getLsbD 1 = true ∧ (0x2 : Word).getLsbD 2 = false ∧ (0x4 : Word).getLsbD 1 = false ∧
      (0x4 : Word).getLsbD 2 = true ∧ (0x4 : Word).getLsbD 0 = false ∧ (5 ≤ 5 ∧ 7 ≤ 7) ∧ 12 ≤ 12 := by decide

/-- The fields of STATUS at their places (R24), with the code of TooSmall (R340). -/
theorem test_status_word :
    readWord { withRegs { Regs.reset with trunc := true, err := .tooSmall } with inFlight := none } 0x024 =
        some ⟨0x00000308, false⟩ ∧
      readWord (withRegs { Regs.reset with fbk := true, done := true, err := .illegalCommand }) 0x024 =
        some ⟨0x00000612, false⟩ := by decide

theorem witness_SeqCountsSuccessfulEncodes :
    (∃ s t : State, step s = .next t ∧ t.regs.seq ≠ s.regs.seq ∧ s.inFlight ≠ none ∧ s.inbox = []) ∧
    (∃ s t : State, step s = .next t ∧ t.regs.seq ≠ s.regs.seq ∧ s.inbox ≠ []) := by
  refine ⟨⟨(withRegs { Regs.reset with nsamp := 1024, seq := 0xFFFFFFFF }).accept 0x10, _, rfl, ?_, by decide, rfl⟩,
    ⟨(withRegs { Regs.reset with seq := 1 }).setInbox [.host (.write 0x020 .word 2)], _, rfl, by decide, by decide⟩⟩
  show ((0xFFFFFFFF : Word) + 1) ≠ 0xFFFFFFFF
  decide

theorem witness_FsizeGivesTheFrameSize : 3 ≤ 3 ∧ 3 < 4 := by decide

theorem witness_FftfWritesTheForwardTransform : (List.replicate 1024 Cpx.zero).length = 1024 := List.length_replicate

theorem witness_FftiWritesTheInverseTransform : (List.replicate 1024 Cpx.zero).length = 1024 := List.length_replicate

theorem witness_ImpulseTransformsToAConstant :
    finiteBits 0x0000000000000001 = true ∧ (0x0000000000000001 : Word64).extractLsb' 0 63 ≠ 0 ∧
      [1020, 1021, 1022, 1023].map (· % 4) = [0, 1, 2, 3] ∧ 1023 < 1024 := by decide

theorem witness_HermMirrorsAndClears :
    3 ≤ 3 ∧ 3 < 4 ∧ 1 ≤ 511 ∧ 511 < binCount 3 ∧ binCount 3 ≤ 512 ∧ 512 ≤ 1024 - binCount 3 := by decide

theorem witness_QuantWritesTheQuantizedInteger :
    Fp.lt Fp.zero (Fp.ofBits (withRegs { Regs.reset with scale := 1 }).inRegs.scale) = true ∧
      Fp.lt Fp.zero (Fp.ofBits State.reset.inRegs.scale) = false ∧ (1 ≤ 32 ∧ 32 ≤ 32 ∧ 32 < 33) ∧
      finiteBits 0x7FEFFFFFFFFFFFFF = true := by decide +kernel

/-- The corners of R273 with the scale +∞, for b = 8: a finite x, and x = +∞. -/
theorem test_quant_infinite_scale :
    quantize [] (Fp.ofBits 0x7FEFFFFFFFFFFFFF) (Fp.ofBits 0x7FF0000000000000) 8 = 128 ∧
      quantize [] (Fp.ofBits 0x7FF0000000000000) (Fp.ofBits 0x7FF0000000000000) 8 = 0 := by decide +kernel

theorem witness_QuantizerClipsAndMapsNaNToZero :
    finiteBits 0x3FF0000000000000 = true ∧ Fp.lt Fp.zero (Fp.ofBits 0x3FF0000000000000) = true ∧
      Fp.lt (Fp.ofBits 0x3FF0000000000000) (.inf false) = true ∧
      Fp.lt (Fp.ofBits 0xC000000000000000) (Fp.ofBits 0x3FF0000000000000).neg = true ∧
      (Fp.ofBits 0x7FF8000000000000).isNaN = true := by decide +kernel

theorem witness_ZeroQuantizesToTheUpperMiddle :
    finiteBits 0x0000000000000001 = true ∧ Fp.lt Fp.zero (Fp.ofBits 0x0000000000000001) = true := by decide +kernel

theorem witness_DequantWritesTheLevel : 1 ≤ 32 ∧ 32 ≤ 32 ∧ 32 < 33 := by decide

theorem witness_OutermostLevelsAreExact : finiteBits 0x7FEFFFFFFFFFFFFF = true ∧ 1 ≤ 1 ∧ 1 ≤ 32 := by decide

theorem witness_WrbitsOrsTheFieldIn :
    (withRegs { Regs.reset with bitidx := 32736 }).inMem = (withRegs { Regs.reset with bitidx := 32736 }).mem ∧
      8 * (withRegs { Regs.reset with bitidx := 32736 }).inRegs.boff.toNat +
        (withRegs { Regs.reset with bitidx := 32736 }).inRegs.bitidx.toNat + 32 = 8 * 4096 := by decide

theorem witness_RdbitsReadsTheField :
    (withRegs { Regs.reset with flen := 4096 }).inRegs.flen.toNat ≤ 4096 := by decide

/-- WRBITS 32 accepted on four zero bytes, then RDBITS 32 accepted on what it leaves, with BITIDX back at 0. -/
theorem witness_BitCodecRoundTrip :
    ∃ (s u t : State) (f g : InFlight), s = (withFrame [0, 0, 0, 0] 4).accept 0x2006 ∧ s.inFlight = some f ∧
      f.mem = s.mem ∧ 8 * f.regs.boff.toNat + f.regs.bitidx.toNat = 0 ∧ (∀ q < 0 + 32, f.mem.fbufBit q = false) ∧
      exec (.wrbits 32) s = .next t ∧ u = (t.setRegs { t.regs with bitidx := 0 }).accept 0x2007 ∧
      u.inFlight = some g ∧ g.mem = t.mem ∧ 8 * g.regs.boff.toNat + g.regs.bitidx.toNat = 0 ∧
      0 + 32 ≤ 8 * g.regs.flen.toNat ∧ g.regs.flen.toNat ≤ 4096 :=
  ⟨_, _, _, _, _, rfl, rfl, rfl, by decide, by decide, rfl, rfl, rfl, rfl, by decide, by decide, by decide⟩

theorem witness_EncWritesTheFrame : (withRegs { Regs.reset with nsamp := 1024 }).inRegs.nsamp = 1024 := by decide

theorem witness_EncPayloadHoldsTheQuantizedBins :
    (withRegs { Regs.reset with nsamp := 1024 }).inRegs.nsamp = 1024 ∧ 511 < binCount 3 ∧
      ∃ t, exec (.enc 3) (withRegs { Regs.reset with nsamp := 1024 }) = .next t := ⟨by decide, by decide, _, rfl⟩

theorem witness_EncChecksProfileThenLength : State.reset.inRegs.nsamp ≠ 1024 ∧ 3 < 4 := by decide

theorem witness_EncScaleBoundsTheBins : Cpx.zero ∈ [Cpx.zero] := by decide

theorem witness_DecWritesTheSamples :
    12 ≤ (withFrame [2] 12).inRegs.flen.toNat ∧ (withFrame [2] 12).inRegs.flen.toNat ≤ 4096 ∧
      (withFrame [2] 12).inMem.byte 0x8000 = 2 ∧ (withFrame [2] 4096).inRegs.flen.toNat ≤ 4096 := by decide

theorem witness_DecReadsTheFields : 159 < binCount 0 ∧ 511 < binCount 3 := by decide

theorem witness_DecChecksLengthThenVersion :
    (withFrame [1] 11).inRegs.flen.toNat < 12 ∧ 12 ≤ (withFrame [1] 12).inRegs.flen.toNat ∧
      (withFrame [1] 12).inMem.byte 0x8000 ≠ 2 := by decide

/-- Two frames that differ only in the reserved byte 3. -/
theorem witness_DecIgnoresTheBytesItMustNotRead :
    ∃ s s' t t' : State, s'.draws = s.draws ∧ s'.inRegs.flen = s.inRegs.flen ∧ s.inRegs.flen.toNat ≤ 4096 ∧
      (∀ a < frameBytes (lookupDec (s.inMem.byte 0x8002).toNat).1, a ≠ 1 → a ≠ 3 → a < 8 ∨ 11 < a →
        s'.inMem.byte (0x8000 + a) = s.inMem.byte (0x8000 + a)) ∧
      s'.inMem.byte 0x8003 ≠ s.inMem.byte 0x8003 ∧ exec .dec s = .next t ∧ exec .dec s' = .next t' := by
  refine ⟨withFrame [1, 0, 0, 0] 12, withFrame [1, 0, 0, 7] 12, _, _, rfl, rfl, by decide, ?_, by decide, rfl, rfl⟩
  intro a _ _ h3 _
  show (State.reset.mem.writeFbuf 0 [1, 0, 0, 7]).byte (0x8000 + a) =
    (State.reset.mem.writeFbuf 0 [1, 0, 0, 0]).byte (0x8000 + a)
  unfold Memory.writeFbuf
  rw [byte_writeBlock, byte_writeBlock]
  by_cases h : a < 4
  · interval_cases a
    · rfl
    · rfl
    · rfl
    · exact absurd rfl h3
  · rw [if_neg (by simp only [fbufBase, List.length_cons, List.length_nil]; omega),
      if_neg (by simp only [fbufBase, List.length_cons, List.length_nil]; omega)]

theorem witness_DecodedSpectrumIsHermitian :
    1 ≤ [Cpx.zero].length ∧ [Cpx.zero].length ≤ 512 ∧ (List.replicate 512 Cpx.zero).length ≤ 512 :=
  ⟨by decide, by decide, by rw [List.length_replicate]⟩

theorem witness_PromReadsTheWeights :
    3 < 4 ∧ 511 < 512 ∧ [(0xC000, Size.byte), (0xC7FF, .byte), (0xC7FE, .half), (0xC7FC, .word)].all
      (fun x => decide (x.1 % x.2.bytes = 0 ∧ 0xC000 ≤ x.1 ∧ x.1 < 0xC800)) = true := by decide

/-- The weights of bins 0 to 3 of profile 0 (R206), little-endian in one word (R86). -/
theorem test_bus_prom_word : readWord State.reset 0xC000 = some ⟨0x0B0C0505, false⟩ := by decide +kernel

theorem witness_Binary64EncodingsAreKept :
    ((0x7FEFFFFFFFFFFFFF : Word64).extractLsb' 52 11).toNat = 2046 ∧
      ((0xFFF0000000000000 : Word64).extractLsb' 52 11).toNat = 2047 ∧
      ((0xFFF0000000000000 : Word64).extractLsb' 0 52).toNat = 0 ∧
      ((0xFFF0000000000001 : Word64).extractLsb' 52 11).toNat = 2047 ∧
      ((0xFFF0000000000001 : Word64).extractLsb' 0 52).toNat = 1 := by decide

theorem witness_NaNsPropagate :
    (Fp.ofBits 0xFFF0000000000001).isNaN = true ∧ (0xFF800001 : Word).extractLsb' 23 8 = 255 ∧
      (0xFF800001 : Word).extractLsb' 0 23 ≠ 0 := by decide

/-- Ties to even, by hand: 2^53 + 1 and 2^53 + 3 in binary64. -/
theorem test_round_ties_to_even :
    roundTo binary64 false (2 ^ 53 + 1) 0 = .fin false (2 ^ 52) 1 ∧
      roundTo binary64 false (2 ^ 53 + 3) 0 = .fin false (2 ^ 52 + 2) 1 := by decide +kernel

theorem witness_UnitProductsAndZeroSumsAreExact :
    finiteBits 0x8000000000000001 = true ∧ (0x8000000000000001 : Word64).extractLsb' 0 63 ≠ 0 ∧
      Fp.ofBits 0x8000000000000001 = .fin true 1 (-1074) ∧
      Fp.ofBits 0x7FEFFFFFFFFFFFFF = .fin false (2 ^ 53 - 1) 971 ∧
      signedValue true (magnitude 1 (-1074)) ≠ 0 ∧
      ((0x7F7FFFFF : Word).extractLsb' 23 8).toNat ≠ 255 ∧ ((0x7F800000 : Word).extractLsb' 23 8).toNat = 255 ∧
      ((0x7F800000 : Word).extractLsb' 0 23).toNat = 0 :=
  ⟨by decide, by decide, by decide, by decide +kernel, by simp [signedValue, magnitude], by decide, by decide, by decide⟩

end Sys2Proof.Tests
end

section
/-! SUPPORT. Rounding to an integer (00_scope.md R12): `roundHalfUp` as one floor division for a value in units of
`2^(-k)`, and the interval of half-width 1/2 that determines its result. -/

namespace Sys2Proof.RoundHalfUp

theorem signedMant_eq_ite (neg : Bool) (m : Nat) : signedMant neg m = if neg then -(m : Int) else m := rfl

theorem signedMant_mul (neg : Bool) (m n : Nat) : signedMant neg (m * n) = signedMant neg m * n := by
  cases neg with
  | false => exact Int.natCast_mul m n
  | true => simp [signedMant]

theorem roundHalfUp_natCast (neg : Bool) (m k : Nat) : roundHalfUp neg m (k : Int) = signedMant neg m * 2 ^ k := by
  rw [roundHalfUp, if_pos (Int.natCast_nonneg k), Int.toNat_natCast, signedMant_mul, Nat.cast_pow, Nat.cast_ofNat]

/-- `⌊v + 1/2⌋`, also at `k = 0`, where the model takes the exponent as one that is not negative. -/
theorem roundHalfUp_neg_natCast (neg : Bool) (m k : Nat) :
    roundHalfUp neg m (-(k : Int)) = (2 * signedMant neg m + 2 ^ k) / 2 ^ (k + 1) := by
  cases k with
  | zero =>
    have h := roundHalfUp_natCast neg m 0
    simp only [Nat.cast_zero, pow_zero, mul_one] at h
    simp only [Nat.cast_zero, neg_zero, h]
    omega
  | succ k =>
    have hneg : ¬ (-((k + 1 : Nat) : Int) ≥ 0) := by omega
    rw [roundHalfUp, if_neg hneg, neg_neg, Int.toNat_natCast]

/-- `(2x + d) / 2d` is `v + 1/2` for `v = x / d`: its floor is the only integer in `(v - 1/2, v + 1/2]`. -/
theorem half_up_ediv_eq_iff {x d r : Int} (hd : 0 < d) :
    (2 * x + d) / (d * 2) = r ↔ 2 * x - d < r * (d * 2) ∧ r * (d * 2) ≤ 2 * x + d := by
  rw [Int.ediv_eq_iff_of_pos (by omega)]
  omega

/-- Settles O58: the floor division is determined by its half-open interval. -/
theorem roundHalfUpIsNearest : Obligations.RoundHalfUpIsNearest := by
  intro neg m k r
  rw [← signedMant_eq_ite]
  constructor
  · rw [roundHalfUp_neg_natCast, pow_succ]
    exact half_up_ediv_eq_iff (Int.pow_pos two_pos)
  · exact roundHalfUp_natCast neg m k

end Sys2Proof.RoundHalfUp
end

section
/-! SUPPORT. The working memories through the idle bus (20_memory.md R86, R88 to R90): a legal access to one of
them as one read or one write of little-endian bytes, and a 64-bit element as its two words. -/

namespace Sys2Proof.BusMemory

open Sys2Proof Sys2Proof.Machine

/-! ## Byte `k` of a number (R86) -/

theorem leBytes_getD (n v k : Nat) (h : k < n) : (leBytes n v).getD k 0 = BitVec.ofNat 8 (v / 256 ^ k) := by
  induction n generalizing v k with
  | zero => omega
  | succ n ih =>
    cases k with
    | zero => simp [leBytes]
    | succ k =>
      rw [leBytes, List.getD_cons_succ, ih _ _ (by omega), Nat.div_div_eq_div_mul, ← Nat.pow_succ']

theorem leNat_lt (bs : List Byte) : leNat bs < 256 ^ bs.length := by
  induction bs with
  | nil => exact Nat.one_pos
  | cons b bs ih =>
    rw [leNat, List.length_cons, Nat.pow_succ']
    have := b.isLt
    omega

theorem leNat_append (xs ys : List Byte) : leNat (xs ++ ys) = leNat xs + 256 ^ xs.length * leNat ys := by
  induction xs with
  | nil => simp [leNat]
  | cons x xs ih => rw [List.cons_append, leNat, leNat, ih, List.length_cons, Nat.pow_succ']; ring

theorem ofNat_leNat_div (bs : List Byte) (k : Nat) : BitVec.ofNat 8 (leNat bs / 256 ^ k) = bs.getD k 0 := by
  induction bs generalizing k with
  | nil => simp [leNat]
  | cons b bs ih =>
    have hb := b.isLt
    cases k with
    | zero =>
      apply BitVec.eq_of_toNat_eq
      simp only [leNat, Nat.pow_zero, Nat.div_one, BitVec.toNat_ofNat, List.getD_cons_zero]
      omega
    | succ k =>
      have hdrop : (b.toNat + 256 * leNat bs) / 256 = leNat bs := by omega
      rw [leNat, Nat.pow_succ', ← Nat.div_div_eq_div_mul, hdrop, ih, List.getD_cons_succ]

/-! ## Data of a read -/

theorem readData_toNat (bs : List Byte) (h : bs.length ≤ 4) : (readData bs).toNat = leNat bs := by
  rw [readData, BitVec.toNat_ofNat]
  exact Nat.mod_eq_of_lt ((leNat_lt bs).trans_le (Nat.pow_le_pow_right (n := 256) (by decide) h))

@[simp] theorem readData_leBytes (v : Word) : readData (leBytes 4 v.toNat) = v := by
  apply BitVec.eq_of_toNat_eq
  rw [readData_toNat _ (by simp), leNat_leBytes]
  exact Nat.mod_eq_of_lt v.isLt

/-- Eight bytes are two words, the high word four bytes on (R89). -/
theorem ofNat_leNat_append (xs ys : List Byte) (hx : xs.length = 4) (hy : ys.length = 4) :
    BitVec.ofNat 64 (leNat (xs ++ ys)) = readData ys ++ readData xs := by
  have hxlt := leNat_lt xs
  have hylt := leNat_lt ys
  rw [hx] at hxlt
  rw [hy] at hylt
  apply BitVec.eq_of_toNat_eq
  rw [BitVec.toNat_append, readData_toNat _ hx.le, readData_toNat _ hy.le, BitVec.toNat_ofNat, leNat_append, hx,
    ← Nat.shiftLeft_add_eq_or_of_lt (by omega), Nat.shiftLeft_eq]
  omega

/-! ## Runs of bytes -/

theorem bytes_getD (m : Memory) (a n k : Nat) (h : k < n) : (m.bytes a n).getD k 0 = m.byte (a + k) := by
  simp [Memory.bytes, List.getD_eq_getElem?_getD, h]

theorem bytes_add (m : Memory) (a j k : Nat) : m.bytes a (j + k) = m.bytes a j ++ m.bytes (a + j) k := by
  simp [Memory.bytes, List.range_add, Function.comp_def, Nat.add_assoc]

theorem bytes_writeBlock_same (m : Memory) (a : Nat) (bs : List Byte) :
    (m.writeBlock a bs).bytes a bs.length = bs :=
  bytes_eq_of_getD _ _ _ _ rfl (byte_writeBlock_inside m a bs)

/-! ## Words and doublewords of memory (R88, R89) -/

/-- The 32-bit word at an offset, as the bus moves it. -/
def wordAt (m : Memory) (a : Nat) : Word := readData (m.bytes a 4)

/-- The 64-bit element at an offset: what `Memory.reAt` and `Memory.imAt` read at theirs. -/
def doubleAt (m : Memory) (a : Nat) : Word64 := BitVec.ofNat 64 (leNat (m.bytes a 8))

/-- Memory after the bus has stored a 32-bit word. -/
def storeWord (m : Memory) (a : Nat) (v : Word) : Memory := m.writeBlock a (leBytes 4 v.toNat)

theorem pcmInAt_eq (m : Memory) (i : Nat) : m.pcmInAt i = wordAt m (0x1000 + 4 * i) := rfl

theorem pcmOutAt_eq (m : Memory) (i : Nat) : m.pcmOutAt i = wordAt m (0x2000 + 4 * i) := rfl

theorem reAt_eq (m : Memory) (i : Nat) : m.reAt i = doubleAt m (0x4000 + 8 * i) := rfl

theorem imAt_eq (m : Memory) (i : Nat) : m.imAt i = doubleAt m (0x6000 + 8 * i) := rfl

theorem doubleAt_eq (m : Memory) (a : Nat) : doubleAt m a = wordAt m (a + 4) ++ wordAt m a := by
  rw [doubleAt, bytes_add m a 4 4]
  exact ofNat_leNat_append _ _ (bytes_length m a 4) (bytes_length m (a + 4) 4)

theorem doubleAt_lo (m : Memory) (a : Nat) : (doubleAt m a).extractLsb' 0 32 = wordAt m a := by
  rw [doubleAt_eq]; exact BitVec.extractLsb'_append_eq_right

theorem doubleAt_hi (m : Memory) (a : Nat) : (doubleAt m a).extractLsb' 32 32 = wordAt m (a + 4) := by
  rw [doubleAt_eq]; exact BitVec.extractLsb'_append_eq_left

@[simp] theorem wordAt_storeWord_same (m : Memory) (a : Nat) (v : Word) : wordAt (storeWord m a v) a = v := by
  have h := bytes_writeBlock_same m a (leBytes 4 v.toNat)
  rw [leBytes_length] at h
  rw [wordAt, storeWord, h, readData_leBytes]

theorem wordAt_storeWord_other (m : Memory) (a b : Nat) (v : Word) (h : b + 4 ≤ a ∨ a + 4 ≤ b) :
    wordAt (storeWord m a v) b = wordAt m b := by
  rw [wordAt, storeWord, bytes_writeBlock_outside _ _ _ _ _ (by simpa using h), wordAt]

theorem byte_storeWord_outside (m : Memory) (a x : Nat) (v : Word) (h : x < a ∨ a + 4 ≤ x) :
    (storeWord m a v).byte x = m.byte x :=
  byte_writeBlock_outside _ _ _ _ (by simpa using h)

theorem doubleAt_storeWord_lo (m : Memory) (a : Nat) (v : Word) :
    doubleAt (storeWord m a v) a = (doubleAt m a).extractLsb' 32 32 ++ v := by
  rw [doubleAt_eq, wordAt_storeWord_same, wordAt_storeWord_other _ _ _ _ (by omega), doubleAt_hi]

theorem doubleAt_storeWord_hi (m : Memory) (a : Nat) (v : Word) :
    doubleAt (storeWord m (a + 4) v) a = v ++ (doubleAt m a).extractLsb' 0 32 := by
  rw [doubleAt_eq, wordAt_storeWord_same, wordAt_storeWord_other _ _ _ _ (by omega), doubleAt_lo]

/-! ## Legal accesses to the working memories -/

/-- The regions whose reads give bytes of memory: PCM_IN, PCM_OUT, RE, IM, FBUF (R81). -/
def holdsBytes (r : Region) : Bool := r != .regs && r != .prom

/-- The regions whose writes store bytes: PCM_IN, RE, IM, FBUF (R81, R88). -/
def storesBytes (r : Region) : Bool := holdsBytes r && r != .pcmOut

theorem holdsBytes_of_storesBytes {r : Region} (h : storesBytes r = true) : holdsBytes r = true :=
  (Bool.and_eq_true_iff.mp h).1

/-- An aligned access stays inside one aligned word (R85). -/
theorem aligned_access_div_four {a : Nat} {n : Size} (hn : a % n.bytes = 0) : (a + n.bytes - 1) / 4 = a / 4 := by
  cases n <;> simp only [Size.bytes] at hn ⊢ <;> omega

/-- No aligned access leaves its region, because the regions begin and end at multiples of 4 (R84 (d)). -/
theorem legalRegion_of_aligned {a : Nat} {n : Size} {r : Region} (hr : regionOf a = some r)
    (hn : a % n.bytes = 0) (hs : r.allows n = true) : legalRegion a n = some r := by
  refine legalRegion_of hr ?_ hn hs
  have hword := aligned_access_div_four hn
  rw [regionOf_some] at hr ⊢
  cases r <;> simp only at hr ⊢ <;> omega

theorem readIdle_of_holdsBytes (s : State) {r : Region} (h : holdsBytes r = true) (a : Nat) (n : Size) :
    s.readIdle r a n = readData (s.mem.bytes a n.bytes) := by
  cases r with
  | regs | prom => exact absurd h (by decide)
  | pcmIn | pcmOut | re | im | fbuf => rfl

theorem legalWrite_of_storesBytes {s : State} (hf : s.inFlight = none) {r : Region} (h : storesBytes r = true)
    (a : Nat) (n : Size) (v : Word) :
    s.legalWrite r a n v = s.setMem (s.mem.writeBlock a (leBytes n.bytes v.toNat)) := by
  cases r with
  | regs | prom | pcmOut => exact absurd h (by decide)
  | pcmIn | re | im | fbuf => simp [State.legalWrite, hf]

theorem access_read_idle {s : State} (hf : s.inFlight = none) {a : Offset} {n : Size} {r : Region}
    (hl : legalRegion a.toNat n = some r) (hr : holdsBytes r = true) :
    s.access (.read a n) = s.answer (readData (s.mem.bytes a.toNat n.bytes)) false := by
  simp [State.access, hl, State.legalRead, hf, readIdle_of_holdsBytes s hr]

theorem access_write_idle {s : State} (hf : s.inFlight = none) {a : Offset} {n : Size} {r : Region}
    (hl : legalRegion a.toNat n = some r) (hr : storesBytes r = true) (v : Word) :
    s.access (.write a n v) = (s.setMem (s.mem.writeBlock a.toNat (leBytes n.bytes v.toNat))).answer 0 false := by
  rw [access_write_legal hl, legalWrite_of_storesBytes hf hr]

/-! ## FBUF (R90) -/

/-- Settles O22: the access is one read or one write of `n` little-endian bytes. -/
theorem fbufAccessesMoveBytes : Obligations.FbufAccessesMoveBytes := by
  intro s a n v hf hn hlo hhi
  have hl : legalRegion a.toNat n = some .fbuf :=
    legalRegion_of_aligned ((regionOf_some _ .fbuf).mpr ⟨hlo, hhi⟩) hn rfl
  have hn4 : n.bytes ≤ 4 := by cases n <;> decide
  rw [access_write_idle hf hl rfl, access_read_idle hf hl rfl]
  refine ⟨⟨0, rfl⟩, fun k hk => ?_, fun x hx => ?_, _, rfl, fun k hk => ?_⟩
  · rw [answer_mem, setMem_mem, byte_writeBlock_inside _ _ _ _ (by simpa using hk), leBytes_getD _ _ _ hk]
  · exact byte_writeBlock_outside _ _ _ _ (by simpa using hx)
  · rw [readData_toNat _ (by simpa using hn4), ofNat_leNat_div, bytes_getD _ _ _ _ hk]

/-! ## Words of PCM_IN, PCM_OUT, RE and IM (R88, R89) -/

/-- An aligned word access at an offset given as a number. -/
theorem legalRegion_word {a : Nat} {r : Region} (hr : regionOf a = some r) (h4 : a % 4 = 0) :
    (BitVec.ofNat 16 a).toNat = a ∧ legalRegion (BitVec.ofNat 16 a).toNat .word = some r := by
  have ha : (BitVec.ofNat 16 a).toNat = a := by
    rw [BitVec.toNat_ofNat]
    rw [regionOf_some] at hr
    cases r <;> simp only at hr <;> omega
  refine ⟨ha, ?_⟩
  rw [ha]
  exact legalRegion_of_aligned hr h4 (by cases r <;> rfl)

theorem read_word {s : State} (hf : s.inFlight = none) {a : Nat} {r : Region} (hr : regionOf a = some r)
    (hb : holdsBytes r = true) (h4 : a % 4 = 0) :
    (s.access (.read (BitVec.ofNat 16 a) .word)).resp = some { data := wordAt s.mem a, error := false } := by
  obtain ⟨ha, hl⟩ := legalRegion_word hr h4
  rw [access_read_idle hf hl hb, ha]
  rfl

theorem write_word {s : State} (hf : s.inFlight = none) {a : Nat} {r : Region} (hr : regionOf a = some r)
    (hb : storesBytes r = true) (h4 : a % 4 = 0) (v : Word) :
    s.access (.write (BitVec.ofNat 16 a) .word v) = (s.setMem (storeWord s.mem a v)).answer 0 false := by
  obtain ⟨ha, hl⟩ := legalRegion_word hr h4
  rw [access_write_idle hf hl hb, ha]
  rfl

theorem write_word_pcmOut (s : State) {a : Nat} (hr : regionOf a = some .pcmOut) (h4 : a % 4 = 0) (v : Word) :
    s.access (.write (BitVec.ofNat 16 a) .word v) = s.answer 0 false :=
  access_write_legal (legalRegion_word hr h4).2

/-- What a write of one word leaves unchanged. -/
theorem write_word_frame {s : State} (hf : s.inFlight = none) {a : Nat} {r : Region} (hr : regionOf a = some r)
    (hb : storesBytes r = true) (h4 : a % 4 = 0) (v : Word) :
    (∀ x, x < a ∨ a + 4 ≤ x →
      (s.access (.write (BitVec.ofNat 16 a) .word v)).mem.byte x = s.mem.byte x) ∧
    ∃ d, s.access (.write (BitVec.ofNat 16 a) .word v) =
      { s with mem := (s.access (.write (BitVec.ofNat 16 a) .word v)).mem,
               resp := some { data := d, error := false } } := by
  rw [write_word hf hr hb h4]
  exact ⟨fun x hx => byte_storeWord_outside _ _ _ _ hx, 0, rfl⟩

/-- R89 for one 64-bit element at `b`, in RE or in IM: each word reads as a half, and a write of one half keeps the
other. -/
theorem element_words {s : State} (hf : s.inFlight = none) {b : Nat} {r : Region} (hlo : regionOf b = some r)
    (hhi : regionOf (b + 4) = some r) (hb : storesBytes r = true) (h4 : b % 4 = 0) (v : Word) :
    (s.access (.read (BitVec.ofNat 16 b) .word)).resp =
      some { data := (doubleAt s.mem b).extractLsb' 0 32, error := false } ∧
    (s.access (.read (BitVec.ofNat 16 (b + 4)) .word)).resp =
      some { data := (doubleAt s.mem b).extractLsb' 32 32, error := false } ∧
    doubleAt (s.access (.write (BitVec.ofNat 16 b) .word v)).mem b = (doubleAt s.mem b).extractLsb' 32 32 ++ v ∧
    doubleAt (s.access (.write (BitVec.ofNat 16 (b + 4)) .word v)).mem b =
      v ++ (doubleAt s.mem b).extractLsb' 0 32 := by
  have hh : holdsBytes r = true := holdsBytes_of_storesBytes hb
  have h4' : (b + 4) % 4 = 0 := by omega
  refine ⟨?_, ?_, ?_, ?_⟩
  · rw [read_word hf hlo hh h4, doubleAt_lo]
  · rw [read_word hf hhi hh h4', doubleAt_hi]
  · rw [write_word hf hlo hb h4]
    exact doubleAt_storeWord_lo _ _ _
  · rw [write_word hf hhi hb h4']
    exact doubleAt_storeWord_hi _ _ _

/-- Settles O23: each access is a read or a store of one word, and an element of RE or IM is its two words. -/
theorem spectrumWordsAreHalvesOfElements : Obligations.SpectrumWordsAreHalvesOfElements := by
  intro s i v hf hi
  have hin : regionOf (0x1000 + 4 * i) = some .pcmIn := (regionOf_some _ .pcmIn).mpr (by omega)
  have hout : regionOf (0x2000 + 4 * i) = some .pcmOut := (regionOf_some _ .pcmOut).mpr (by omega)
  have hreLo : regionOf (0x4000 + 8 * i) = some .re := (regionOf_some _ .re).mpr (by omega)
  have hreHi : regionOf (0x4000 + 8 * i + 4) = some .re := (regionOf_some _ .re).mpr (by omega)
  have himLo : regionOf (0x6000 + 8 * i) = some .im := (regionOf_some _ .im).mpr (by omega)
  have himHi : regionOf (0x6000 + 8 * i + 4) = some .im := (regionOf_some _ .im).mpr (by omega)
  obtain ⟨hReadReLo, hReadReHi, hWriteReLo, hWriteReHi⟩ := element_words hf hreLo hreHi rfl (by omega) v
  obtain ⟨hReadImLo, hReadImHi, hWriteImLo, hWriteImHi⟩ := element_words hf himLo himHi rfl (by omega) v
  simp only [pcmInAt_eq, pcmOutAt_eq, reAt_eq, imAt_eq]
  refine ⟨read_word hf hin rfl (by omega), read_word hf hout rfl (by omega), hReadReLo, hReadReHi, hReadImLo,
    hReadImHi, ?_, hWriteReLo, hWriteReHi, hWriteImLo, hWriteImHi, ?_, 0, write_word_pcmOut s hout (by omega) v⟩
  · rw [write_word hf hin rfl (by omega)]
    exact wordAt_storeWord_same _ _ _
  · simp only [List.forall_mem_cons]
    exact ⟨write_word_frame hf hin rfl (by omega) v, write_word_frame hf hreLo rfl (by omega) v,
      write_word_frame hf hreHi rfl (by omega) v, write_word_frame hf himLo rfl (by omega) v,
      write_word_frame hf himHi rfl (by omega) v, fun _ h => absurd h List.not_mem_nil⟩

end Sys2Proof.BusMemory
end

section
/-! SUPPORT. The command lifecycle (40_command.md R181 to R188): a CMD write at an idle and at a busy engine, what a
completion writes, which steps clear OVR, and which change the state only the host writes. -/

namespace Sys2Proof.Lifecycle

open Sys2Proof Sys2Proof.Machine

/-! ## A write to CMD (R181, R185) -/

theorem step_cmdWrite_idle {s : State} {w : Word} {rest : List Event} (hf : s.inFlight = none)
    (hi : s.inbox = .host (.write 0x028 .word w) :: rest) :
    step s = .next (((s.setInbox rest).accept w).answer 0 false) := by
  rw [step_host hi, access_write_reg_idle (by simpa using hf) (by decide) (by decide)]
  rfl

theorem step_cmdWrite_busy {s : State} {f : InFlight} {w : Word} {rest : List Event} (hf : s.inFlight = some f)
    (hi : s.inbox = .host (.write 0x028 .word w) :: rest) :
    step s = .next (((s.setInbox rest).setRegs s.regs.overrun).answer 0 false) := by
  rw [step_host hi, access_write_reg_busy (f := f) (by simpa using hf) (by decide) (by decide)]
  rfl

/-- Settles O6: an idle engine's step on the CMD write is the acceptance. -/
theorem cmdWriteIsAccepted : Obligations.CmdWriteIsAccepted := by
  intro s w rest hf hi
  exact ⟨_, step_cmdWrite_idle hf hi, rfl, rfl, rfl, rfl, rfl, rfl⟩

/-- The engine's turn with an ILLEGAL word in flight (R187). -/
theorem step_engine_illegal {s : State} {f : InFlight} {why : Illegal} {rest : List Event} (hf : s.inFlight = some f)
    (hd : decode f.word = .illegal why) (hi : s.inbox = .engine :: rest) :
    step s = .next ((s.setInbox rest).fail .illegalCommand) := by
  rw [step_engine hi, engineTurn_illegal (f := f) (by simpa using hf) hd]

/-- Settles O8: acceptance and then the engine's turn, which fails the undecodable word in flight. -/
theorem illegalWordCompletesWithIllegalCommand : Obligations.IllegalWordCompletesWithIllegalCommand := by
  intro s w why hw
  constructor
  · intro hf hi
    have hcomplete : step (((s.setInbox [.engine]).accept w).answer 0 false) =
        .next (((((s.setInbox [.engine]).accept w).answer 0 false).setInbox []).fail .illegalCommand) :=
      step_engine_illegal (accept_inFlight _ w) hw rfl
    have hrun := (run_next 1 (step_cmdWrite_idle hf hi)).trans (run_next 0 hcomplete)
    exact ⟨_, hrun, rfl, rfl, rfl, rfl⟩
  · rintro f rest hf rfl hi
    exact step_engine_illegal hf hw hi

/-! ## The Writes lists (R188) -/

/-- `r` with the registers, and the fields TRUNC and FBK, of the Writes list of `i` taken from `w`. ERR and DONE,
which every completion writes, are not among them. -/
def writtenRegs (i : Instr) (r w : Regs) : Regs :=
  match i with
  | .nop | .fftf | .ffti | .herm _ | .fbclr | .spclr => r
  | .quant _ | .fsize _ => { r with result := w.result }
  | .dequant _ => { r with xout := w.xout }
  | .wrbits _ => { r with bitidx := w.bitidx }
  | .rdbits _ => { r with result := w.result, trunc := w.trunc }
  | .enc _ => { r with scale := w.scale, seq := w.seq, flen := w.flen, dprof := w.dprof }
  | .dec => { r with scale := w.scale, dprof := w.dprof, trunc := w.trunc, fbk := w.fbk }

@[simp] theorem writtenRegs_self (i : Instr) (r : Regs) : writtenRegs i r r = r := by cases i <;> rfl

theorem writtenRegs_frame (i : Instr) (r w : Regs) :
    (writtenRegs i r w).ie = r.ie ∧ (writtenRegs i r w).ovr = r.ovr ∧ (writtenRegs i r w).cmd = r.cmd ∧
    (writtenRegs i r w).nsamp = r.nsamp ∧ (writtenRegs i r w).boff = r.boff ∧
    (writtenRegs i r w).value = r.value ∧ (writtenRegs i r w).xin = r.xin ∧
    ((writtenRegs i r w).bitidx = r.bitidx ∨ ∃ n, i = .wrbits n) ∧
    ((writtenRegs i r w).result = r.result ∨ (∃ n, i = .rdbits n) ∨ (∃ b, i = .quant b) ∨ ∃ p, i = .fsize p) ∧
    ((writtenRegs i r w).xout = r.xout ∨ ∃ b, i = .dequant b) ∧
    ((writtenRegs i r w).scale = r.scale ∨ i = .dec ∨ ∃ p, i = .enc p) ∧
    ((writtenRegs i r w).dprof = r.dprof ∨ i = .dec ∨ ∃ p, i = .enc p) ∧
    ((writtenRegs i r w).seq = r.seq ∨ ∃ p, i = .enc p) ∧ ((writtenRegs i r w).flen = r.flen ∨ ∃ p, i = .enc p) ∧
    ((writtenRegs i r w).trunc = r.trunc ∨ i = .dec ∨ ∃ n, i = .rdbits n) ∧
    ((writtenRegs i r w).fbk = r.fbk ∨ i = .dec) := by
  cases i <;> simp [writtenRegs]

/-- The completion of `i` that leads from `s` to `t` writes only what its Writes list names, DONE and ERR (R183,
R188). -/
structure WritesOnly (i : Instr) (s t : State) : Prop where
  regs : ∃ w code, t.regs = { writtenRegs i s.regs w with done := true, err := code }
  mem : ∀ a, ¬ inRanges a (memWrites i s.inRegs) → t.mem.byte a = s.mem.byte a

theorem WritesOnly.fail (i : Instr) (s : State) (code : ErrCode) : WritesOnly i s (s.fail code) where
  regs := ⟨s.regs, code, by simp⟩
  mem _ _ := rfl

theorem WritesOnly.succeed {i : Instr} {s : State} {r : Regs} {m : Memory} (hr : r = writtenRegs i s.regs r)
    (hm : ∀ a, ¬ inRanges a (memWrites i s.inRegs) → m.byte a = s.mem.byte a) : WritesOnly i s (s.succeed r m) where
  regs := ⟨r, .success, by rw [← hr, succeed_regs]⟩
  mem := hm

theorem WritesOnly.succeed_regs {i : Instr} {s : State} {r : Regs} (hr : r = writtenRegs i s.regs r) :
    WritesOnly i s (s.succeed r s.mem) :=
  .succeed hr fun _ _ => rfl

theorem WritesOnly.nextDraw {i : Instr} {s t : State} (h : WritesOnly i s t) : WritesOnly i s t.nextDraw :=
  ⟨h.regs, h.mem⟩

/-! ## Writes of memory outside some ranges -/

theorem not_inRanges_cons {a b n : Nat} {ranges : List (Nat × Nat)} :
    ¬ inRanges a ((b, n) :: ranges) ↔ (a < b ∨ b + n ≤ a) ∧ ¬ inRanges a ranges := by
  have h : (a < b ∨ b + n ≤ a) ↔ ¬ (b ≤ a ∧ a < b + n) := by omega
  simp [inRanges, h]

/-- A write of RE and IM from element `i` to their ends keeps every other byte. -/
theorem byte_writeSpectrum_frame {m : Memory} {i a : Nat} {re im : List Word64} (hi : i ≤ 1024)
    (hre : re.length = 1024 - i) (him : im.length = 1024 - i)
    (ha : ¬ inRanges a [(reBase + 8 * i, 8192 - 8 * i), (imBase + 8 * i, 8192 - 8 * i)]) :
    (m.writeSpectrum i re im).byte a = m.byte a := by
  obtain ⟨hRe, hIm, -⟩ := not_inRanges_cons.trans (and_congr_right' not_inRanges_cons) |>.mp ha
  rw [Memory.writeSpectrum, byte_writeBlock_outside _ _ _ _ (by rw [bytesOf64_length]; omega),
    byte_writeBlock_outside _ _ _ _ (by rw [bytesOf64_length]; omega)]

theorem byte_writeCpx_frame {m : Memory} {xs : List Cpx} {a : Nat} (hl : xs.length = 1024)
    (ha : ¬ inRanges a [(reBase, 8192), (imBase, 8192)]) : (m.writeCpx xs).byte a = m.byte a :=
  byte_writeSpectrum_frame (i := 0) (Nat.zero_le _) (by simpa using hl) (by simpa using hl) ha

theorem byte_writeFbuf_frame {m : Memory} {first a : Nat} {bs : List Byte}
    (ha : a < fbufBase + first ∨ fbufBase + first + bs.length ≤ a) : (m.writeFbuf first bs).byte a = m.byte a :=
  byte_writeBlock_outside _ _ _ _ ha

theorem fbufRange_of_le {first count : Nat} (h : first + count ≤ 4096) :
    fbufRange first count = (fbufBase + first, count) := by
  rw [fbufRange, Nat.min_eq_left h, Nat.min_eq_left (by omega), Nat.add_sub_cancel_left]

/-! ## What each command writes -/

theorem transform_writesOnly {i : Instr} {s : State} (inv : Bool) (hr : writtenRegs i s.regs s.regs = s.regs)
    (hm : memWrites i s.inRegs = [(reBase, 8192), (imBase, 8192)]) : WritesOnly i s (transform inv s) :=
  .nextDraw (.succeed hr.symm fun _ ha => byte_writeCpx_frame (by simp) (hm ▸ ha))

theorem execHerm_writesOnly {p : Nat} {s t : State} (h : execHerm p s = .next t) : WritesOnly (.herm p) s t := by
  unfold execHerm at h
  split at h
  · cases h; exact .fail ..
  · next q hq =>
    cases h
    have hpos := binCount_pos ((lookup_some hq).1 ▸ (lookup_some hq).2)
    have hle := binCount_le q
    refine .succeed rfl fun a ha => ?_
    simp only [memWrites, hq] at ha
    have hlen {f : Word64 → Word64} {us : List Word64} (hu : us.length = 1024) :
        ((hermitian f 0 (us.take (binCount q))).drop (binCount q)).length = 1024 - binCount q := by
      have htake : (us.take (binCount q)).length = binCount q := by rw [List.length_take]; omega
      rw [List.length_drop, hermitian_length _ _ _ (by omega) (by omega)]
    exact byte_writeSpectrum_frame (by omega) (hlen (re_length _)) (hlen (im_length _)) ha

theorem execQuant_writesOnly {b : Nat} {s t : State} (h : execQuant b s = .next t) : WritesOnly (.quant b) s t := by
  unfold execQuant at h
  split at h
  · split at h <;> cases h
    · exact .succeed_regs rfl
    · exact .fail ..
  · cases h; exact .fail ..

theorem execDequant_writesOnly {b : Nat} {s t : State} (h : execDequant b s = .next t) :
    WritesOnly (.dequant b) s t := by
  unfold execDequant at h
  split at h <;> cases h
  · exact .nextDraw (.succeed_regs rfl)
  · exact .fail ..

theorem execWrbits_writesOnly {n : Nat} {s t : State} (h : execWrbits n s = .next t) :
    WritesOnly (.wrbits n) s t := by
  unfold execWrbits at h
  split at h
  · split at h
    · next hcap =>
      cases h
      refine .succeed rfl fun a ha => ?_
      simp only [memWrites, fbufRange_of_le (fieldBytes_le _ _ hcap)] at ha
      exact byte_writeFbuf_frame (by rw [orField_length]; exact (not_inRanges_cons.mp ha).1)
    · cases h; exact .fail ..
  · cases h; exact .fail ..

theorem execRdbits_writesOnly {n : Nat} {s t : State} (h : execRdbits n s = .next t) :
    WritesOnly (.rdbits n) s t := by
  unfold execRdbits at h
  split at h <;> cases h
  · exact .succeed_regs rfl
  · exact .fail ..

theorem execFsize_writesOnly {p : Nat} {s t : State} (h : execFsize p s = .next t) : WritesOnly (.fsize p) s t := by
  unfold execFsize at h
  split at h <;> cases h
  · exact .fail ..
  · exact .succeed_regs rfl

theorem execFbclr_writesOnly {s t : State} (h : execFbclr s = .next t) : WritesOnly .fbclr s t := by
  cases h
  refine .succeed rfl fun a ha => byte_writeFbuf_frame ?_
  rw [List.length_replicate]
  exact (not_inRanges_cons.mp ha).1

theorem execSpclr_writesOnly {s t : State} (h : execSpclr s = .next t) : WritesOnly .spclr s t := by
  cases h
  exact .succeed rfl fun a ha =>
    byte_writeSpectrum_frame (Nat.zero_le _) List.length_replicate List.length_replicate ha

theorem execEnc_writesOnly {p : Nat} {s t : State} (h : execEnc p s = .next t) : WritesOnly (.enc p) s t := by
  unfold execEnc at h
  split at h
  · cases h; exact .fail ..
  · next q hq =>
    have hq3 : q ≤ 3 := (lookup_some hq).1 ▸ (lookup_some hq).2
    split at h <;> cases h
    · refine .nextDraw (.succeed rfl fun a ha => ?_)
      obtain ⟨hFbuf, hSpectrum⟩ := not_inRanges_cons.mp ha
      rw [byte_writeFbuf_frame (by rw [encFrame_length hq3]; exact hFbuf), byte_writeCpx_frame (by simp) hSpectrum]
    · exact .fail ..

theorem execDec_writesOnly {s t : State} (h : execDec s = .next t) : WritesOnly .dec s t := by
  unfold execDec at h
  split at h
  · cases h; exact .fail ..
  · split at h <;> cases h
    · exact .fail ..
    · refine .nextDraw (.succeed rfl fun a ha => ?_)
      obtain ⟨hPcmOut, hSpectrum⟩ := not_inRanges_cons.mp ha
      rw [byte_writePcmOut_outside _ _ _ (by simp) hPcmOut, byte_writeCpx_frame (by simp) hSpectrum]

theorem exec_writesOnly {i : Instr} {s t : State} (h : exec i s = .next t) : WritesOnly i s t := by
  cases i with
  | nop => cases h; exact .succeed_regs rfl
  | fftf => cases h; exact transform_writesOnly false rfl rfl
  | ffti => cases h; exact transform_writesOnly true rfl rfl
  | herm p => exact execHerm_writesOnly h
  | quant b => exact execQuant_writesOnly h
  | dequant b => exact execDequant_writesOnly h
  | wrbits n => exact execWrbits_writesOnly h
  | rdbits n => exact execRdbits_writesOnly h
  | fsize p => exact execFsize_writesOnly h
  | fbclr => exact execFbclr_writesOnly h
  | spclr => exact execSpclr_writesOnly h
  | enc p => exact execEnc_writesOnly h
  | dec => exact execDec_writesOnly h

/-- No Writes list reaches below PCM_OUT. -/
theorem pcmOutBase_le_of_mem_memWrites {i : Instr} {r : Regs} {range : Nat × Nat} (h : range ∈ memWrites i r) :
    pcmOutBase ≤ range.1 := by
  cases i with
  | nop | quant | dequant | rdbits | fsize => cases h
  | herm p =>
    simp only [memWrites] at h
    split at h
    · simp only [List.mem_cons, List.not_mem_nil, or_false] at h
      rcases h with rfl | rfl <;> simp only [pcmOutBase, reBase, imBase] <;> omega
    · cases h
  | wrbits n =>
    obtain rfl := List.mem_singleton.mp h
    simp only [fbufRange, fbufBase, pcmOutBase]
    omega
  | fftf | ffti | spclr | fbclr | enc | dec =>
    revert range
    simp [memWrites, fbufBase, reBase, imBase, pcmOutBase]

theorem not_inRanges_memWrites {i : Instr} {r : Regs} {a : Nat} (ha : a < pcmOutBase) :
    ¬ inRanges a (memWrites i r) := by
  rintro ⟨range, hmem, hlo, -⟩
  have := pcmOutBase_le_of_mem_memWrites hmem
  omega

/-! ## What a step can do -/

/-- A step is the engine's turn, a host access or a power-on reset, on the state less the event (20_memory.md R96). -/
theorem step_cases {s t : State} (h : step s = .next t) :
    (∃ rest, engineTurn (s.setInbox rest) = .next t) ∨
    (∃ x rest, s.inbox = .host x :: rest ∧ t = (s.setInbox rest).access x) ∨
    ∃ rest, s.inbox = .powerOn :: rest ∧ t = (s.setInbox rest).powerOn := by
  cases hi : s.inbox with
  | nil => exact .inl ⟨s.inbox, by rw [step_empty hi] at h; exact h⟩
  | cons e rest =>
    cases e with
    | engine => exact .inl ⟨rest, by rwa [step_engine hi] at h⟩
    | host x => rw [step_host hi] at h; cases h; exact .inr (.inl ⟨x, rest, rfl, rfl⟩)
    | powerOn => rw [step_powerOn hi] at h; cases h; exact .inr (.inr ⟨rest, rfl, rfl⟩)

/-- The engine's turn keeps an idle state, fails an ILLEGAL word, or completes a command. -/
theorem engineTurn_cases {s t : State} (h : engineTurn s = .next t) :
    t = s ∨ t = s.fail .illegalCommand ∨ ∃ i, exec i s = .next t := by
  cases hf : s.inFlight with
  | none => rw [engineTurn_idle hf] at h; cases h; exact .inl rfl
  | some f =>
    cases hd : decode f.word with
    | instr i => rw [engineTurn_instr hf hd] at h; exact .inr (.inr ⟨i, h⟩)
    | illegal why => rw [engineTurn_illegal hf hd] at h; cases h; exact .inr (.inl rfl)

/-- The state that no Writes list names, PCM_IN and the registers written by the host alone (R188), is the same in `s`
and `t`. -/
def HostOnlyKept (s t : State) : Prop :=
  t.regs.ie = s.regs.ie ∧ t.regs.nsamp = s.regs.nsamp ∧ t.regs.boff = s.regs.boff ∧ t.regs.value = s.regs.value ∧
    t.regs.xin = s.regs.xin ∧ ∀ a, 0x1000 ≤ a → a < 0x2000 → t.mem.byte a = s.mem.byte a

theorem HostOnlyKept.of_eq {s t : State} (hr : t.regs = s.regs) (hm : t.mem = s.mem) : HostOnlyKept s t := by
  simp [HostOnlyKept, hr, hm]

theorem WritesOnly.hostOnlyKept {i : Instr} {s t : State} (h : WritesOnly i s t) : HostOnlyKept s t := by
  obtain ⟨⟨w, code, hregs⟩, hmem⟩ := h
  obtain ⟨hie, -, -, hnsamp, hboff, hvalue, hxin, -⟩ := writtenRegs_frame i s.regs w
  rw [HostOnlyKept, hregs]
  exact ⟨hie, hnsamp, hboff, hvalue, hxin, fun a _ ha => hmem a (not_inRanges_memWrites ha)⟩

theorem WritesOnly.ovr {i : Instr} {s t : State} (h : WritesOnly i s t) : t.regs.ovr = s.regs.ovr := by
  obtain ⟨⟨w, code, hregs⟩, -⟩ := h
  obtain ⟨-, hovr, -⟩ := writtenRegs_frame i s.regs w
  rw [hregs]
  exact hovr

theorem engineTurn_hostOnlyKept {s t : State} (h : engineTurn s = .next t) : HostOnlyKept s t := by
  obtain rfl | rfl | ⟨i, hexec⟩ := engineTurn_cases h
  · exact .of_eq rfl rfl
  · exact ⟨rfl, rfl, rfl, rfl, rfl, fun _ _ _ => rfl⟩
  · exact (exec_writesOnly hexec).hostOnlyKept

theorem engineTurn_ovr {s t : State} (h : engineTurn s = .next t) : t.regs.ovr = s.regs.ovr := by
  obtain rfl | rfl | ⟨i, hexec⟩ := engineTurn_cases h
  · rfl
  · rfl
  · exact (exec_writesOnly hexec).ovr

/-- Settles O13: a command writes only its Writes list, which names none of the host-only state; of the remaining
events, a host read changes no register and no memory. -/
theorem writeSetsAreExact : Obligations.WriteSetsAreExact := by
  constructor
  · intro i s t h
    obtain ⟨⟨w, code, hregs⟩, hmem⟩ := exec_writesOnly h
    rw [hregs]
    exact ⟨hmem, writtenRegs_frame i s.regs w⟩
  · intro s t h
    obtain ⟨rest, hturn⟩ | ⟨x, rest, hi, rfl⟩ | ⟨rest, hi, rfl⟩ := step_cases h
    · have hkept : HostOnlyKept (s.setInbox rest) t := engineTurn_hostOnlyKept hturn
      exact .inl hkept
    · cases x with
      | read a n =>
        obtain ⟨d, e, k, hread⟩ := access_read (s.setInbox rest) a n
        have hkept : HostOnlyKept s ((s.setInbox rest).access (.read a n)) := by rw [hread]; exact .of_eq rfl rfl
        exact .inl hkept
      | write a n v => exact .inr ⟨rest, .inr ⟨a, n, v, hi⟩⟩
    · exact .inr ⟨rest, .inl hi⟩

/-! ## OVR (R185) -/

theorem writeCtrl_clears_ovr {s : State} {v : Word} (hs : s.regs.ovr = true) (ht : (s.writeCtrl v).regs.ovr = false) :
    v.getLsbD 1 = true := by
  unfold State.writeCtrl at ht
  split at ht
  · assumption
  · simp [hs] at ht

theorem writeStatus_clears_ovr {r : Regs} {v : Word} (hr : r.ovr = true) (ht : (r.writeStatus v).ovr = false) :
    v.getLsbD 2 = true := by
  simpa [Regs.writeStatus, hr] using ht

/-- Of the registers, only STATUS and CTRL have writes that clear OVR. -/
theorem writeRegIdle_keeps_ovr {s : State} {r : HostReg} (v : Word) (hctrl : r ≠ .ctrl) (hstatus : r ≠ .status) :
    (s.writeRegIdle r v).regs.ovr = s.regs.ovr := by
  cases r with
  | ctrl => exact absurd rfl hctrl
  | status => exact absurd rfl hstatus
  | _ => rfl

/-- A write that clears OVR is a write to CTRL with SRST or one to STATUS with OVR's bit. -/
theorem legalWrite_clears_ovr {s : State} {r : Region} {a : Nat} {n : Size} {v : Word} (hs : s.regs.ovr = true)
    (ht : (s.legalWrite r a n v).regs.ovr = false) :
    r = .regs ∧ ((regAt a = .ctrl ∧ v.getLsbD 1 = true) ∨ (regAt a = .status ∧ v.getLsbD 2 = true)) := by
  by_cases hb : s.busy = true
  · obtain h | ⟨hr, hc, h⟩ | ⟨hr, hc, h⟩ | ⟨hr, hc, h⟩ := legalWrite_busy_cases hb r a n v <;> rw [h] at ht
    · simp [hs] at ht
    · exact ⟨hr, .inl ⟨hc, writeCtrl_clears_ovr hs ht⟩⟩
    · exact ⟨hr, .inr ⟨hc, writeStatus_clears_ovr hs ht⟩⟩
    · simp [Regs.overrun] at ht
  · cases r with
    | regs =>
      simp only [State.legalWrite, hb] at ht
      refine ⟨rfl, ?_⟩
      by_cases hctrl : regAt a = .ctrl
      · rw [hctrl] at ht
        exact .inl ⟨hctrl, writeCtrl_clears_ovr hs ht⟩
      · by_cases hstatus : regAt a = .status
        · rw [hstatus] at ht
          exact .inr ⟨hstatus, writeStatus_clears_ovr hs ht⟩
        · exact absurd ((writeRegIdle_keeps_ovr v hctrl hstatus).symm.trans ht) (by simp [hs])
    | pcmIn | pcmOut | re | im | fbuf | prom => simp [State.legalWrite, hb, hs] at ht

/-- A host access that clears OVR is a word write to CTRL or STATUS (20_memory.md R82, R84). -/
theorem access_clears_ovr {s : State} {x : Access} (hs : s.regs.ovr = true) (ht : (s.access x).regs.ovr = false) :
    (∃ v : Word, x = .write 0x024 .word v ∧ v.getLsbD 2 = true) ∨
    ∃ v : Word, x = .write 0x020 .word v ∧ v.getLsbD 1 = true := by
  cases x with
  | read a n =>
    obtain ⟨d, e, k, hread⟩ := access_read s a n
    simp [hread, hs] at ht
  | write a n v =>
    cases hl : legalRegion a.toNat n with
    | none => simp [access_write_illegal hl, hs] at ht
    | some r =>
      rw [access_write_legal hl, answer_regs] at ht
      obtain ⟨rfl, ⟨hreg, hv⟩ | ⟨hreg, hv⟩⟩ := legalWrite_clears_ovr hs ht <;> obtain rfl := word_of_regs hl
      · obtain rfl : a = 0x020 := BitVec.eq_of_toNat_eq (eq_of_regAt_ctrl hreg)
        exact .inr ⟨v, rfl, hv⟩
      · obtain rfl : a = 0x024 := BitVec.eq_of_toNat_eq (eq_of_regAt_status hreg)
        exact .inl ⟨v, rfl, hv⟩

/-- Settles O7: a busy engine's step on the CMD write is the overrun, and the only steps that clear OVR are those of
`access_clears_ovr` and the power-on reset. -/
theorem cmdWriteWhileBusySetsStickyOverrun : Obligations.CmdWriteWhileBusySetsStickyOverrun := by
  constructor
  · intro s f w rest hf hi
    exact ⟨_, step_cmdWrite_busy hf hi⟩
  · intro s t h hs ht
    obtain ⟨rest, hturn⟩ | ⟨x, rest, hi, rfl⟩ | ⟨rest, hi, rfl⟩ := step_cases h
    · exact absurd ((engineTurn_ovr hturn).symm.trans ht) (by simp [hs])
    · obtain ⟨v, rfl, hv⟩ | ⟨v, rfl, hv⟩ := access_clears_ovr (s := s.setInbox rest) hs ht
      · exact ⟨rest, .inr (.inl ⟨v, hi, hv⟩)⟩
      · exact ⟨rest, .inr (.inr ⟨v, hi, hv⟩)⟩
    · exact ⟨rest, .inl hi⟩

end Sys2Proof.Lifecycle
end

section
/-! SUPPORT. FSIZE (41_profile.md R210): the fields of a command's word, and what the command answers for a known and
for an unknown profile. -/

namespace Sys2Proof.FrameSize

open Sys2Proof Sys2Proof.Machine

/-! ## The fields of a command's word (R120) -/

section CommandWord

variable {i : Instr}

theorem opcField_encode (hlayout : Laws.WordLayout.Statement i) (hwf : i.wellFormed = true) :
    opcField (encode i) = i.opcode := by
  obtain ⟨hword, -, hopc⟩ := hlayout hwf
  rw [opcField_eq, hword]
  omega

theorem argField_encode (hlayout : Laws.WordLayout.Statement i) (hwf : i.wellFormed = true) :
    argField (encode i) = i.arg := by
  obtain ⟨hword, harg, hopc⟩ := hlayout hwf
  rw [argField_eq, hword]
  omega

theorem rsvField_encode (hlayout : Laws.WordLayout.Statement i) (hwf : i.wellFormed = true) :
    rsvField (encode i) = 0 := by
  obtain ⟨hword, harg, hopc⟩ := hlayout hwf
  rw [rsvField_eq, hword]
  omega

end CommandWord

/-! ## FSIZE -/

theorem decode_encode_fsize {p : Nat} (hp : p < 256) : decode (encode (.fsize p)) = .instr (.fsize p) := by
  have hlayout := Laws.WordLayout.fsize p
  have hwf : (Instr.fsize p).wellFormed = true := decide_eq_true hp
  simp only [decode, rsvField_encode hlayout hwf, opcField_encode hlayout hwf, argField_encode hlayout hwf,
    Instr.opcode, Instr.arg, ne_eq, not_true_eq_false, if_false]

theorem exec_fsize (p : Nat) (s : State) : exec (.fsize p) s = execFsize p s := rfl

theorem execFsize_known {p : Nat} (s : State) (hp : p ≤ 3) :
    execFsize p s = .next (s.succeed { s.regs with result := BitVec.ofNat 32 (frameBytes p) } s.mem) := by
  rw [execFsize, lookup_le hp]

theorem execFsize_unknown {p : Nat} (s : State) (hp : 3 < p) : execFsize p s = .next (s.fail .unknownProfile) := by
  rw [execFsize, lookup_gt hp]

/-- The frame sizes of R207 as values of the RESULT register. -/
theorem ofNat_frameBytes {p : Nat} (hp : p ≤ 3) :
    BitVec.ofNat 32 (frameBytes p) = ([313, 569, 958, 2060] : List Word).getD p 0 := by
  rw [frameBytes_eq hp]
  interval_cases p <;> rfl

/-- Settles O29: the fields of the word, and the two outcomes of the strict lookup (R209). -/
theorem fsizeGivesTheFrameSize : Obligations.FsizeGivesTheFrameSize := by
  refine fun p s => ⟨decode_encode_fsize, fun hknown => ?known, fun hunknown => ?unknown⟩
  case known =>
    rw [exec_fsize, execFsize_known s hknown, ofNat_frameBytes hknown]
    rfl
  case unknown =>
    rw [exec_fsize, execFsize_unknown s hunknown]
    rfl

end Sys2Proof.FrameSize
end

section
/-! SUPPORT. SPCLR (42_fft.md R228): the memory it leaves, element by element and outside RE and IM. -/

namespace Sys2Proof.SpectrumClear

open Sys2Proof Sys2Proof.Machine

/-- A buffer of +0.0 in every element: the encoding 0 (00_scope.md R11). -/
def zeroBuffer : List Word64 := List.replicate Config.fftSize 0

theorem zeroBuffer_length : zeroBuffer.length = 1024 := List.length_replicate

theorem zeroBuffer_getD (k : Nat) : zeroBuffer.getD k 0 = 0 := by
  rw [List.getD_eq_getElem?_getD, zeroBuffer, List.getElem?_getD_replicate_default_eq]

theorem exec_spclr (s : State) :
    exec .spclr s = .next (s.succeed s.regs (s.mem.writeSpectrum 0 zeroBuffer zeroBuffer)) := rfl

section Clear

variable (m : Memory)

theorem reAt_clear {k : Nat} (hk : k < 1024) : (m.writeSpectrum 0 zeroBuffer zeroBuffer).reAt k = 0 := by
  rw [reAt_writeSpectrum _ _ _ _ _ hk, zeroBuffer_length, if_pos (by omega), zeroBuffer_getD]

theorem imAt_clear {k : Nat} (hk : k < 1024) : (m.writeSpectrum 0 zeroBuffer zeroBuffer).imAt k = 0 := by
  rw [imAt_writeSpectrum _ _ _ _ _ (by rw [zeroBuffer_length]), zeroBuffer_length, if_pos (by omega), zeroBuffer_getD]

theorem byte_clear_outside {a : Nat} (ha : a < 0x4000 ∨ 0x8000 ≤ a) :
    (m.writeSpectrum 0 zeroBuffer zeroBuffer).byte a = m.byte a :=
  byte_writeSpectrum_outside _ _ _ _ _ (by rw [zeroBuffer_length]) (by rw [zeroBuffer_length]) ha

end Clear

/-- Settles O30: SPCLR completes with the live registers and writes the zero buffer to RE and IM. -/
theorem spclrClearsTheSpectrum : Obligations.SpclrClearsTheSpectrum := by
  refine ⟨by decide, fun s => ⟨_, exec_spclr s, ?completed, succeed_draws .., succeed_regs .., ?cleared, ?kept⟩⟩
  case completed => exact ⟨succeed_inFlight .., succeed_inbox .., succeed_resp ..⟩
  case cleared => exact fun k hk => ⟨reAt_clear s.mem hk, imAt_clear s.mem hk⟩
  case kept => exact fun a ha => byte_clear_outside s.mem ha

end Sys2Proof.SpectrumClear
end

section
/-! SUPPORT. The bit codec (43_bitcodec.md): the words of its commands, what a field write does to each bit and byte of
FBUF, a field read as the number its bits spell, and the outcomes of WRBITS, RDBITS and FBCLR. -/

namespace Sys2Proof.FrameBits

open Sys2Proof Sys2Proof.Machine Sys2Proof.Lifecycle Sys2Proof.FrameSize

/-! ## The commands' words (R120) -/

theorem decode_encode_codec {i : Instr} {n : Nat} (hi : i = .wrbits n ∨ i = .rdbits n) (hn : n < 256) :
    decode (encode i) = .instr i := by
  have hwf : i.wellFormed = true := by rcases hi with rfl | rfl <;> exact decide_eq_true hn
  have hlayout : Laws.WordLayout.Statement i := by
    rcases hi with rfl | rfl
    · exact Laws.WordLayout.wrbits n
    · exact Laws.WordLayout.rdbits n
  rw [decode, rsvField_encode hlayout hwf, opcField_encode hlayout hwf, argField_encode hlayout hwf]
  rcases hi with rfl | rfl <;> rfl

theorem codecBitsOk_iff {n : Nat} : codecBitsOk n = true ↔ n ≤ 32 := decide_eq_true_iff

/-! ## A field write (R251) -/

/-- The memory after WRBITS: the bytes of the field at `pos` are replaced by their OR with the low `n` bits of `v`. -/
def writeField (m : Memory) (pos n v : Nat) : Memory := m.writeFbuf (fieldBytes pos n).1 (orField m pos n v)

section WriteField

variable (m : Memory) {pos n : Nat} (v : Nat)

/-- The bytes of a field hold each of its bits. -/
theorem fieldBytes_covers {q : Nat} (hlo : pos ≤ q) (hhi : q < pos + n) :
    (fieldBytes pos n).1 ≤ q / 8 ∧ q / 8 < (fieldBytes pos n).1 + (fieldBytes pos n).2 := by
  simp only [fieldBytes, if_neg (show n ≠ 0 by omega)]
  omega

theorem fbufBit_writeField (q : Nat) : (writeField m pos n v).fbufBit q =
    (m.fbufBit q || (decide (pos ≤ q ∧ q < pos + n) && v.testBit (n - 1 - (q - pos)))) := by
  rw [writeField, Memory.fbufBit, byte_writeFbuf, orField_length]
  by_cases hbyte : (fieldBytes pos n).1 ≤ q / 8 ∧ q / 8 < (fieldBytes pos n).1 + (fieldBytes pos n).2
  case pos =>
    rw [if_pos (by omega), Nat.add_sub_add_left, orField_bit m pos n v q hbyte.1 hbyte.2]
  case neg =>
    have hbit : ¬ (pos ≤ q ∧ q < pos + n) := fun ⟨hlo, hhi⟩ => hbyte (fieldBytes_covers hlo hhi)
    rw [if_neg (by omega), decide_eq_false hbit, Bool.false_and, Bool.or_false, Memory.fbufBit]

theorem byte_writeField_outside {a : Nat} (hfit : pos + n ≤ 8 * 4096) (ha : a < 0x8000 ∨ 0x9000 ≤ a) :
    (writeField m pos n v).byte a = m.byte a := by
  have hle := fieldBytes_le pos n hfit
  exact byte_writeFbuf_frame (by rw [orField_length, fbufBase]; omega)

end WriteField

/-! ## A field read (R252) -/

/-- A field whose bits, all of them below `stop`, spell `v` reads as the low `n` bits of `v`. -/
theorem fbufField_eq_mod {m : Memory} {stop pos n v : Nat} (hstop : pos + n ≤ stop)
    (hbits : ∀ k < n, m.fbufBit (pos + k) = v.testBit (n - 1 - k)) : m.fbufField stop pos n = v % 2 ^ n := by
  rw [← natOf_bitsOf, Memory.fbufField]
  congr 1
  refine List.ext_getElem (by simp) fun k hk hk' => ?_
  have hkn : k < n := by simpa using hk
  rw [← List.getD_eq_getElem _ false hk', bitsOf_getD n v k hkn]
  simp [hbits k hkn, show pos + k < stop by omega]

/-- What WRBITS writes into zero bits reads back (R254). -/
theorem fbufField_writeField {m : Memory} {stop pos n v : Nat} (hstop : pos + n ≤ stop)
    (hzero : ∀ q, pos ≤ q → q < pos + n → m.fbufBit q = false) :
    (writeField m pos n v).fbufField stop pos n = v % 2 ^ n := by
  refine fbufField_eq_mod hstop fun k hk => ?_
  have hin : pos ≤ pos + k ∧ pos + k < pos + n := by omega
  rw [fbufBit_writeField, hzero _ hin.1 hin.2, decide_eq_true hin, Bool.false_or, Bool.true_and,
    Nat.add_sub_cancel_left]

/-! ## What each command answers -/

section Outcomes

variable {n : Nat} {s : State}

theorem exec_wrbits (n : Nat) (s : State) : exec (.wrbits n) s = execWrbits n s := rfl

theorem exec_rdbits (n : Nat) (s : State) : exec (.rdbits n) s = execRdbits n s := rfl

theorem exec_wrbits_fits (hmem : s.inMem = s.mem) (hn : n ≤ 32)
    (hfit : s.inRegs.bitPos + n ≤ 8 * Config.fbufBytes) :
    exec (.wrbits n) s = .next (s.succeed { s.regs with bitidx := BitVec.ofNat 32 (s.inRegs.bitidx.toNat + n) }
      (writeField s.mem s.inRegs.bitPos n s.inRegs.value.toNat)) := by
  rw [exec_wrbits, execWrbits, if_pos (codecBitsOk_iff.mpr hn), if_pos hfit, hmem, writeField, BitVec.ofNat_add,
    BitVec.ofNat_toNat, BitVec.setWidth_eq]

theorem exec_wrbits_fails (h : 32 < n ∨ 8 * Config.fbufBytes < s.inRegs.bitPos + n) :
    exec (.wrbits n) s = .next (s.fail .badArgument) := by
  rw [exec_wrbits, execWrbits]
  by_cases hn : n ≤ 32
  · have hover : ¬ s.inRegs.bitPos + n ≤ 8 * Config.fbufBytes := by omega
    rw [if_pos (codecBitsOk_iff.mpr hn), if_neg hover]
  · rw [if_neg (codecBitsOk_iff.not.mpr hn)]

theorem exec_rdbits_reads (hlen : s.inRegs.flen.toNat ≤ 4096) (hn : n ≤ 32) :
    exec (.rdbits n) s = .next (s.succeed { s.regs with
      result := BitVec.ofNat 32 (s.inMem.fbufField (8 * s.inRegs.flen.toNat) s.inRegs.bitPos n)
      trunc := decide (0 < n ∧ 8 * s.inRegs.flen.toNat < s.inRegs.bitPos + n) } s.mem) := by
  have hvalid : (validBits s.inMem s.inRegs.flen.toNat).length = 8 * s.inRegs.flen.toNat := by
    rw [validBits_length]; omega
  rw [exec_rdbits, execRdbits, if_pos (codecBitsOk_iff.mpr hn), readField_validBits _ _ _ _ hlen, readField_missing,
    hvalid]

theorem exec_rdbits_fails (hn : 32 < n) : exec (.rdbits n) s = .next (s.fail .badArgument) := by
  rw [exec_rdbits, execRdbits, if_neg (codecBitsOk_iff.not.mpr (by omega))]

end Outcomes

/-! ## FBCLR (R253) -/

/-- A frame buffer of 0 in every byte. -/
def zeroFrame : List Byte := List.replicate Config.fbufBytes 0

theorem zeroFrame_length : zeroFrame.length = 4096 := List.length_replicate

theorem exec_fbclr (s : State) : exec .fbclr s = .next (s.succeed s.regs (s.mem.writeFbuf 0 zeroFrame)) := rfl

theorem byte_writeFbuf_zeroFrame_inside (m : Memory) {a : Nat} (ha : 0x8000 ≤ a ∧ a < 0x9000) :
    (m.writeFbuf 0 zeroFrame).byte a = 0 := by
  rw [byte_writeFbuf, zeroFrame_length, if_pos (by rw [fbufBase]; omega), List.getD_eq_getElem?_getD, zeroFrame,
    List.getElem?_getD_replicate_default_eq]

theorem byte_writeFbuf_zeroFrame_outside (m : Memory) {a : Nat} (ha : a < 0x8000 ∨ 0x9000 ≤ a) :
    (m.writeFbuf 0 zeroFrame).byte a = m.byte a :=
  byte_writeFbuf_frame (by rw [zeroFrame_length, fbufBase]; omega)

/-! ## The obligations -/

/-- Settles O31: FBCLR completes with the live registers and writes the zero frame over all of FBUF. -/
theorem fbclrClearsTheFrameBuffer : Obligations.FbclrClearsTheFrameBuffer := by
  refine ⟨by decide, fun s => ⟨_, exec_fbclr s, ?completed, succeed_draws .., succeed_regs .., ?cleared, ?kept⟩⟩
  case completed => exact ⟨succeed_inFlight .., succeed_inbox .., succeed_resp ..⟩
  case cleared => exact fun a ha => byte_writeFbuf_zeroFrame_inside s.mem ha
  case kept => exact fun a ha => byte_writeFbuf_zeroFrame_outside s.mem ha

/-- Settles O42: a field that fits is one `writeField`; the bit count and the capacity are the only ways to fail. -/
theorem wrbitsOrsTheFieldIn : Obligations.WrbitsOrsTheFieldIn := by
  refine fun n s hmem => ⟨decode_encode_codec (i := .wrbits n) (.inl rfl), fun hn hfit => ?fits, exec_wrbits_fails⟩
  case fits =>
    refine ⟨_, exec_wrbits_fits hmem hn hfit, ?completed, succeed_draws .., succeed_regs .., ?bits, ?kept⟩
    case completed => exact ⟨succeed_inFlight .., succeed_inbox .., succeed_resp ..⟩
    case bits => exact fun q _ => fbufBit_writeField s.mem s.inRegs.value.toNat q
    case kept => exact fun a ha => byte_writeField_outside s.mem s.inRegs.value.toNat hfit ha

/-- Settles O43: the field of the valid bits is the field of FBUF, and a bit is missing exactly past 8·FLEN. -/
theorem rdbitsReadsTheField : Obligations.RdbitsReadsTheField :=
  fun n _ hlen => ⟨decode_encode_codec (i := .rdbits n) (.inr rfl), exec_rdbits_reads hlen, exec_rdbits_fails⟩

/-- Settles O44: RDBITS reads the field that `writeField` leaves, all of it below 8·FLEN. -/
theorem bitCodecRoundTrip : Obligations.BitCodecRoundTrip := by
  intro n s f hs hmem hn P hfit hzero
  have hregs : s.inRegs = f.regs := inRegs_some hs
  have hlive : s.inMem = s.mem := (inMem_some hs).trans hmem
  refine ⟨_, exec_wrbits_fits hlive hn (hregs ▸ hfit), fun u g hu hleft hpos hstop hlen => ?_⟩
  have huregs : u.inRegs = g.regs := inRegs_some hu
  have humem : u.inMem = writeField f.mem P n f.regs.value.toNat := by
    rw [inMem_some hu, hleft, succeed_mem, hregs, hmem]
    rfl
  have hat : u.inRegs.bitPos = P := huregs ▸ hpos
  refine ⟨_, exec_rdbits_reads (huregs ▸ hlen) hn, ?result, ?trunc, by rw [succeed_regs]⟩
  case result => rw [succeed_regs, humem, hat, huregs, fbufField_writeField hstop hzero]
  case trunc =>
    rw [succeed_regs, hat, huregs]
    exact decide_eq_false (by omega)

end Sys2Proof.FrameBits
end

section
/-! SUPPORT. HERM (46_decode.md R317): the word of the command, the elements of a Hermitian extension, and the memory
the command leaves, element by element and outside RE and IM. -/

namespace Sys2Proof.HermitianMirror

open Sys2Proof Sys2Proof.Machine Sys2Proof.FrameSize

/-! ## The command's word (R120) -/

theorem decode_encode_herm {p : Nat} (hp : p < 256) : decode (encode (.herm p)) = .instr (.herm p) := by
  have hlayout := Laws.WordLayout.herm p
  have hwf : (Instr.herm p).wellFormed = true := decide_eq_true hp
  rw [decode, rsvField_encode hlayout hwf, opcField_encode hlayout hwf, argField_encode hlayout hwf]
  rfl

/-! ## The elements of a Hermitian extension (R317, R318) -/

section Extension

variable {α : Type} (conj : α → α) (zero d : α) {xs : List α}

theorem hermitian_getD_kept {i : Nat} (hi : i < xs.length) : (hermitian conj zero xs).getD i d = xs.getD i d :=
  getD_append_left' _ _ _ _ hi

theorem hermitian_getD_band {k : Nat} (hlo : xs.length ≤ k) (hhi : k ≤ 1024 - xs.length) (hpos : 1 ≤ xs.length) :
    (hermitian conj zero xs).getD k d = zero := by
  have hband : k - xs.length < Config.fftSize + 1 - 2 * xs.length := by rw [Config.fftSize]; omega
  rw [hermitian, getD_append_right' _ _ _ _ hlo, getD_append_left' _ _ _ _ (by rwa [List.length_replicate]),
    List.getD_replicate _ hband]

/-- Past the zero band stand the elements from 1 on, reversed: index `1024 − i` is place `B − 1 − i` among them. -/
theorem hermitian_getD_mirror {i : Nat} (hpos : 1 ≤ i) (hi : i < xs.length) (hle : xs.length ≤ 512) :
    (hermitian conj zero xs).getD (1024 - i) d = conj (xs.getD i d) := by
  have hplace : 1024 - i - xs.length - (Config.fftSize + 1 - 2 * xs.length) = xs.length - 1 - i := by
    rw [Config.fftSize]; omega
  have hback : 1 + (xs.length - 1 - 1 - (xs.length - 1 - i)) = i := by omega
  rw [hermitian, getD_append_right' _ _ _ _ (by omega),
    getD_append_right' _ _ _ _ (by rw [List.length_replicate, Config.fftSize]; omega), List.length_replicate, hplace]
  simp only [List.getD_eq_getElem?_getD, List.getElem?_map]
  rw [List.getElem?_reverse (by rw [List.length_drop]; omega), List.length_drop, List.getElem?_drop, hback,
    List.getElem?_eq_getElem hi]
  rfl

end Extension

/-! ## The elements HERM writes -/

/-- The elements from `bins` on that HERM writes to a buffer that holds `us`. -/
def mirroredTail (conj : Word64 → Word64) (bins : Nat) (us : List Word64) : List Word64 :=
  (hermitian conj 0 (us.take bins)).drop bins

/-- The memory HERM leaves: `m`, with RE and IM replaced from element `bins` on, from the elements of `src`. -/
def mirrorSpectrum (m src : Memory) (bins : Nat) : Memory :=
  m.writeSpectrum bins (mirroredTail id bins src.re) (mirroredTail negBits bins src.im)

section Mirror

variable (conj : Word64 → Word64) (m src : Memory) {bins : Nat} {us : List Word64}

theorem take_length (hus : us.length = 1024) (hle : bins ≤ 512) : (us.take bins).length = bins := by
  rw [List.length_take]; omega

theorem mirroredTail_length (hus : us.length = 1024) (hpos : 1 ≤ bins) (hle : bins ≤ 512) :
    (mirroredTail conj bins us).length = 1024 - bins := by
  have hlen := take_length hus hle
  rw [mirroredTail, List.length_drop, hermitian_length _ _ _ (by omega) (by omega)]

theorem mirroredTail_getD {k : Nat} (hk : bins ≤ k) :
    (mirroredTail conj bins us).getD (k - bins) 0 = (hermitian conj 0 (us.take bins)).getD k 0 := by
  rw [mirroredTail, List.getD_eq_getElem?_getD, List.getElem?_drop, Nat.add_sub_of_le hk, ← List.getD_eq_getElem?_getD]

theorem mirroredTail_getD_mirror {i : Nat} (hus : us.length = 1024) (hle : bins ≤ 512) (hi : 1 ≤ i)
    (hb : i < bins) : (mirroredTail conj bins us).getD (1024 - i - bins) 0 = conj (us.getD i 0) := by
  have hlen := take_length hus hle
  rw [mirroredTail_getD _ (by omega), hermitian_getD_mirror _ _ _ hi (by omega) (by omega), List.getD_eq_getElem?_getD,
    List.getElem?_take_of_lt hb, ← List.getD_eq_getElem?_getD]

theorem mirroredTail_getD_band {k : Nat} (hus : us.length = 1024) (hpos : 1 ≤ bins) (hle : bins ≤ 512)
    (hlo : bins ≤ k) (hhi : k ≤ 1024 - bins) : (mirroredTail conj bins us).getD (k - bins) 0 = 0 := by
  have hlen := take_length hus hle
  rw [mirroredTail_getD _ hlo, hermitian_getD_band _ _ _ (by omega) (by omega) (by omega)]

theorem reAt_mirrorSpectrum {k : Nat} (hpos : 1 ≤ bins) (hle : bins ≤ 512) (hk : k < 1024) :
    (mirrorSpectrum m src bins).reAt k =
      if bins ≤ k then (mirroredTail id bins src.re).getD (k - bins) 0 else m.reAt k := by
  rw [mirrorSpectrum, reAt_writeSpectrum _ _ _ _ _ hk, mirroredTail_length _ (re_length _) hpos hle]
  exact if_congr (by omega) rfl rfl

theorem imAt_mirrorSpectrum {k : Nat} (hpos : 1 ≤ bins) (hle : bins ≤ 512) (hk : k < 1024) :
    (mirrorSpectrum m src bins).imAt k =
      if bins ≤ k then (mirroredTail negBits bins src.im).getD (k - bins) 0 else m.imAt k := by
  have hre := mirroredTail_length id (re_length src) hpos hle
  rw [mirrorSpectrum, imAt_writeSpectrum _ _ _ _ _ (by omega), mirroredTail_length _ (im_length _) hpos hle]
  exact if_congr (by omega) rfl rfl

theorem mirrorSpectrum_mirror {i : Nat} (hle : bins ≤ 512) (hi : 1 ≤ i) (hb : i < bins) :
    (mirrorSpectrum m src bins).reAt (1024 - i) = src.reAt i ∧
      (mirrorSpectrum m src bins).imAt (1024 - i) = negBits (src.imAt i) := by
  constructor
  · rw [reAt_mirrorSpectrum _ _ (by omega) hle (by omega), if_pos (by omega),
      mirroredTail_getD_mirror _ (re_length _) hle hi hb, re_getD _ _ (by omega), id]
  · rw [imAt_mirrorSpectrum _ _ (by omega) hle (by omega), if_pos (by omega),
      mirroredTail_getD_mirror _ (im_length _) hle hi hb, im_getD _ _ (by omega)]

theorem mirrorSpectrum_band {k : Nat} (hpos : 1 ≤ bins) (hle : bins ≤ 512) (hlo : bins ≤ k) (hhi : k ≤ 1024 - bins) :
    (mirrorSpectrum m src bins).reAt k = 0 ∧ (mirrorSpectrum m src bins).imAt k = 0 := by
  constructor
  · rw [reAt_mirrorSpectrum _ _ hpos hle (by omega), if_pos hlo,
      mirroredTail_getD_band _ (re_length _) hpos hle hlo hhi]
  · rw [imAt_mirrorSpectrum _ _ hpos hle (by omega), if_pos hlo,
      mirroredTail_getD_band _ (im_length _) hpos hle hlo hhi]

theorem mirrorSpectrum_kept {k : Nat} (hle : bins ≤ 512) (hk : k < bins) :
    (mirrorSpectrum m src bins).reAt k = m.reAt k ∧ (mirrorSpectrum m src bins).imAt k = m.imAt k := by
  constructor
  · rw [reAt_mirrorSpectrum _ _ (by omega) hle (by omega), if_neg (by omega)]
  · rw [imAt_mirrorSpectrum _ _ (by omega) hle (by omega), if_neg (by omega)]

theorem byte_mirrorSpectrum_outside {a : Nat} (hpos : 1 ≤ bins) (hle : bins ≤ 512) (ha : a < 0x4000 ∨ 0x8000 ≤ a) :
    (mirrorSpectrum m src bins).byte a = m.byte a := by
  have hre := mirroredTail_length id (re_length src) hpos hle
  have him := mirroredTail_length negBits (im_length src) hpos hle
  exact byte_writeSpectrum_outside _ _ _ _ _ (by omega) (by omega) ha

end Mirror

/-! ## What HERM answers -/

theorem exec_herm (p : Nat) (s : State) : exec (.herm p) s = execHerm p s := rfl

theorem execHerm_known {p : Nat} (s : State) (hp : p ≤ 3) :
    execHerm p s = .next (s.succeed s.regs (mirrorSpectrum s.mem s.inMem (binCount p))) := by
  rw [execHerm, lookup_le hp]
  rfl

theorem execHerm_unknown {p : Nat} (s : State) (hp : 3 < p) : execHerm p s = .next (s.fail .unknownProfile) := by
  rw [execHerm, lookup_gt hp]

/-- Settles O35: HERM completes with the live registers and the mirrored spectrum, or fails on an unknown profile. -/
theorem hermMirrorsAndClears : Obligations.HermMirrorsAndClears := by
  refine fun p s => ⟨decode_encode_herm, fun hknown => ?known, fun hunknown => ?unknown⟩
  case known =>
    have hpos : 1 ≤ binCount p := le_trans (by decide) (binCount_pos hknown)
    have hle := binCount_le p
    refine ⟨_, (exec_herm p s).trans (execHerm_known s hknown), ?completed, succeed_draws .., succeed_regs ..,
      ?mirror, ?band, ?kept, ?frame⟩
    case completed => exact ⟨succeed_inFlight .., succeed_inbox .., succeed_resp ..⟩
    case mirror => exact fun i hi hb => mirrorSpectrum_mirror s.mem s.inMem hle hi hb
    case band => exact fun k hlo hhi => mirrorSpectrum_band s.mem s.inMem hpos hle hlo hhi
    case kept => exact fun k hk => mirrorSpectrum_kept s.mem s.inMem hle hk
    case frame => exact fun a ha => byte_mirrorSpectrum_outside s.mem s.inMem hpos hle ha
  case unknown =>
    rw [exec_herm, execHerm_unknown s hunknown]
    rfl

end Sys2Proof.HermitianMirror
end

section
/-! SUPPORT. Errors (60_exceptions.md): what the engine's turn leaves when a command fails (R344), and which host
accesses are bus errors (R348). -/

namespace Sys2Proof.Exceptions

open Sys2Proof Sys2Proof.Machine Sys2Proof.BusMemory

/-! ## A command that fails (R344) -/

/-- Of the ways a command can complete, only `State.fail` sets an error code. -/
theorem exec_eq_fail {i : Instr} {s t : State} (h : exec i s = .next t) (herr : t.regs.err ≠ .success) :
    t = s.fail t.regs.err := by
  obtain ⟨c, -, hfail⟩ | ⟨r, m, hsucceed⟩ | ⟨r, m, hsucceed⟩ := exec_cases i s
  · rw [hfail] at h
    cases h
    rfl
  · rw [hsucceed] at h
    cases h
    exact absurd rfl herr
  · rw [hsucceed] at h
    cases h
    exact absurd rfl herr

/-- A command in flight, ILLEGAL or not, that completes with an error code has no other effect. -/
theorem engineTurn_eq_fail {s t : State} {f : InFlight} (hf : s.inFlight = some f) (h : engineTurn s = .next t)
    (herr : t.regs.err ≠ .success) : t = s.fail t.regs.err := by
  cases hd : decode f.word with
  | instr i => exact exec_eq_fail (engineTurn_instr hf hd ▸ h) herr
  | illegal why =>
    rw [engineTurn_illegal hf hd] at h
    cases h
    rfl

/-- Both forms of the engine's turn: with no event to come, and as the first event (log 1). -/
theorem step_engineTurn {s : State} (hi : s.inbox = [] ∨ ∃ rest, s.inbox = .engine :: rest) :
    step s = engineTurn (s.setInbox s.inbox.tail) := by
  obtain hnil | ⟨rest, hcons⟩ := hi
  · have hkept : s.setInbox s.inbox.tail = s := by
      rw [hnil, List.tail_nil, ← hnil]
      rfl
    rw [step_empty hnil, hkept]
  · rw [step_engine hcons, hcons, List.tail_cons]

/-- In a good state, CMD holds the word in flight, and TRUNC and FBK are still clear from its acceptance (R181). -/
theorem inFlight_of_inv {s : State} {f : InFlight} (hinv : s.inv = true) (hf : s.inFlight = some f) :
    f.word = s.regs.cmd ∧ s.regs.trunc = false ∧ s.regs.fbk = false := by
  have hgood : f.good s.regs s.mem = true := by
    simp only [State.inv, hf, Bool.and_eq_true] at hinv
    exact hinv.2
  simp only [InFlight.good, Bool.and_eq_true, decide_eq_true_eq, Bool.not_eq_true'] at hgood
  obtain ⟨⟨⟨hword, -⟩, -⟩, ⟨-, htrunc⟩, hfbk⟩ := hgood
  exact ⟨hword, htrunc, hfbk⟩

/-- Settles O12: the turn is `State.fail`, which keeps the CMD, TRUNC and FBK of the good state before it. -/
theorem errorsArePrecise : Obligations.ErrorsArePrecise := by
  intro s t f hinv hf hi hstep herr
  obtain ⟨hword, htrunc, hfbk⟩ := inFlight_of_inv hinv hf
  rw [step_engineTurn hi] at hstep
  have hfail : t = (s.setInbox s.inbox.tail).fail t.regs.err := engineTurn_eq_fail (f := f) hf hstep herr
  generalize t.regs.err = code at hfail ⊢
  subst hfail
  exact ⟨rfl, hword.symm, rfl, htrunc, hfbk⟩

/-! ## Illegal host accesses (R81, R84, R348) -/

/-- The offsets of the regions that permit an access size (R81). -/
theorem regionOf_allows_iff {a : Nat} {n : Size} : (∃ r, regionOf a = some r ∧ r.allows n = true) ↔
    (n = .word ∧ (a < 0x100 ∨ (0x1000 ≤ a ∧ a < 0x3000) ∨ (0x4000 ≤ a ∧ a < 0x8000)) ∨
      (0x8000 ≤ a ∧ a < 0x9000) ∨ (0xC000 ≤ a ∧ a < 0xC800)) := by
  constructor
  · rintro ⟨r, hr, hsize⟩
    rw [regionOf_some] at hr
    cases r with
    | regs | pcmIn | pcmOut | re | im =>
      refine .inl ⟨by simpa [Region.allows] using hsize, ?_⟩
      dsimp only at hr
      omega
    | fbuf => exact .inr (.inl hr)
    | prom => exact .inr (.inr hr)
  · rintro (⟨rfl, hword⟩ | hfbuf | hprom)
    · have hrows : a < 0x100 ∨ (0x1000 ≤ a ∧ a < 0x2000) ∨ (0x2000 ≤ a ∧ a < 0x3000) ∨
          (0x4000 ≤ a ∧ a < 0x6000) ∨ (0x6000 ≤ a ∧ a < 0x8000) := by omega
      obtain h | h | h | h | h := hrows
      · exact ⟨.regs, (regionOf_some a _).mpr h, rfl⟩
      · exact ⟨.pcmIn, (regionOf_some a _).mpr h, rfl⟩
      · exact ⟨.pcmOut, (regionOf_some a _).mpr h, rfl⟩
      · exact ⟨.re, (regionOf_some a _).mpr h, rfl⟩
      · exact ⟨.im, (regionOf_some a _).mpr h, rfl⟩
    · exact ⟨.fbuf, (regionOf_some a _).mpr hfbuf, rfl⟩
    · exact ⟨.prom, (regionOf_some a _).mpr hprom, rfl⟩

/-- An access is legal when it is aligned and its first byte lies in a region that permits its size: its last byte then
lies there too (R84). -/
theorem exists_legalRegion_iff {a : Nat} {n : Size} : (∃ r, legalRegion a n = some r) ↔
    a % n.bytes = 0 ∧ ∃ r, regionOf a = some r ∧ r.allows n = true := by
  constructor
  · rintro ⟨r, h⟩
    obtain ⟨hregion, hsize, haligned, -⟩ := legalRegion_some h
    exact ⟨haligned, r, hregion, hsize⟩
  · rintro ⟨haligned, r, hregion, hsize⟩
    exact ⟨r, legalRegion_of_aligned hregion haligned hsize⟩

theorem access_read_legal {s : State} {a : Offset} {n : Size} {r : Region} (h : legalRegion a.toNat n = some r) :
    s.access (.read a n) = s.legalRead r a.toNat n := by
  simp [State.access, h]

/-- A legal read answers no error, with its value or with a draw (R94). -/
theorem legalRead_resp (s : State) (r : Region) (a : Nat) (n : Size) :
    ∃ d, (s.legalRead r a n).resp = some { data := d, error := false } := by
  unfold State.legalRead
  split
  · exact ⟨_, rfl⟩
  · exact ⟨_, rfl⟩

/-- Settles O18: the numbers say when `legalRegion` finds a region, and an access without one only answers. -/
theorem illegalAccessesHaveNoEffect : Obligations.IllegalAccessesHaveNoEffect := by
  intro s a n v legal
  have hlegal : (∃ r, legalRegion a.toNat n = some r) ↔ legal :=
    exists_legalRegion_iff.trans (and_congr_right' regionOf_allows_iff)
  rw [← hlegal]
  refine ⟨fun hnone => ?illegal, fun ⟨r, hr⟩ => ?legal⟩
  case illegal =>
    have hnone : legalRegion a.toNat n = none :=
      Option.eq_none_iff_forall_ne_some.mpr fun r hr => hnone ⟨r, hr⟩
    exact ⟨access_read_illegal hnone, 0, access_write_illegal hnone⟩
  case legal =>
    rw [access_read_legal hr, access_write_legal hr]
    exact ⟨legalRead_resp s r a.toNat n, 0, rfl⟩

end Sys2Proof.Exceptions
end

section
/-! SUPPORT. Command words (30_encoding.md R120 to R126): the decoder said once as an equivalence on the three fields of
a word, and from it the round trips and the set of ILLEGAL words. -/

namespace Sys2Proof.CommandWords

open Sys2Proof Sys2Proof.Machine Sys2Proof.FrameSize

/-! ## The decoder on the fields of a word -/

theorem wordLayout (i : Instr) : Laws.WordLayout.Statement i := by
  cases i with
  | nop => exact Laws.WordLayout.nop
  | fftf => exact Laws.WordLayout.fftf
  | ffti => exact Laws.WordLayout.ffti
  | herm p => exact Laws.WordLayout.herm p
  | quant b => exact Laws.WordLayout.quant b
  | dequant b => exact Laws.WordLayout.dequant b
  | wrbits n => exact Laws.WordLayout.wrbits n
  | rdbits n => exact Laws.WordLayout.rdbits n
  | fsize p => exact Laws.WordLayout.fsize p
  | fbclr => exact Laws.WordLayout.fbclr
  | spclr => exact Laws.WordLayout.spclr
  | enc p => exact Laws.WordLayout.enc p
  | dec => exact Laws.WordLayout.dec

theorem decodeNoArg_eq_instr {arg : Nat} {i j : Instr} (h : decodeNoArg arg i = .instr j) : arg = 0 ∧ i = j := by
  unfold decodeNoArg at h
  split at h
  · next harg => exact ⟨harg, Decoded.instr.inj h⟩
  · cases h

/-- The opcode and the argument determine a command. -/
theorem decode_of_fields {w : Word} {i : Instr} (hrsv : rsvField w = 0) (hopc : opcField w = i.opcode)
    (harg : argField w = i.arg) : decode w = .instr i := by
  rw [decode, hrsv, hopc, harg]
  cases i <;> rfl

theorem fields_of_decode {w : Word} {i : Instr} (h : decode w = .instr i) :
    rsvField w = 0 ∧ opcField w = i.opcode ∧ argField w = i.arg := by
  unfold decode at h
  split at h
  · cases h
  · next hrsv =>
    refine ⟨not_not.mp hrsv, ?_⟩
    split at h
    case h_14 => cases h
    case h_1 | h_2 | h_3 | h_10 | h_11 | h_13 =>
      obtain ⟨harg, rfl⟩ := decodeNoArg_eq_instr h
      exact ⟨‹_›, harg⟩
    all_goals
      obtain rfl := Decoded.instr.inj h
      exact ⟨‹_›, rfl⟩

theorem decode_eq_instr_iff {w : Word} {i : Instr} :
    decode w = .instr i ↔ rsvField w = 0 ∧ opcField w = i.opcode ∧ argField w = i.arg :=
  ⟨fields_of_decode, fun ⟨hrsv, hopc, harg⟩ => decode_of_fields hrsv hopc harg⟩

/-- Settles O1: the fields of the word of a well-formed command are 0, its opcode and its argument. -/
theorem decodeOfEncodeIsTheCommand : Obligations.DecodeOfEncodeIsTheCommand := by
  intro i hwf
  have hlayout := wordLayout i
  exact decode_of_fields (rsvField_encode hlayout hwf) (opcField_encode hlayout hwf) (argField_encode hlayout hwf)

/-! ## The word of a decoded command -/

theorem argField_lt (w : Word) : argField w < 256 := (w.extractLsb' 8 8).isLt

/-- ARG is an 8-bit field (R121), so every argument it holds is well formed. -/
theorem wellFormed_of_arg_lt {i : Instr} (h : i.arg < 256) : i.wellFormed = true := by
  cases i with
  | nop | fftf | ffti | fbclr | spclr | dec => rfl
  | herm | quant | dequant | wrbits | rdbits | fsize | enc => exact decide_eq_true h

theorem toNat_eq_fields (w : Word) : w.toNat = rsvField w * 65536 + argField w * 256 + opcField w := by
  rw [rsvField_eq, argField_eq, opcField_eq]
  omega

/-- Settles O2: the fields of a word without a reserved part make up the word. -/
theorem encodeOfDecodeIsTheWord : Obligations.EncodeOfDecodeIsTheWord := by
  intro w i h
  obtain ⟨hrsv, hopc, harg⟩ := decode_eq_instr_iff.mp h
  refine ⟨wellFormed_of_arg_lt (harg ▸ argField_lt w), BitVec.eq_of_toNat_eq ?_⟩
  have hword := toNat_eq_fields w
  have hlt := w.isLt
  rw [hrsv, hopc, harg] at hword
  rw [encode, BitVec.toNat_ofNat]
  omega

/-! ## ILLEGAL words (R123, R124) -/

theorem decode_illegal_iff (w : Word) : (∃ why, decode w = .illegal why) ↔ ∀ i, decode w ≠ .instr i := by
  cases decode w <;> simp

/-- The assigned opcodes whose ARG is unused, and those whose ARG is an argument (R122). -/
theorem exists_instr_iff (opc arg : Nat) : (∃ i : Instr, opc = i.opcode ∧ arg = i.arg) ↔
    (opc ∈ [0x00, 0x01, 0x02, 0x09, 0x0A, 0x11] ∧ arg = 0) ∨
      opc ∈ [0x03, 0x04, 0x05, 0x06, 0x07, 0x08, 0x10] := by
  constructor
  · rintro ⟨i, rfl, rfl⟩
    cases i <;> simp [Instr.opcode, Instr.arg]
  · simp only [List.mem_cons, List.not_mem_nil, or_false]
    rintro (⟨rfl | rfl | rfl | rfl | rfl | rfl, rfl⟩ | rfl | rfl | rfl | rfl | rfl | rfl | rfl)
    exacts [⟨.nop, rfl, rfl⟩, ⟨.fftf, rfl, rfl⟩, ⟨.ffti, rfl, rfl⟩, ⟨.fbclr, rfl, rfl⟩, ⟨.spclr, rfl, rfl⟩,
      ⟨.dec, rfl, rfl⟩, ⟨.herm arg, rfl, rfl⟩, ⟨.quant arg, rfl, rfl⟩, ⟨.dequant arg, rfl, rfl⟩, ⟨.wrbits arg, rfl, rfl⟩,
      ⟨.rdbits arg, rfl, rfl⟩, ⟨.fsize arg, rfl, rfl⟩, ⟨.enc arg, rfl, rfl⟩]

/-- Settles O4: a word is ILLEGAL when its reserved field is not 0 or no command has its opcode and its ARG. -/
theorem illegalWordsAreExactlyThese : Obligations.IllegalWordsAreExactlyThese := by
  intro w
  have hlegal : (∃ i, decode w = .instr i) ↔ rsvField w = 0 ∧ ∃ i : Instr, opcField w = i.opcode ∧ argField w = i.arg := by
    simp only [decode_eq_instr_iff, exists_and_left]
  rw [decode_illegal_iff, ← not_exists, hlegal, exists_instr_iff, rsvField_eq, opcField_eq, argField_eq]
  simp only [List.mem_cons, List.not_mem_nil, or_false]
  omega

/-- Settles O3: each word is decoded. -/
theorem specWordsDecode : Obligations.SpecWordsDecode := by
  unfold Obligations.SpecWordsDecode
  decide

end Sys2Proof.CommandWords
end

section
/-! SUPPORT. What every step keeps (Safety.lean, `State.inv`), and what a step leads to: the effect of a legal write
said once, completion, the resets, and SEQ. -/

namespace Sys2Proof.Steps

open Sys2Proof Sys2Proof.Machine Sys2Proof.BusMemory Sys2Proof.Lifecycle

/-! ## The effect of a legal write (R87, R94) -/

/-- Everything a legal write of `v` at `a` in region `r` can do to `s`. -/
inductive WriteEffect (s : State) (r : Region) (a : Nat) (n : Size) (v : Word) : State → Prop
  /-- A write that is ignored or dropped. -/
  | dropped : WriteEffect s r a n v s
  | ctrl (hr : r = .regs) (ha : regAt a = .ctrl) : WriteEffect s r a n v (s.writeCtrl v)
  | status : WriteEffect s r a n v (s.setRegs (s.regs.writeStatus v))
  | overrun : WriteEffect s r a n v (s.setRegs s.regs.overrun)
  | cmd (hf : s.inFlight = none) : WriteEffect s r a n v (s.accept v)
  /-- A write to NSAMP, FLEN, BOFF, BITIDX, VALUE, XIN or SCALE. -/
  | operand (hf : s.inFlight = none) (w : Regs) (hseq : w.seq = s.regs.seq) (hdprof : w.dprof = s.regs.dprof)
      (hflen : w.flen = s.regs.flen ∨ w.flen = clampFlen v) : WriteEffect s r a n v (s.setRegs w)
  | memory (hf : s.inFlight = none) (hr : storesBytes r = true) :
      WriteEffect s r a n v (s.setMem (s.mem.writeBlock a (leBytes n.bytes v.toNat)))

theorem writeRegIdle_effect {s : State} (hf : s.inFlight = none) (a : Nat) (n : Size) (v : Word) :
    WriteEffect s .regs a n v (s.writeRegIdle (regAt a) v) := by
  cases ha : regAt a with
  | ctrl => exact .ctrl rfl ha
  | status => exact .status
  | cmd => exact .cmd hf
  | flen => exact .operand hf _ rfl rfl (.inr rfl)
  | nsamp | boff | bitidx | value | xinLo | xinHi | scaleLo | scaleHi => exact .operand hf _ rfl rfl (.inl rfl)
  | _ => exact .dropped

theorem legalWrite_effect (s : State) (r : Region) (a : Nat) (n : Size) (v : Word) :
    WriteEffect s r a n v (s.legalWrite r a n v) := by
  cases hf : s.inFlight with
  | some f =>
    obtain h | ⟨hr, ha, h⟩ | ⟨-, -, h⟩ | ⟨-, -, h⟩ := legalWrite_busy_cases (busy_some hf) r a n v <;> rw [h]
    · exact .dropped
    · exact .ctrl hr ha
    · exact .status
    · exact .overrun
  | none =>
    cases r with
    | regs =>
      have hreg : s.legalWrite .regs a n v = s.writeRegIdle (regAt a) v := by simp [State.legalWrite, hf]
      exact hreg ▸ writeRegIdle_effect hf a n v
    | pcmIn | re | im | fbuf => rw [legalWrite_of_storesBytes hf rfl]; exact .memory hf rfl
    | pcmOut | prom => exact .dropped

/-- A host access is a read, a bus error, or a legal write with its effect. -/
theorem access_cases (s : State) (x : Access) :
    (∃ d e k, s.access x = { s with resp := some { data := d, error := e }, draws := k }) ∨
    ∃ a n v r t, x = .write a n v ∧ legalRegion a.toNat n = some r ∧ WriteEffect s r a.toNat n v t ∧
      s.access x = t.answer 0 false := by
  cases x with
  | read a n => exact .inl (access_read s a n)
  | write a n v =>
    cases hl : legalRegion a.toNat n with
    | none => exact .inl ⟨0, true, s.draws, access_write_illegal hl⟩
    | some r => exact .inr ⟨a, n, v, r, _, rfl, hl, legalWrite_effect s r a.toNat n v, access_write_legal hl⟩

/-! ## The engine's turn -/

/-- A command in flight completes on the engine's turn: an ILLEGAL word, or the command it decodes to. -/
theorem engineTurn_busy {s t : State} {f : InFlight} (hf : s.inFlight = some f) (h : engineTurn s = .next t) :
    t = s.fail .illegalCommand ∨ ∃ i, decode f.word = .instr i ∧ exec i s = .next t := by
  cases hd : decode f.word with
  | instr i => exact .inr ⟨i, rfl, engineTurn_instr hf hd ▸ h⟩
  | illegal why =>
    rw [engineTurn_illegal hf hd] at h
    cases h
    exact .inl rfl

theorem exec_next (i : Instr) (s : State) : ∃ t, exec i s = .next t ∧ Completed s t ∧ t.regs.done = true := by
  obtain ⟨c, -, h⟩ | ⟨r, m, h⟩ | ⟨r, m, h⟩ := exec_cases i s <;> exact ⟨_, h, ⟨rfl, rfl, rfl⟩, rfl⟩

theorem engineTurn_next (s : State) : ∃ t, engineTurn s = .next t ∧ t.inFlight = none ∧ t.inbox = s.inbox := by
  cases hf : s.inFlight with
  | none => exact ⟨s, engineTurn_idle hf, hf, rfl⟩
  | some f =>
    cases hd : decode f.word with
    | instr i =>
      obtain ⟨t, h, ⟨hidle, hinbox, -⟩, -⟩ := exec_next i s
      exact ⟨t, (engineTurn_instr hf hd).trans h, hidle, hinbox⟩
    | illegal why => exact ⟨_, engineTurn_illegal hf hd, rfl, rfl⟩

/-! ## The steps of the lifecycle -/

/-- Settles O5: the step lemmas of each form of the turn. -/
theorem stepRunsTheDecodedCommand : Obligations.StepRunsTheDecodedCommand := by
  refine ⟨fun s f i hf hd => ⟨fun hi => ?_, fun rest hi => ?_⟩, fun s x rest hi => step_host hi⟩
  · rw [step_empty hi, engineTurn_instr hf hd]
  · rw [step_engine hi, engineTurn_instr (f := f) (by simpa using hf) hd]
    rfl

/-- Settles O9: a command completes, and no Writes list names CTRL, CMD or OVR. -/
theorem everyCommandCompletes : Obligations.EveryCommandCompletes := by
  intro i s
  obtain ⟨t, h, hcompleted, hdone⟩ := exec_next i s
  obtain ⟨⟨w, code, hregs⟩, -⟩ := exec_writesOnly h
  obtain ⟨hie, hovr, hcmd, -⟩ := writtenRegs_frame i s.regs w
  have hie' : t.regs.ie = s.regs.ie := by rw [hregs]; exact hie
  refine ⟨t, h, hcompleted, busy_none hcompleted.1, hdone, ?_, hie', ?_, ?_⟩
  · rw [State.irq, hdone, hie', Bool.true_and]
  · rw [hregs]; exact hcmd
  · rw [hregs]; exact hovr

/-- Settles O10: of the three kinds of event only the engine's turn could stop, and it completes. -/
theorem everyStepAnswersNext : Obligations.EveryStepAnswersNext := by
  refine fun s => ⟨?_, fun hf => ⟨fun hi => ?_, fun rest hi => ?_⟩⟩
  · cases hi : s.inbox with
    | nil =>
      obtain ⟨t, ht, -⟩ := engineTurn_next s
      exact ⟨t, (step_empty hi).trans ht⟩
    | cons e rest =>
      cases e with
      | host x => exact ⟨_, step_host hi⟩
      | engine =>
        obtain ⟨t, ht, -⟩ := engineTurn_next (s.setInbox rest)
        exact ⟨t, (step_engine hi).trans ht⟩
      | powerOn => exact ⟨_, step_powerOn hi⟩
  · rw [step_empty hi, engineTurn_idle hf]
  · rw [step_engine hi, engineTurn_idle (by simpa using hf)]
    rfl

/-- A step ends the command in flight, or takes the first of the events to come. -/
theorem step_idle_or_tail (s : State) :
    ∃ t, step s = .next t ∧ (t.inFlight = none ∨ ∃ e rest, s.inbox = e :: rest ∧ t.inbox = rest) := by
  cases hi : s.inbox with
  | nil =>
    obtain ⟨t, ht, hidle, -⟩ := engineTurn_next s
    exact ⟨t, (step_empty hi).trans ht, .inl hidle⟩
  | cons e rest =>
    cases e with
    | host x => exact ⟨_, step_host hi, .inr ⟨_, rest, rfl, access_inbox ..⟩⟩
    | engine =>
      obtain ⟨t, ht, hidle, -⟩ := engineTurn_next (s.setInbox rest)
      exact ⟨t, (step_engine hi).trans ht, .inl hidle⟩
    | powerOn => exact ⟨_, step_powerOn hi, .inl rfl⟩

/-- By induction on the events to come: a step that does not end the command leaves one event less. -/
theorem run_to_idle (events : List Event) (s : State) (hi : s.inbox = events) :
    ∃ k, k ≤ events.length + 1 ∧ ∃ t, Host.Core.run Sys2Proof.core k s = .next t ∧ t.inFlight = none := by
  induction events generalizing s with
  | nil =>
    obtain ⟨t, ht, hidle | ⟨e, rest, hcons, -⟩⟩ := step_idle_or_tail s
    · exact ⟨1, by simp, t, run_next 0 ht, hidle⟩
    · rw [hi] at hcons
      cases hcons
  | cons e rest ih =>
    obtain ⟨t, ht, hidle | ⟨e', rest', hcons, htail⟩⟩ := step_idle_or_tail s
    · exact ⟨1, by simp, t, run_next 0 ht, hidle⟩
    · obtain ⟨-, rfl⟩ : e = e' ∧ rest = rest' := by simpa [hi] using hcons
      obtain ⟨k, hk, u, hu, hidle⟩ := ih t htail
      exact ⟨k + 1, by simpa using hk, u, (run_next k ht).trans hu, hidle⟩

/-- Settles O11: the run of `run_to_idle` over the events to come. -/
theorem commandInFlightEnds : Obligations.CommandInFlightEnds := fun s _ => run_to_idle s.inbox s rfl

/-- Settles O28: NOP succeeds with the live registers and memories. -/
theorem nopOnlyCompletes : Obligations.NopOnlyCompletes := fun _ => rfl

/-! ## The soft reset (R382) -/

theorem writeCtrl_srst (s : State) {v : Word} (hv : v.getLsbD 1 = true) : s.writeCtrl v = s.softReset := if_pos hv

theorem writeCtrl_ie (s : State) {v : Word} (hv : v.getLsbD 1 = false) :
    s.writeCtrl v = s.setRegs { s.regs with ie := v.getLsbD 0 } := if_neg (by rw [hv]; decide)

/-- CTRL acts alike whether or not a command is in flight (R87, R94). -/
theorem access_write_ctrl (s : State) (v : Word) : s.access (.write 0x020 .word v) = (s.writeCtrl v).answer 0 false := by
  cases hf : s.inFlight with
  | none => exact access_write_reg_idle hf (by decide) (by decide) v
  | some f => exact access_write_reg_busy hf (by decide) (by decide) v

theorem softReset_draws_idle {s : State} (hf : s.inFlight = none) : s.softReset.draws = s.draws := by
  simp [State.softReset, hf]

theorem softReset_draws_busy {s : State} {f : InFlight} (hf : s.inFlight = some f) :
    s.softReset.draws = s.draws + 1 := by
  simp [State.softReset, hf]

/-- Settles O17: the CTRL write is the soft reset, whose scramble draws the aborted command's ranges. -/
theorem softResetResetsAndAborts : Obligations.SoftResetResetsAndAborts := by
  intro s v rest hv hi
  refine ⟨_, step_host hi, ?_⟩
  rw [access_write_ctrl, writeCtrl_srst _ hv]
  refine ⟨softReset_regs _, softReset_inFlight _, softReset_inbox _, fun hf => ?idle, fun f hf => ?busy⟩
  case idle => exact ⟨softReset_mem_idle (s := s.setInbox rest) hf, softReset_draws_idle (s := s.setInbox rest) hf⟩
  case busy =>
    refine ⟨softReset_draws_busy (s := s.setInbox rest) hf, fun a => ?_⟩
    rw [answer_mem, softReset_mem_busy (s := s.setInbox rest) hf]
    exact ⟨byte_scramble_inside _ _ _ _, byte_scramble_outside _ _ _ _⟩

/-! ## SEQ (R26) -/

theorem execEnc_seq {p : Nat} {s t : State} (h : execEnc p s = .next t) (hseq : t.regs.seq ≠ s.regs.seq) :
    t.regs.seq = s.inRegs.seq + 1 ∧ t.regs.err = .success ∧ t.inFlight = none := by
  unfold execEnc at h
  split at h
  · cases h
    exact absurd rfl hseq
  · split at h <;> cases h
    · exact ⟨rfl, rfl, rfl⟩
    · exact absurd rfl hseq

/-- Only a successful ENC changes SEQ among the commands (R188). -/
theorem exec_seq {i : Instr} {s t : State} (h : exec i s = .next t) (hseq : t.regs.seq ≠ s.regs.seq) :
    (∃ p, i = .enc p) ∧ t.regs.seq = s.inRegs.seq + 1 ∧ t.regs.err = .success ∧ t.inFlight = none := by
  obtain ⟨⟨w, code, hregs⟩, -⟩ := exec_writesOnly h
  obtain ⟨-, -, -, -, -, -, -, -, -, -, -, -, hframe | ⟨p, rfl⟩, -⟩ := writtenRegs_frame i s.regs w
  · exact absurd (by rw [hregs]; exact hframe) hseq
  · exact ⟨⟨p, rfl⟩, execEnc_seq h hseq⟩

theorem WriteEffect.seq {s t : State} {r : Region} {a : Nat} {n : Size} {v : Word} (h : WriteEffect s r a n v t)
    (hseq : t.regs.seq ≠ s.regs.seq) : r = .regs ∧ regAt a = .ctrl ∧ v.getLsbD 1 = true ∧ t.regs.seq = 0 := by
  cases h with
  | ctrl hr ha =>
    cases hv : v.getLsbD 1 with
    | false => exact absurd (by rw [writeCtrl_ie _ hv]; rfl) hseq
    | true => exact ⟨hr, ha, rfl, by rw [writeCtrl_srst _ hv, softReset_regs]; rfl⟩
  | operand _ _ hw => exact absurd hw hseq
  | dropped | status | overrun | cmd | memory => exact absurd rfl hseq

/-- Settles O27: of the three kinds of step, ENC, the CTRL write with SRST and the power-on reset change SEQ. -/
theorem seqCountsSuccessfulEncodes : Obligations.SeqCountsSuccessfulEncodes := by
  intro s t h hseq
  obtain ⟨rest, hturn⟩ | ⟨x, rest, hi, rfl⟩ | ⟨rest, hi, rfl⟩ := step_cases h
  · left
    cases hf : s.inFlight with
    | none =>
      rw [engineTurn_idle (by simpa using hf)] at hturn
      cases hturn
      exact absurd rfl hseq
    | some f =>
      obtain rfl | ⟨i, hd, hexec⟩ := engineTurn_busy (f := f) (by simpa using hf) hturn
      · exact absurd rfl hseq
      · obtain ⟨⟨p, rfl⟩, hnew, herr, hidle⟩ := exec_seq hexec hseq
        refine ⟨f, p, rfl, hd, ?_, herr, hidle⟩
        rw [hnew, setInbox_inRegs, inRegs_some hf, BitVec.ofNat_add, BitVec.ofNat_toNat, BitVec.setWidth_eq]
        rfl
  · right
    obtain ⟨d, e, k, hread⟩ | ⟨a, n, v, r, t, rfl, hl, heffect, haccess⟩ := access_cases (s.setInbox rest) x
    · exact absurd (by rw [hread]; rfl) hseq
    · rw [haccess] at hseq ⊢
      obtain ⟨rfl, hctrl, hv, hzero⟩ := heffect.seq hseq
      obtain rfl := word_of_regs hl
      obtain rfl : a = 0x020 := BitVec.eq_of_toNat_eq (eq_of_regAt_ctrl hctrl)
      exact ⟨hzero, rest, .inr ⟨v, hi, hv⟩⟩
  · exact .inr ⟨rfl, rest, .inl hi⟩

end Sys2Proof.Steps
end

section
/-! SUPPORT. The invariant of Safety.lean (`State.inv`): the canonical memory, FLEN and DPROF kept by each command and
each host write, and the inputs of a command in flight. -/

namespace Sys2Proof.GoodStates

open Sys2Proof Sys2Proof.Machine Sys2Proof.BusMemory Sys2Proof.Lifecycle Sys2Proof.Steps Sys2Proof.HermitianMirror
open Sys2Proof.SpectrumClear Sys2Proof.FrameBits

/-! ## The invariant in two parts -/

/-- The part of the invariant that does not speak of a command in flight: the canonical memory (log 4), FLEN at most
4096 (R28), DPROF a profile id (R36). -/
structure StorageOk (r : Regs) (m : Memory) : Prop where
  wf : m.wf = true
  flen : r.flen.toNat ≤ 4096
  dprof : r.dprof.toNat ≤ 3

theorem inv_iff (s : State) :
    s.inv = true ↔ StorageOk s.regs s.mem ∧ ∀ f, s.inFlight = some f → f.good s.regs s.mem = true := by
  simp only [State.inv, Bool.and_eq_true, decide_eq_true_eq]
  constructor
  · rintro ⟨⟨⟨hwf, hflen⟩, hdprof⟩, hgood⟩
    exact ⟨⟨hwf, hflen, hdprof⟩, fun f hf => by simpa [hf] using hgood⟩
  · rintro ⟨⟨hwf, hflen, hdprof⟩, hgood⟩
    refine ⟨⟨⟨hwf, hflen⟩, hdprof⟩, ?_⟩
    cases hf : s.inFlight with
    | none => rfl
    | some f => exact hgood f hf

theorem inv_of_idle {s : State} (hf : s.inFlight = none) (h : StorageOk s.regs s.mem) : s.inv = true :=
  (inv_iff s).mpr ⟨h, fun f hsome => by rw [hf] at hsome; cases hsome⟩

theorem storageOk_reset {m : Memory} (h : m.wf = true) : StorageOk Regs.reset m := ⟨h, by decide, by decide⟩

/-- Settles O15: nothing is listed in the memory after reset, and FLEN and DPROF are 0. -/
theorem invariantHoldsAtReset : Obligations.InvariantHoldsAtReset :=
  inv_of_idle rfl (storageOk_reset reset_mem_wf)

/-! ## Writes that stay in the working memories -/

theorem isRam_iff {a : Nat} : isRam a = true ↔ (0x1000 ≤ a ∧ a < 0x3000) ∨ (0x4000 ≤ a ∧ a < 0x9000) := by
  simp [isRam]

/-- A range that lies in PCM_IN and PCM_OUT, or in RE, IM and FBUF. -/
theorem isRam_of_range {a n : Nat} (h : (0x1000 ≤ a ∧ a + n ≤ 0x3000) ∨ (0x4000 ≤ a ∧ a + n ≤ 0x9000)) :
    ∀ k < n, isRam (a + k) = true := fun k hk => isRam_iff.mpr (by omega)

theorem writeBlock_range_wf {m : Memory} {a : Nat} {bs : List Byte} (hm : m.wf = true)
    (h : (0x1000 ≤ a ∧ a + bs.length ≤ 0x3000) ∨ (0x4000 ≤ a ∧ a + bs.length ≤ 0x9000)) :
    (m.writeBlock a bs).wf = true := writeBlock_wf _ _ _ hm (isRam_of_range h)

theorem writeSpectrum_wf {m : Memory} {i : Nat} {re im : List Word64} (hm : m.wf = true)
    (hre : i + re.length ≤ 1024) (him : i + im.length ≤ 1024) : (m.writeSpectrum i re im).wf = true := by
  rw [Memory.writeSpectrum]
  refine writeBlock_range_wf (writeBlock_range_wf hm ?_) ?_ <;> rw [bytesOf64_length]
  · rw [reBase]; omega
  · rw [imBase]; omega

theorem writeCpx_wf {m : Memory} {xs : List Cpx} (hm : m.wf = true) (hl : xs.length = 1024) :
    (m.writeCpx xs).wf = true := writeSpectrum_wf hm (by simp [hl]) (by simp [hl])

theorem writePcmOut_wf {m : Memory} {us : List Word} (hm : m.wf = true) (hl : us.length ≤ 1024) :
    (m.writePcmOut us).wf = true := writeBlock_range_wf hm (by rw [bytesOf32_length, pcmOutBase]; omega)

theorem writeFbuf_wf {m : Memory} {a : Nat} {bs : List Byte} (hm : m.wf = true) (h : a + bs.length ≤ 4096) :
    (m.writeFbuf a bs).wf = true := writeBlock_range_wf hm (by rw [fbufBase]; omega)

/-- The bytes of a legal access that stores lie in the working memories (R81, R84). -/
theorem writeBlock_legal_wf {m : Memory} {r : Region} {a : Nat} {n : Size} (hm : m.wf = true)
    (hl : legalRegion a n = some r) (hr : storesBytes r = true) (v : Nat) :
    (m.writeBlock a (leBytes n.bytes v)).wf = true := by
  obtain ⟨hfirst, -, -, hlast⟩ := legalRegion_some hl
  rw [regionOf_some] at hfirst hlast
  refine writeBlock_range_wf hm ?_
  rw [leBytes_length]
  cases r with
  | regs | prom | pcmOut => exact absurd hr (by decide)
  | pcmIn | re | im | fbuf =>
    dsimp only at hfirst hlast
    omega

/-! ## The commands -/

theorem storageOk_complete {r : Regs} {m : Memory} (h : StorageOk r m) (code : ErrCode) :
    StorageOk { r with done := true, err := code } m := ⟨h.wf, h.flen, h.dprof⟩

theorem mirrorSpectrum_wf {m src : Memory} {bins : Nat} (hm : m.wf = true) (hpos : 1 ≤ bins) (hle : bins ≤ 512) :
    (mirrorSpectrum m src bins).wf = true := by
  refine writeSpectrum_wf hm ?_ ?_
  · rw [mirroredTail_length _ (re_length src) hpos hle]; omega
  · rw [mirroredTail_length _ (im_length src) hpos hle]; omega

theorem lookupDec_toNat_le (p : Nat) : (BitVec.ofNat 8 (lookupDec p).1).toNat ≤ 3 := by
  have hle := lookupDec_le p
  rw [BitVec.toNat_ofNat]
  omega

theorem execEnc_storageOk {p : Nat} {s t : State} (hs : StorageOk s.regs s.mem) (h : execEnc p s = .next t) :
    StorageOk t.regs t.mem := by
  unfold execEnc at h
  split at h
  · cases h
    exact storageOk_complete hs _
  · next q hq =>
    have hq3 : q ≤ 3 := (lookup_some hq).1 ▸ (lookup_some hq).2
    split at h <;> cases h
    · refine ⟨writeFbuf_wf (writeCpx_wf hs.wf (encSpectrum_length ..)) (by simp [hq3]), ?_, ?_⟩
      · have hframe := frameBytes_le hq3
        simp only [nextDraw_regs, succeed_regs, BitVec.toNat_ofNat]
        omega
      · simp only [nextDraw_regs, succeed_regs, BitVec.toNat_ofNat]
        omega
    · exact storageOk_complete hs _

theorem execDec_storageOk {s t : State} (hs : StorageOk s.regs s.mem) (h : execDec s = .next t) :
    StorageOk t.regs t.mem := by
  unfold execDec at h
  split at h
  · cases h
    exact storageOk_complete hs _
  · split at h <;> cases h
    · exact storageOk_complete hs _
    · exact ⟨writePcmOut_wf (writeCpx_wf hs.wf (decSpectrum_length ..)) (by simp), hs.flen, lookupDec_toNat_le _⟩

theorem execWrbits_wf {n : Nat} {s t : State} (hs : s.mem.wf = true) (h : execWrbits n s = .next t) :
    t.mem.wf = true := by
  unfold execWrbits at h
  split at h
  · split at h <;> cases h
    · next hfit => exact writeFbuf_wf hs (by rw [orField_length]; exact fieldBytes_le _ _ hfit)
    · exact hs
  · cases h
    exact hs

theorem execHerm_wf {p : Nat} {s t : State} (hs : s.mem.wf = true) (h : execHerm p s = .next t) :
    t.mem.wf = true := by
  by_cases hp : p ≤ 3
  · rw [execHerm_known s hp] at h
    cases h
    exact mirrorSpectrum_wf hs (le_trans (by decide) (binCount_pos hp)) (binCount_le p)
  · rw [execHerm_unknown s (by omega)] at h
    cases h
    exact hs

/-- The commands other than ENC and DEC write neither FLEN nor DPROF (R188). -/
theorem storageOk_of_wf {i : Instr} {s t : State} (hs : StorageOk s.regs s.mem) (h : exec i s = .next t)
    (hwf : t.mem.wf = true) (henc : ∀ p, i ≠ .enc p) (hdec : i ≠ .dec) : StorageOk t.regs t.mem := by
  obtain ⟨⟨w, code, hregs⟩, -⟩ := exec_writesOnly h
  obtain ⟨-, -, -, -, -, -, -, -, -, -, -, hdprof, -, hflen, -⟩ := writtenRegs_frame i s.regs w
  have hflen := hflen.resolve_right fun ⟨p, hp⟩ => henc p hp
  have hdprof := hdprof.resolve_right fun hi => hi.elim hdec fun ⟨p, hp⟩ => henc p hp
  rw [hregs]
  exact ⟨hwf, hflen ▸ hs.flen, hdprof ▸ hs.dprof⟩

/-- The commands whose Writes lists name registers only. -/
def registersOnly (i : Instr) : Bool :=
  match i with
  | .nop | .quant _ | .dequant _ | .rdbits _ | .fsize _ => true
  | _ => false

theorem exec_mem_of_registersOnly {i : Instr} {s t : State} (h : exec i s = .next t) (hi : registersOnly i = true) :
    t.mem = s.mem := by
  cases i with
  | nop => cases h; rfl
  | quant b =>
    simp only [exec, execQuant] at h
    split at h
    · split at h <;> cases h <;> rfl
    · cases h; rfl
  | dequant b | rdbits n =>
    simp only [exec, execDequant, execRdbits] at h
    split at h <;> cases h <;> rfl
  | fsize p =>
    simp only [exec, execFsize] at h
    split at h <;> cases h <;> rfl
  | _ => cases hi

theorem exec_storageOk {i : Instr} {s t : State} (hs : StorageOk s.regs s.mem) (h : exec i s = .next t) :
    StorageOk t.regs t.mem := by
  have hkept (hwf : t.mem.wf = true) := storageOk_of_wf hs h hwf
  cases i with
  | enc p => exact execEnc_storageOk hs h
  | dec => exact execDec_storageOk hs h
  | nop | quant | dequant | rdbits | fsize =>
    exact hkept (exec_mem_of_registersOnly h rfl ▸ hs.wf) (fun _ => Instr.noConfusion) Instr.noConfusion
  | herm p => exact hkept (execHerm_wf hs.wf h) (fun _ => Instr.noConfusion) Instr.noConfusion
  | wrbits n => exact hkept (execWrbits_wf hs.wf h) (fun _ => Instr.noConfusion) Instr.noConfusion
  | fftf | ffti =>
    refine hkept ?_ (fun _ => Instr.noConfusion) Instr.noConfusion
    cases h
    exact writeCpx_wf hs.wf (fftCore_length ..)
  | spclr =>
    refine hkept ?_ (fun _ => Instr.noConfusion) Instr.noConfusion
    rw [exec_spclr] at h
    cases h
    exact writeSpectrum_wf hs.wf (by rw [zeroBuffer_length]) (by rw [zeroBuffer_length])
  | fbclr =>
    refine hkept ?_ (fun _ => Instr.noConfusion) Instr.noConfusion
    rw [exec_fbclr] at h
    cases h
    exact writeFbuf_wf hs.wf (by rw [zeroFrame_length])

/-! ## The soft reset (R382) -/

theorem isRam_of_mem_memWrites {i : Instr} {r : Regs} {q : Nat × Nat} (hq : q ∈ memWrites i r) :
    ∀ k < q.2, isRam (q.1 + k) = true := by
  refine isRam_of_range ?_
  cases i with
  | nop | quant | dequant | rdbits | fsize => cases hq
  | herm p =>
    simp only [memWrites] at hq
    split at hq
    · next b _ =>
      have hle := binCount_le b
      simp only [List.mem_cons, List.not_mem_nil, or_false] at hq
      rcases hq with rfl | rfl <;> simp only [reBase, imBase] <;> omega
    · cases hq
  | wrbits n =>
    obtain rfl := List.mem_singleton.mp hq
    simp only [fbufRange, fbufBase]
    omega
  | fftf | ffti | spclr =>
    simp only [memWrites, List.mem_cons, List.not_mem_nil, or_false] at hq
    rcases hq with rfl | rfl <;> decide
  | fbclr =>
    obtain rfl := List.mem_singleton.mp hq
    decide
  | enc | dec =>
    simp only [memWrites, List.mem_cons, List.not_mem_nil, or_false] at hq
    rcases hq with rfl | rfl | rfl <;> decide

theorem abortRanges_isRam {f : InFlight} {q : Nat × Nat} (hq : q ∈ abortRanges f) :
    ∀ k < q.2, isRam (q.1 + k) = true := by
  unfold abortRanges at hq
  split at hq
  · exact isRam_of_mem_memWrites hq
  · cases hq

theorem softReset_mem_wf {s : State} (hs : s.mem.wf = true) : s.softReset.mem.wf = true := by
  cases hf : s.inFlight with
  | none => rwa [softReset_mem_idle hf]
  | some f =>
    rw [softReset_mem_busy hf]
    exact scramble_wf _ _ _ hs fun q hq => abortRanges_isRam hq

/-! ## A command in flight keeps its inputs (R95) -/

theorem good_iff (f : InFlight) (r : Regs) (m : Memory) : f.good r m = true ↔
    f.word = r.cmd ∧ f.mem = m ∧ { f.regs with ie := r.ie, done := r.done, ovr := r.ovr } = r ∧
      r.done = false ∧ r.err = .success ∧ r.trunc = false ∧ r.fbk = false := by
  simp only [InFlight.good, Regs.agrees, Bool.and_eq_true, decide_eq_true_eq, Bool.not_eq_true', and_assoc]

theorem accept_good (s : State) (w : Word) :
    ({ word := w, regs := s.regs.accepting w, mem := s.mem } : InFlight).good (s.regs.accepting w) s.mem = true :=
  (good_iff ..).mpr ⟨rfl, rfl, rfl, rfl, rfl, rfl, rfl⟩

/-- What the host may change while a command is in flight is not among its inputs (R94). -/
theorem good_hostFlags {f : InFlight} {r : Regs} {m : Memory} (h : f.good r m = true) (ie ovr : Bool) :
    f.good { r with ie := ie, done := false, ovr := ovr } m = true := by
  obtain ⟨hword, hmem, hagrees, -, herr, htrunc, hfbk⟩ := (good_iff ..).mp h
  refine (good_iff ..).mpr ⟨hword, hmem, ?_, rfl, herr, htrunc, hfbk⟩
  have hset := congrArg (fun q : Regs => { q with ie := ie, done := false, ovr := ovr }) hagrees
  exact hset

/-! ## Every step -/

theorem inv_hostFlags {s : State} (h : s.inv = true) {r : Regs} (ie done ovr : Bool)
    (hr : r = { s.regs with ie := ie, done := s.regs.done && done, ovr := ovr }) : (s.setRegs r).inv = true := by
  obtain ⟨hstorage, hgood⟩ := (inv_iff s).mp h
  subst hr
  refine (inv_iff _).mpr ⟨⟨hstorage.wf, hstorage.flen, hstorage.dprof⟩, fun f hf => ?_⟩
  have hf := hgood f hf
  obtain ⟨-, -, -, hdone, -⟩ := (good_iff ..).mp hf
  simpa [hdone] using good_hostFlags hf ie ovr

theorem writeCtrl_inv {s : State} (h : s.inv = true) (v : Word) : (s.writeCtrl v).inv = true := by
  obtain ⟨hstorage, -⟩ := (inv_iff s).mp h
  cases hv : v.getLsbD 1 with
  | true =>
    rw [writeCtrl_srst _ hv]
    exact inv_of_idle (softReset_inFlight s) (softReset_regs s ▸ storageOk_reset (softReset_mem_wf hstorage.wf))
  | false =>
    rw [writeCtrl_ie _ hv]
    exact inv_hostFlags h (v.getLsbD 0) true s.regs.ovr (by rw [Bool.and_true])

theorem clampFlen_le (v : Word) : (clampFlen v).toNat ≤ 4096 := by
  rw [clampFlen, BitVec.toNat_ofNat, Config.fbufBytes]
  omega

theorem writeEffect_inv {s t : State} {r : Region} {a : Nat} {n : Size} {v : Word} (h : s.inv = true)
    (hl : legalRegion a n = some r) (he : WriteEffect s r a n v t) : t.inv = true := by
  obtain ⟨hstorage, -⟩ := (inv_iff s).mp h
  cases he with
  | dropped => exact h
  | ctrl => exact writeCtrl_inv h v
  | status => exact inv_hostFlags h s.regs.ie (!v.getLsbD 1) (s.regs.ovr && !v.getLsbD 2) rfl
  | overrun => exact inv_hostFlags h s.regs.ie true true (by rw [Bool.and_true]; rfl)
  | cmd =>
    refine (inv_iff _).mpr ⟨⟨hstorage.wf, hstorage.flen, hstorage.dprof⟩, fun f hf => ?_⟩
    obtain rfl := Option.some.inj hf
    exact accept_good s v
  | operand hf w _ hdprof hflen =>
    refine inv_of_idle hf ⟨hstorage.wf, ?_, hdprof ▸ hstorage.dprof⟩
    rcases hflen with hkept | hclamp
    · exact hkept ▸ hstorage.flen
    · exact hclamp ▸ clampFlen_le v
  | memory hf hr => exact inv_of_idle hf ⟨writeBlock_legal_wf hstorage.wf hl hr _, hstorage.flen, hstorage.dprof⟩

theorem access_inv {s : State} (h : s.inv = true) (x : Access) : (s.access x).inv = true := by
  obtain ⟨d, e, k, hread⟩ | ⟨a, n, v, r, t, rfl, hl, heffect, haccess⟩ := access_cases s x
  · rw [hread]
    exact h
  · rw [haccess]
    have ht : t.inv = true := writeEffect_inv h hl heffect
    exact ht

theorem engineTurn_inv {s t : State} (h : s.inv = true) (ht : engineTurn s = .next t) : t.inv = true := by
  obtain ⟨hstorage, -⟩ := (inv_iff s).mp h
  obtain rfl | rfl | ⟨i, hexec⟩ := engineTurn_cases ht
  · exact h
  · exact inv_of_idle rfl (storageOk_complete hstorage _)
  · obtain ⟨u, hu, ⟨hidle, -⟩, -⟩ := exec_next i s
    obtain rfl : u = t := Host.Outcome.next.inj (hu.symm.trans hexec)
    exact inv_of_idle hidle (exec_storageOk hstorage hexec)

/-- Settles O14: the engine's turn, a host access and the power-on reset each keep the invariant. -/
theorem stepKeepsTheInvariant : Obligations.StepKeepsTheInvariant := by
  intro s t h hstep
  obtain ⟨rest, hturn⟩ | ⟨x, rest, -, rfl⟩ | ⟨rest, -, rfl⟩ := step_cases hstep
  · exact engineTurn_inv (s := s.setInbox rest) h hturn
  · exact access_inv (s := s.setInbox rest) h x
  · exact inv_of_idle rfl (storageOk_reset (powerOn_mem_wf _))

end Sys2Proof.GoodStates
end

section
/-! SUPPORT. The profile ROM (41_profile.md R202 to R211) and the bit reversal REV (42_fft.md R221). -/

namespace Sys2Proof.Tables

open Sys2Proof Sys2Proof.Machine

/-! ## Weights -/

theorem weight_bounds : ∀ p < 4, ∀ i < binCount p, 5 ≤ weight p i ∧ weight p i ≤ 16 := by decide +kernel

/-- Settles O54: the weight table evaluated at every bin of the four profiles, and the totals of R207. -/
theorem profileTotalsAndWeights : Obligations.ProfileTotalsAndWeights := by
  have hrow {f : Nat → Nat} {v : List Nat} (hlen : v.length = 4) (h : ∀ p ≤ 3, f p = v.getD p 0) :
      [0, 1, 2, 3].map f = v := by
    obtain ⟨v₀, v₁, v₂, v₃, rfl⟩ := List.length_eq_four.mp hlen
    simp [h]
  exact ⟨by decide +kernel, by decide, hrow rfl fun _ => totalBits_eq, hrow rfl fun _ => payloadBytes_eq,
    hrow rfl fun _ => frameBytes_eq, weight_bounds⟩

/-- A byte of PROM as a number: the weight of an encoded bin, 0 past the last one (R208). -/
theorem promEntry_toNat {p : Nat} (hp : p < 4) (i : Nat) :
    (promEntry p i).toNat = if i < binCount p then weight p i else 0 := by
  unfold promEntry
  split
  · next hi =>
    have hle := (weight_bounds p hp i hi).2
    rw [BitVec.toNat_ofNat]
    omega
  · rfl

/-! ## The bit reversal -/

/-- REV spells the ten bits of `i` from the least significant one on, as a number. -/
theorem rev_eq_natOf (i : Nat) : rev i = natOf ((List.range 10).map i.testBit) := by
  have hbit (k : Nat) : i / 2 ^ k % 2 = (i.testBit k).toNat := by
    rw [Nat.testBit_eq_decide_div_mod_eq]
    rcases Nat.mod_two_eq_zero_or_one (i / 2 ^ k) with h | h <;> simp [h]
  simp only [rev, natOf, List.foldl_map, hbit, Config.log2N]

theorem rev_lt (i : Nat) : rev i < 1024 := by
  have hlt := natOf_lt ((List.range 10).map i.testBit)
  rw [rev_eq_natOf]
  simpa using hlt

theorem rev_testBit (i : Nat) {k : Nat} (hk : k < 10) : (rev i).testBit k = i.testBit (9 - k) := by
  rw [rev_eq_natOf, natOf_testBit, if_pos (by simpa using hk)]
  simp [List.getD_eq_getElem?_getD, show 10 - 1 - k < 10 by omega]

theorem rev_rev {i : Nat} (hi : i < 1024) : rev (rev i) = i := by
  refine Nat.eq_of_testBit_eq fun k => ?_
  by_cases hk : k < 10
  · rw [rev_testBit _ hk, rev_testBit _ (by omega)]
    congr 1
    omega
  · have hpow : 2 ^ 10 ≤ 2 ^ k := Nat.pow_le_pow_right (by decide) (by omega)
    have hrev := rev_lt (rev i)
    rw [Nat.testBit_lt_two_pow (by omega), Nat.testBit_lt_two_pow (by omega)]

/-- Settles O56: bit `k` of REV is bit `9 - k`, so that reversing twice gives every bit back. -/
theorem bitReversalIsAnInvolution : Obligations.BitReversalIsAnInvolution :=
  ⟨fun i hi => ⟨rev_lt i, rev_rev hi, fun _ hk => rev_testBit i hk⟩, by decide +kernel⟩

end Sys2Proof.Tables
end

section
/-! SUPPORT. The bus (20_memory.md R80 to R94): which registers the page holds at its offsets, what each read answers
and each ignored or dropped write keeps, STATUS and CTRL, and PROM. -/

namespace Sys2Proof.BusAccess

open Sys2Proof Sys2Proof.Machine Sys2Proof.BusMemory Sys2Proof.Exceptions Sys2Proof.Steps Sys2Proof.Tables

/-! ## The register page by its aligned offsets (R82, R83) -/

/-- Registers whose writes are ignored, also while the engine is idle (R83, R87). -/
def readOnlyReg (r : HostReg) : Bool :=
  match r with
  | .ctrl | .status | .cmd | .nsamp | .flen | .boff | .bitidx | .value | .xinLo | .xinHi | .scaleLo | .scaleHi => false
  | _ => true

theorem readableWhileBusy_regAt :
    ∀ k < 64, (regAt (4 * k)).readableWhileBusy = decide (k < 11 ∨ 24 < k) := by decide

theorem regAt_reserved : ∀ k < 64, (5 ≤ k ∧ k ≤ 7) ∨ (25 ≤ k ∧ k ≤ 31) ∨ 48 ≤ k → regAt (4 * k) = .reserved := by
  decide

theorem readOnlyReg_regAt :
    ∀ k < 64, k ≤ 7 ∨ k = 11 ∨ k = 17 ∨ k = 20 ∨ k = 21 ∨ 24 ≤ k → readOnlyReg (regAt (4 * k)) = true := by decide

/-- An aligned offset of the page is `4k` for some `k < 64`. -/
theorem exists_page_index {a : Nat} (h4 : a % 4 = 0) (ha : a < 0x100) : ∃ k, k < 64 ∧ a = 4 * k :=
  ⟨a / 4, by omega, by omega⟩

/-! ## Reads (R86 to R94) -/

@[simp] theorem answer_answer (s : State) (d d' : Word) (e e' : Bool) : (s.answer d e).answer d' e' = s.answer d' e' :=
  rfl

theorem readIdle_answer (s : State) (d : Word) (e : Bool) (r : Region) (a : Nat) (n : Size) :
    (s.answer d e).readIdle r a n = s.readIdle r a n := by
  cases r <;> rfl

theorem legalRead_idle {s : State} (hf : s.inFlight = none) (r : Region) (a : Nat) (n : Size) :
    s.legalRead r a n = s.answer (s.readIdle r a n) false := by
  simp [State.legalRead, hf]

/-- A location that gives its value while BUSY gives it always (R94 (a)). -/
theorem legalRead_value (s : State) {r : Region} {a : Nat} (hr : r.readableWhileBusy a = true) (n : Size) :
    s.legalRead r a n = s.answer (s.readIdle r a n) false := by
  simp [State.legalRead, hr]

/-- An engine-used location gives a draw while BUSY (R94 (b)). -/
theorem legalRead_draw {s : State} {f : InFlight} (hf : s.inFlight = some f) {r : Region} {a : Nat}
    (hr : r.readableWhileBusy a = false) (n : Size) :
    s.legalRead r a n = (s.answer (Config.freeWord s.draws) false).nextDraw := by
  simp [State.legalRead, State.busy, hf, hr]

/-- Settles O19: a read changes the response alone, and what it answers while idle does not depend on that. -/
theorem readsHaveNoSideEffect : Obligations.ReadsHaveNoSideEffect := by
  intro s a n
  obtain ⟨d, e, k, hread⟩ := access_read s a n
  refine ⟨by rw [hread], by rw [hread], by rw [hread], by rw [hread], by rw [hread]; rfl, fun hf => ?_⟩
  cases hl : legalRegion a.toNat n with
  | none => rw [access_read_illegal hl, access_read_illegal hl, answer_answer]
  | some r =>
    rw [access_read_legal hl, access_read_legal hl, legalRead_idle hf, legalRead_idle (by simpa using hf), readIdle_answer,
      answer_answer]

theorem access_read_value (s : State) {a : Offset} {n : Size} {r : Region} (hr : regionOf a.toNat = some r)
    (hn : a.toNat % n.bytes = 0) (hsize : r.allows n = true) (hv : r.readableWhileBusy a.toNat = true) :
    s.access (.read a n) = s.answer (s.readIdle r a.toNat n) false := by
  rw [access_read_legal (legalRegion_of_aligned hr hn hsize), legalRead_value s hv]

theorem access_read_draw {s : State} {f : InFlight} (hf : s.inFlight = some f) {a : Offset} {n : Size} {r : Region}
    (hr : regionOf a.toNat = some r) (hn : a.toNat % n.bytes = 0) (hsize : r.allows n = true)
    (hv : r.readableWhileBusy a.toNat = false) :
    s.access (.read a n) = (s.answer (Config.freeWord s.draws) false).nextDraw := by
  rw [access_read_legal (legalRegion_of_aligned hr hn hsize), legalRead_draw hf hv]

/-- A register of the page that gives its value while BUSY gives it always. -/
theorem access_read_reg (s : State) {a : Offset} (ha : a.toNat < 0x100) (h4 : a.toNat % 4 = 0)
    (hv : a.toNat < 0x02C ∨ 0x060 < a.toNat) : s.access (.read a .word) = s.answer (s.readReg (regAt a.toNat)) false := by
  refine access_read_value s (r := .regs) ((regionOf_some _ _).mpr ha) h4 rfl ?_
  obtain ⟨k, hk, hak⟩ := exists_page_index h4 ha
  rw [Region.readableWhileBusy, hak, readableWhileBusy_regAt k hk, decide_eq_true_iff]
  omega

theorem access_read_prom (s : State) {a : Offset} {n : Size} (hn : a.toNat % n.bytes = 0)
    (ha : 0xC000 ≤ a.toNat ∧ a.toNat < 0xC800) :
    s.access (.read a n) = s.answer (readData (promBytes (a.toNat - 0xC000) n.bytes)) false :=
  access_read_value s (r := .prom) ((regionOf_some _ _).mpr ha) hn rfl rfl

theorem readReg_reserved {s : State} {a : Nat} (h4 : a % 4 = 0) (ha : (0x014 ≤ a ∧ a ≤ 0x01C) ∨
    (0x064 ≤ a ∧ a ≤ 0x07C) ∨ (0x0C0 ≤ a ∧ a ≤ 0x0FC)) : s.readReg (regAt a) = 0 := by
  obtain ⟨k, hk, rfl⟩ := exists_page_index h4 (by omega)
  rw [regAt_reserved k hk (by omega), State.readReg]

/-- The memories, and the registers from SEQ to DPROF, are engine-used (R94 (b)). -/
theorem exists_engineUsed_region {a : Nat} {n : Size} (hn : a % n.bytes = 0)
    (ha : (n = .word ∧ ((0x02C ≤ a ∧ a ≤ 0x060) ∨ (0x1000 ≤ a ∧ a < 0x3000) ∨ (0x4000 ≤ a ∧ a < 0x8000))) ∨
      (0x8000 ≤ a ∧ a < 0x9000)) :
    ∃ r, regionOf a = some r ∧ r.allows n = true ∧ r.readableWhileBusy a = false := by
  have hrow : (n = .word ∧ ((0x02C ≤ a ∧ a ≤ 0x060) ∨ (0x1000 ≤ a ∧ a < 0x2000) ∨ (0x2000 ≤ a ∧ a < 0x3000) ∨
      (0x4000 ≤ a ∧ a < 0x6000) ∨ (0x6000 ≤ a ∧ a < 0x8000))) ∨ (0x8000 ≤ a ∧ a < 0x9000) :=
    ha.imp_left (And.imp_right fun _ => by omega)
  obtain ⟨rfl, hregs | h | h | h | h⟩ | h := hrow
  · obtain ⟨k, hk, rfl⟩ := exists_page_index hn (by omega)
    refine ⟨.regs, (regionOf_some _ _).mpr (by dsimp only; omega), rfl, ?_⟩
    rw [Region.readableWhileBusy, readableWhileBusy_regAt k hk, decide_eq_false_iff_not]
    omega
  · exact ⟨.pcmIn, (regionOf_some _ _).mpr h, rfl, rfl⟩
  · exact ⟨.pcmOut, (regionOf_some _ _).mpr h, rfl, rfl⟩
  · exact ⟨.re, (regionOf_some _ _).mpr h, rfl, rfl⟩
  · exact ⟨.im, (regionOf_some _ _).mpr h, rfl, rfl⟩
  · exact ⟨.fbuf, (regionOf_some _ _).mpr h, rfl, rfl⟩

/-- Settles O20: each clause is a read of a location that is engine-used, or one that gives its value always. -/
theorem busyReadsAreDrawsOrValues : Obligations.BusyReadsAreDrawsOrValues := by
  intro s f a n hf hn answers
  refine ⟨fun ha => ?draw, ?value, ?cmd, ?reserved, fun ha => access_read_prom s hn ha⟩
  case draw =>
    obtain ⟨r, hr, hsize, hv⟩ := exists_engineUsed_region hn ha
    exact access_read_draw hf hr hn hsize hv
  case value =>
    rintro rfl ha
    exact access_read_reg s (by omega) hn (by omega)
  case cmd =>
    rintro rfl ha
    have hread := access_read_reg s (a := a) (by omega) hn (by omega)
    rw [ha] at hread
    exact hread
  case reserved =>
    rintro rfl ha
    have hread := access_read_reg s (a := a) (by omega) hn (by omega)
    rw [readReg_reserved hn ha] at hread
    exact hread

/-! ## Writes without effect (R83, R87, R88, R91, R94) -/

/-- Settles O21: the effects of a legal write while BUSY, without those at the offsets of CTRL, STATUS and CMD. -/
theorem busyWritesAreDropped : Obligations.BusyWritesAreDropped := by
  intro s f a n v hf hctrl hstatus hcmd
  cases hl : legalRegion a.toNat n with
  | none => exact ⟨0, true, access_write_illegal hl, by simp⟩
  | some r =>
    refine ⟨0, false, ?_, by simp⟩
    rw [access_write_legal hl]
    obtain h | ⟨-, ha, -⟩ | ⟨-, ha, -⟩ | ⟨-, ha, -⟩ := legalWrite_busy_cases (busy_some hf) r a.toNat n v
    · rw [h]
      rfl
    · exact absurd (eq_of_regAt_ctrl ha) hctrl
    · exact absurd (eq_of_regAt_status ha) hstatus
    · exact absurd (eq_of_regAt_cmd ha) hcmd

theorem legalWrite_readOnlyReg (s : State) {a : Nat} (h : readOnlyReg (regAt a) = true) (n : Size) (v : Word) :
    s.legalWrite .regs a n v = s := by
  have hregs : s.writeRegBusy (regAt a) v = s ∧ s.writeRegIdle (regAt a) v = s := by
    generalize regAt a = r at h
    cases r with
    | ctrl | status | cmd | nsamp | flen | boff | bitidx | value | xinLo | xinHi | scaleLo | scaleHi => cases h
    | _ => exact ⟨rfl, rfl⟩
  simp [State.legalWrite, hregs]

/-- Settles O25: the region of each offset ignores the write, or its register does. -/
theorem readOnlyLocationsIgnoreWrites : Obligations.ReadOnlyLocationsIgnoreWrites := by
  intro s a n v hn ha
  have hignored {r : Region} (hr : regionOf a.toNat = some r) (hsize : r.allows n = true)
      (hw : s.legalWrite r a.toNat n v = s) : ∃ d, s.access (.write a n v) = s.answer d false :=
    ⟨0, by rw [access_write_legal (legalRegion_of_aligned hr hn hsize), hw]⟩
  obtain ⟨rfl, hword⟩ | hprom := ha
  · have hrow : a.toNat < 0x100 ∨ (0x2000 ≤ a.toNat ∧ a.toNat < 0x3000) := by omega
    obtain hpage | hpcmOut := hrow
    · obtain ⟨k, hk, hak⟩ := exists_page_index hn hpage
      refine hignored (r := .regs) ((regionOf_some _ _).mpr hpage) rfl (legalWrite_readOnlyReg s ?_ _ v)
      rw [hak]
      exact readOnlyReg_regAt k hk (by omega)
    · exact hignored (r := .pcmOut) ((regionOf_some _ _).mpr hpcmOut) rfl rfl
  · exact hignored (r := .prom) ((regionOf_some _ _).mpr hprom) rfl rfl

/-! ## The constants and the PROF registers (10_state.md R22, R37) -/

theorem read_reg_resp (s : State) {a : Nat} (ha : a < 0x100) (h4 : a % 4 = 0) (hv : a < 0x02C ∨ 0x060 < a) :
    (s.access (.read (BitVec.ofNat 16 a) .word)).resp = some { data := s.readReg (regAt a), error := false } := by
  have hnat : (BitVec.ofNat 16 a).toNat = a := by rw [BitVec.toNat_ofNat]; omega
  rw [access_read_reg s (by omega) (by omega) (by omega), hnat, answer_resp]

/-- The PROF registers of profile `p`, one for each row of R37. -/
theorem regAt_prof {p : Nat} (hp : p ≤ 3) :
    regAt (0x080 + 4 * p) = .profBins p ∧ regAt (0x090 + 4 * p) = .profTbits p ∧
      regAt (0x0A0 + 4 * p) = .profPbytes p ∧ regAt (0x0B0 + 4 * p) = .profFbytes p := by
  interval_cases p <;> decide

theorem readReg_profBins (s : State) {p : Nat} (hp : p ≤ 3) :
    s.readReg (regAt (0x080 + 4 * p)) = BitVec.ofNat 32 ([160, 256, 384, 512].getD p 0) := by
  obtain ⟨hreg, -⟩ := regAt_prof hp
  rw [hreg, State.readReg]
  interval_cases p <;> rfl

theorem readReg_profTbits (s : State) {p : Nat} (hp : p ≤ 3) :
    s.readReg (regAt (0x090 + 4 * p)) = BitVec.ofNat 32 ([2404, 4452, 7568, 16384].getD p 0) := by
  obtain ⟨-, hreg, -⟩ := regAt_prof hp
  rw [hreg, State.readReg, totalBits_eq hp]

theorem readReg_profPbytes (s : State) {p : Nat} (hp : p ≤ 3) :
    s.readReg (regAt (0x0A0 + 4 * p)) = BitVec.ofNat 32 ([301, 557, 946, 2048].getD p 0) := by
  obtain ⟨-, -, hreg, -⟩ := regAt_prof hp
  rw [hreg, State.readReg, payloadBytes_eq hp]

theorem readReg_profFbytes (s : State) {p : Nat} (hp : p ≤ 3) :
    s.readReg (regAt (0x0B0 + 4 * p)) = BitVec.ofNat 32 ([313, 569, 958, 2060].getD p 0) := by
  obtain ⟨-, -, -, hreg⟩ := regAt_prof hp
  rw [hreg, State.readReg, frameBytes_eq hp]

/-- A row of four PROF registers through the bus, busy or not. -/
theorem read_prof_row (s : State) (base : Nat) (values : List Nat) (hb : 0x080 ≤ base ∧ base ≤ 0x0B0) (h4 : base % 4 = 0)
    (hlen : values.length = 4)
    (hrow : ∀ p ≤ 3, s.readReg (regAt (base + 4 * p)) = BitVec.ofNat 32 (values.getD p 0)) :
    ([base, base + 4, base + 8, base + 12].map fun a => (s.access (.read (BitVec.ofNat 16 a) .word)).resp) =
      values.map fun v => some { data := BitVec.ofNat 32 v, error := false } := by
  obtain ⟨v₀, v₁, v₂, v₃, rfl⟩ := List.length_eq_four.mp hlen
  have hread (p : Nat) (hp : p ≤ 3) := (read_reg_resp s (a := base + 4 * p) (by omega) (by omega) (by omega)).trans
    (congrArg (fun w => some (Response.mk w false)) (hrow p hp))
  have h0 := hread 0 (by decide)
  have h1 := hread 1 (by decide)
  have h2 := hread 2 (by decide)
  have h3 := hread 3 (by decide)
  simp only [Nat.mul_zero, Nat.add_zero] at h0
  simp only [List.map_cons, List.map_nil, h0, h1, h2, h3]
  rfl

/-- Settles O16: reset values by evaluation, the constants through the bus, and the power-on event's own fields. -/
theorem powerOnResetLeavesTheResetValues : Obligations.PowerOnResetLeavesTheResetValues := by
  refine ⟨by decide, by decide, by decide, by decide, fun s => ?constants, rfl, fun _ => rfl, fun s rest hi => ?event⟩
  case constants =>
    refine ⟨?_, read_prof_row s 0x080 _ (by decide) (by decide) rfl fun p => readReg_profBins s,
      read_prof_row s 0x090 _ (by decide) (by decide) rfl fun p => readReg_profTbits s,
      read_prof_row s 0x0A0 _ (by decide) (by decide) rfl fun p => readReg_profPbytes s,
      read_prof_row s 0x0B0 _ (by decide) (by decide) rfl fun p => readReg_profFbytes s⟩
    simp only [List.map_cons, List.map_nil]
    rw [read_reg_resp s (a := 0x000) (by decide) (by decide) (by decide),
      read_reg_resp s (a := 0x004) (by decide) (by decide) (by decide),
      read_reg_resp s (a := 0x008) (by decide) (by decide) (by decide),
      read_reg_resp s (a := 0x00C) (by decide) (by decide) (by decide),
      read_reg_resp s (a := 0x010) (by decide) (by decide) (by decide)]
    rfl
  case event => exact ⟨_, step_powerOn hi, rfl, rfl, rfl, fun _ => rfl⟩

/-! ## STATUS, CTRL and irq (10_state.md R23, R24; 60_exceptions.md R340, R350) -/

/-- The flags of STATUS and the error code above them, as one number. -/
def statusNat (b₀ b₁ b₂ b₃ b₄ : Bool) (code : Nat) : Nat :=
  b₀.toNat + 2 * b₁.toNat + 4 * b₂.toNat + 8 * b₃.toNat + 16 * b₄.toNat + 256 * code

section StatusBits

variable (b₀ b₁ b₂ b₃ b₄ : Bool) (code : Nat)

theorem testBit_eq_of_div_mod {n k : Nat} {b : Bool} (h : n / 2 ^ k % 2 = b.toNat) : n.testBit k = b := by
  rw [Nat.testBit_eq_decide_div_mod_eq, h]
  cases b <;> rfl

theorem statusNat_flags :
    (statusNat b₀ b₁ b₂ b₃ b₄ code).testBit 0 = b₀ ∧ (statusNat b₀ b₁ b₂ b₃ b₄ code).testBit 1 = b₁ ∧
    (statusNat b₀ b₁ b₂ b₃ b₄ code).testBit 2 = b₂ ∧ (statusNat b₀ b₁ b₂ b₃ b₄ code).testBit 3 = b₃ ∧
    (statusNat b₀ b₁ b₂ b₃ b₄ code).testBit 4 = b₄ := by
  have h₀ := b₀.toNat_lt
  have h₁ := b₁.toNat_lt
  have h₂ := b₂.toNat_lt
  have h₃ := b₃.toNat_lt
  have h₄ := b₄.toNat_lt
  refine ⟨?_, ?_, ?_, ?_, ?_⟩ <;> refine testBit_eq_of_div_mod ?_ <;> unfold statusNat <;> omega

theorem statusNat_split : ∃ low < 32, statusNat b₀ b₁ b₂ b₃ b₄ code = low + 256 * code := by
  have h₀ := b₀.toNat_lt
  have h₁ := b₁.toNat_lt
  have h₂ := b₂.toNat_lt
  have h₃ := b₃.toNat_lt
  have h₄ := b₄.toNat_lt
  exact ⟨_, by omega, rfl⟩

theorem statusNat_zero_bits {code : Nat} (hc : code < 16) {k : Nat} (hk : (5 ≤ k ∧ k ≤ 7) ∨ 12 ≤ k) :
    (statusNat b₀ b₁ b₂ b₃ b₄ code).testBit k = false := by
  obtain ⟨low, hlow, heq⟩ := statusNat_split b₀ b₁ b₂ b₃ b₄ code
  rw [heq]
  obtain ⟨hlo, hhi⟩ | hk := hk
  · refine testBit_eq_of_div_mod ?_
    rw [Bool.toNat_false]
    interval_cases k <;> omega
  · have hpow : 2 ^ 12 ≤ 2 ^ k := Nat.pow_le_pow_right (by decide) hk
    exact Nat.testBit_lt_two_pow (by omega)

theorem statusNat_code {code : Nat} (hc : code < 16) :
    statusNat b₀ b₁ b₂ b₃ b₄ code < 2 ^ 32 ∧ statusNat b₀ b₁ b₂ b₃ b₄ code / 256 % 16 = code := by
  obtain ⟨low, hlow, heq⟩ := statusNat_split b₀ b₁ b₂ b₃ b₄ code
  omega

end StatusBits

theorem statusWord_eq (s : State) : s.statusWord =
    BitVec.ofNat 32 (statusNat s.busy s.regs.done s.regs.ovr s.regs.trunc s.regs.fbk s.regs.err.code) := rfl

theorem errCode_lt (e : ErrCode) : e.code < 16 := by cases e <;> decide

theorem statusWord_flags (s : State) :
    s.statusWord.getLsbD 0 = s.busy ∧ s.statusWord.getLsbD 1 = s.regs.done ∧ s.statusWord.getLsbD 2 = s.regs.ovr ∧
    s.statusWord.getLsbD 3 = s.regs.trunc ∧ s.statusWord.getLsbD 4 = s.regs.fbk := by
  simp only [statusWord_eq, BitVec.getLsbD_ofNat]
  exact statusNat_flags ..

theorem statusWord_zero_bits (s : State) {k : Nat} (hk : (5 ≤ k ∧ k ≤ 7) ∨ 12 ≤ k) :
    s.statusWord.getLsbD k = false := by
  rw [statusWord_eq, BitVec.getLsbD_ofNat, statusNat_zero_bits _ _ _ _ _ (errCode_lt _) hk, Bool.and_false]

theorem statusWord_code (s : State) : (s.statusWord.extractLsb' 8 4).toNat = s.regs.err.code := by
  obtain ⟨hlt, hcode⟩ := statusNat_code s.busy s.regs.done s.regs.ovr s.regs.trunc s.regs.fbk (errCode_lt s.regs.err)
  rw [statusWord_eq, BitVec.extractLsb'_toNat, BitVec.toNat_ofNat, Nat.mod_eq_of_lt hlt, Nat.shiftRight_eq_div_pow]
  exact hcode

/-- STATUS acts alike whether or not a command is in flight (R94). -/
theorem access_write_status (s : State) (v : Word) :
    s.access (.write 0x024 .word v) = (s.setRegs (s.regs.writeStatus v)).answer 0 false := by
  cases hf : s.inFlight with
  | none => exact access_write_reg_idle hf (by decide) (by decide) v
  | some f => exact access_write_reg_busy hf (by decide) (by decide) v

theorem read_status (s : State) :
    (s.access (.read 0x024 .word)).resp = some { data := s.statusWord, error := false } :=
  congrArg State.resp (access_read_reg s (a := 0x024) (by decide) (by decide) (by decide))

theorem read_ctrl (s : State) :
    (s.access (.read 0x020 .word)).resp = some { data := s.regs.ctrlWord, error := false } :=
  congrArg State.resp (access_read_reg s (a := 0x020) (by decide) (by decide) (by decide))

/-- Settles O26: STATUS read bit by bit, and the two writes as updates of the registers. -/
theorem interruptFollowsDoneAndEnable : Obligations.InterruptFollowsDoneAndEnable := by
  intro s v status ctrl
  have hstatus : status = (s.setRegs (s.regs.writeStatus v)).answer 0 false := access_write_status s v
  have hdone : status.regs.done = (s.regs.done && !v.getLsbD 1) := by rw [hstatus]; rfl
  have hovr : status.regs.ovr = (s.regs.ovr && !v.getLsbD 2) := by rw [hstatus]; rfl
  have hirq : status.irq = (s.regs.done && !v.getLsbD 1 && s.regs.ie) := by rw [hstatus]; rfl
  have hctrl (hv : v.getLsbD 1 = false) : ctrl = (s.setRegs { s.regs with ie := v.getLsbD 0 }).answer 0 false := by
    rw [← writeCtrl_ie s hv]
    exact access_write_ctrl s v
  obtain ⟨hbusy, hd, ho, ht, hfbk⟩ := statusWord_flags s
  refine ⟨Bool.and_eq_true_iff, ⟨_, read_status s, hbusy, hd, ho, ht, hfbk, fun k hk => statusWord_zero_bits s hk, ?code⟩,
    ?ctrl, ⟨0, ?frame⟩, fun hv => ?ack, fun hv => ?keep, fun hv => ?clear, fun hv => ?sticky, fun hv => ⟨0, hctrl hv⟩,
    fun hv hie => ?hide⟩
  case code =>
    rw [statusWord_code]
    cases s.regs.err <;> rfl
  case ctrl =>
    rw [read_ctrl, Regs.ctrlWord]
    cases s.regs.ie <;> rfl
  case frame =>
    rw [hdone, hovr, hstatus]
    rfl
  case ack =>
    rw [hdone, hirq, hv]
    simp
  case keep =>
    rw [hdone, hirq, hv]
    simp [State.irq]
  case clear =>
    rw [hovr, hv]
    simp
  case sticky =>
    rw [hovr, hv]
    simp
  case hide =>
    rw [hctrl hv, hie]
    exact ⟨Bool.and_false _, rfl⟩

/-! ## The registers through the idle bus (10_state.md R25 to R36) -/

/-- An aligned offset of the register page. -/
def onPage (o : Offset) : Prop := o.toNat < 0x100 ∧ o.toNat % 4 = 0

theorem write_reg {s : State} (hf : s.inFlight = none) {o : Offset} (ho : onPage o) (v : Word) {w : Regs}
    (hw : s.writeRegIdle (regAt o.toNat) v = s.setRegs w) :
    s.access (.write o .word v) = (s.setRegs w).answer 0 false := by
  rw [access_write_reg_idle hf ho.1 ho.2, hw]

theorem read_reg {s : State} (hf : s.inFlight = none) {o : Offset} (ho : onPage o) {w : Word}
    (hw : s.readReg (regAt o.toNat) = w) : (s.access (.read o .word)).resp = some { data := w, error := false } := by
  rw [access_read_reg_idle hf ho.1 ho.2, hw, answer_resp]

/-- What was written reads back, as far as the register stores it. -/
theorem read_write_reg {s : State} (hf : s.inFlight = none) {o : Offset} (ho : onPage o) {v w : Word} {r : Regs}
    (hr : s.writeRegIdle (regAt o.toNat) v = s.setRegs r)
    (hw : ((s.setRegs r).answer 0 false).readReg (regAt o.toNat) = w) :
    ((s.access (.write o .word v)).access (.read o .word)).resp = some { data := w, error := false } := by
  rw [write_reg hf ho v hr]
  exact read_reg (by simpa using hf) ho hw

theorem setWidth_eq_ofNat (u : BitVec 16) : u.setWidth 32 = BitVec.ofNat 32 u.toNat := (BitVec.ofNat_toNat 32 u).symm

theorem extractLsb'_low_toNat (v : Word) : (v.extractLsb' 0 16).toNat = v.toNat % 65536 := by
  rw [BitVec.extractLsb'_toNat, Nat.shiftRight_zero]

theorem extractLsb'_low_eq (v : Word) : v.extractLsb' 0 16 = BitVec.ofNat 16 v.toNat := by
  apply BitVec.eq_of_toNat_eq
  rw [extractLsb'_low_toNat, BitVec.toNat_ofNat]

theorem clampFlen_eq (v : Word) : clampFlen v = BitVec.ofNat 16 (min (v.toNat % 65536) 4096) := by
  rw [clampFlen, extractLsb'_low_toNat, Config.fbufBytes]

theorem ctrlWord_of_bit (v : Word) : BitVec.ofNat 32 (v.getLsbD 0).toNat = BitVec.ofNat 32 (v.toNat % 2) := by
  congr 1
  rw [BitVec.getLsbD, Nat.testBit_zero]
  rcases Nat.mod_two_eq_zero_or_one v.toNat with h | h <;> simp [h]

theorem loHalf_setLo (u : Word64) (v : Word) : loHalf (setLo u v) = v := BitVec.extractLsb'_append_eq_right

theorem hiHalf_setHi (u : Word64) (v : Word) : hiHalf (setHi u v) = v := BitVec.extractLsb'_append_eq_left

/-- Settles O24: each write as the update of one register, each read as the register's word. -/
theorem writableRegistersReadBack : Obligations.WritableRegistersReadBack := by
  intro s a v hf sets reads
  have hset {o : Offset} (ho : onPage o) {w : Regs} (hw : s.writeRegIdle (regAt o.toNat) v = s.setRegs w) : sets o w :=
    ⟨0, write_reg hf ho v hw⟩
  have hread {o : Offset} (ho : onPage o) {w : Word} (hw : s.readReg (regAt o.toNat) = w) : reads o w :=
    read_reg hf ho hw
  refine ⟨fun hv => ⟨hset ⟨by decide, by decide⟩ (writeCtrl_ie s hv),
      read_write_reg hf ⟨by decide, by decide⟩ (writeCtrl_ie s hv) (ctrlWord_of_bit v)⟩,
    hset ⟨by decide, by decide⟩ (by rw [← extractLsb'_low_eq]; rfl),
    hset ⟨by decide, by decide⟩ (by rw [← clampFlen_eq]; rfl),
    hset ⟨by decide, by decide⟩ (by rw [← extractLsb'_low_eq]; rfl),
    hset ⟨by decide, by decide⟩ rfl, hset ⟨by decide, by decide⟩ rfl, hset ⟨by decide, by decide⟩ rfl,
    hset ⟨by decide, by decide⟩ rfl, hset ⟨by decide, by decide⟩ rfl, hset ⟨by decide, by decide⟩ rfl,
    ?back32, ?back16, ?backFlen,
    hread ⟨by decide, by decide⟩ rfl, hread ⟨by decide, by decide⟩ rfl,
    hread ⟨by decide, by decide⟩ (setWidth_eq_ofNat _), hread ⟨by decide, by decide⟩ (setWidth_eq_ofNat _),
    hread ⟨by decide, by decide⟩ (setWidth_eq_ofNat _), hread ⟨by decide, by decide⟩ rfl,
    hread ⟨by decide, by decide⟩ rfl, hread ⟨by decide, by decide⟩ rfl, hread ⟨by decide, by decide⟩ rfl,
    hread ⟨by decide, by decide⟩ rfl, hread ⟨by decide, by decide⟩ rfl, hread ⟨by decide, by decide⟩ rfl,
    hread ⟨by decide, by decide⟩ rfl, hread ⟨by decide, by decide⟩ rfl,
    hread ⟨by decide, by decide⟩ (BitVec.ofNat_toNat 32 s.regs.dprof).symm, fun h4 ha => ?reserved⟩
  case back32 =>
    simp only [List.mem_cons, List.not_mem_nil, or_false]
    rintro (rfl | rfl | rfl | rfl | rfl | rfl)
    · exact read_write_reg hf ⟨by decide, by decide⟩ rfl rfl
    · exact read_write_reg hf ⟨by decide, by decide⟩ rfl rfl
    · exact read_write_reg hf ⟨by decide, by decide⟩ rfl (loHalf_setLo _ _)
    · exact read_write_reg hf ⟨by decide, by decide⟩ rfl (hiHalf_setHi _ _)
    · exact read_write_reg hf ⟨by decide, by decide⟩ rfl (loHalf_setLo _ _)
    · exact read_write_reg hf ⟨by decide, by decide⟩ rfl (hiHalf_setHi _ _)
  case back16 =>
    have hword : (v.extractLsb' 0 16).setWidth 32 = BitVec.ofNat 32 (v.toNat % 65536) := by
      rw [setWidth_eq_ofNat, extractLsb'_low_toNat]
    simp only [List.mem_cons, List.not_mem_nil, or_false]
    rintro (rfl | rfl)
    · exact read_write_reg hf ⟨by decide, by decide⟩ rfl hword
    · exact read_write_reg hf ⟨by decide, by decide⟩ rfl hword
  case backFlen =>
    rintro rfl
    have hword : (clampFlen v).setWidth 32 = BitVec.ofNat 32 (min (v.toNat % 65536) 4096) := by
      rw [setWidth_eq_ofNat, clampFlen_eq, BitVec.toNat_ofNat]
      congr 1
      omega
    exact read_write_reg hf ⟨by decide, by decide⟩ rfl hword
  case reserved => exact hread ⟨by omega, h4⟩ (readReg_reserved h4 ha)

/-! ## PROM (R86, R91) -/

theorem promBytes_getD {a n k : Nat} (hk : k < n) : (promBytes a n).getD k 0 = promByte (a + k) := by
  simp [promBytes, List.getD_eq_getElem?_getD, hk]

theorem promBytes_length (a n : Nat) : (promBytes a n).length = n := by simp [promBytes]

theorem promByte_toNat {a : Nat} (ha : a < 2048) :
    (promByte a).toNat = if a % 512 < binCount (a / 512) then weight (a / 512) (a % 512) else 0 :=
  promEntry_toNat (by omega) _

theorem readData_byte (b : Byte) : readData [b] = BitVec.ofNat 32 b.toNat := by simp [readData, leNat]

/-- Settles O55: the read is the little-endian bytes of PROM, each a weight or 0. -/
theorem promReadsTheWeights : Obligations.PromReadsTheWeights := by
  intro s
  refine ⟨fun p i hp hi => ?byte, fun a n hn hlo hhi => ⟨_, access_read_prom s hn ⟨hlo, hhi⟩, ?prom⟩⟩
  case byte =>
    have hnat : (BitVec.ofNat 16 (0xC000 + 512 * p + i)).toNat = 0xC000 + 512 * p + i := by
      rw [BitVec.toNat_ofNat]; omega
    have hbytes : promBytes (0xC000 + 512 * p + i - 0xC000) 1 = [promByte (512 * p + i)] := by
      rw [show 0xC000 + 512 * p + i - 0xC000 = 512 * p + i by omega]
      rfl
    rw [access_read_prom s (Nat.mod_one _) (by omega), answer_resp, hnat, Size.bytes, hbytes, readData_byte,
      promByte_toNat (by omega), show (512 * p + i) / 512 = p by omega, show (512 * p + i) % 512 = i by omega]
  case prom =>
    have hn4 : n.bytes ≤ 4 := by cases n <;> decide
    have hdata : (readData (promBytes (a.toNat - 0xC000) n.bytes)).toNat = leNat (promBytes (a.toNat - 0xC000) n.bytes) :=
      readData_toNat _ (by rwa [promBytes_length])
    refine ⟨?_, fun k hk => ?_⟩
    · have hlt := leNat_lt (promBytes (a.toNat - 0xC000) n.bytes)
      rwa [promBytes_length, ← hdata] at hlt
    · have hword := aligned_access_div_four hn
      have hbyte := congrArg BitVec.toNat (ofNat_leNat_div (promBytes (a.toNat - 0xC000) n.bytes) k)
      rw [BitVec.toNat_ofNat, promBytes_getD hk, promByte_toNat (by omega), ← hdata,
        show a.toNat - 0xC000 + k = a.toNat + k - 0xC000 by omega] at hbyte
      exact hbyte

end Sys2Proof.BusAccess
end

section
/-! SUPPORT. The binary64 and binary32 encodings (00_scope.md R11, log 12): the three fields of an encoding and the number
they make up, the finite values binary64 holds, and NaNs and infinities through the operations. -/

namespace Sys2Proof.FloatFormat

open Sys2Proof Sys2Proof.Machine

/-! ## The fields of a binary64 encoding -/

def expField (u : Word64) : Nat := (u.extractLsb' 52 11).toNat

def fracField (u : Word64) : Nat := (u.extractLsb' 0 52).toNat

theorem expField_eq (u : Word64) : expField u = u.toNat / 2 ^ 52 % 2 ^ 11 := by
  rw [expField, BitVec.extractLsb'_toNat, Nat.shiftRight_eq_div_pow]

theorem fracField_eq (u : Word64) : fracField u = u.toNat % 2 ^ 52 := by
  rw [fracField, BitVec.extractLsb'_toNat, Nat.shiftRight_zero]

theorem expField_lt (u : Word64) : expField u < 2048 := (u.extractLsb' 52 11).isLt

theorem fracField_lt (u : Word64) : fracField u < 2 ^ 52 := (u.extractLsb' 0 52).isLt

theorem bool_eq_of_toNat_eq : ∀ {a b : Bool}, a.toNat = b.toNat → a = b := by decide

/-- The top bit of a word of `n + 1` bits as a number. -/
theorem getLsbD_top_toNat {n : Nat} (u : BitVec (n + 1)) : (u.getLsbD n).toNat = u.toNat / 2 ^ n := by
  have hlt := u.isLt
  have hdiv : u.toNat / 2 ^ n < 2 := Nat.div_lt_of_lt_mul (by rwa [Nat.pow_succ] at hlt)
  rw [BitVec.getLsbD, Nat.testBit_eq_decide_div_mod_eq, Nat.mod_eq_of_lt hdiv]
  generalize u.toNat / 2 ^ n = d at hdiv
  interval_cases d <;> rfl

/-- The fields of an encoding make it up. -/
theorem packBits64_fields (u : Word64) : packBits64 (u.getLsbD 63) (expField u) (fracField u) = u := by
  have hlt := u.isLt
  apply BitVec.eq_of_toNat_eq
  rw [packBits64, BitVec.toNat_ofNat, getLsbD_top_toNat (n := 63) u, expField_eq, fracField_eq]
  omega

theorem ofBits_eq (u : Word64) : Fp.ofBits u =
    if expField u = 2047 then
      (if u.extractLsb' 0 52 = 0 then .inf (u.getLsbD 63) else .nan (u.getLsbD 63) (u.extractLsb' 0 52))
    else if expField u = 0 then .fin (u.getLsbD 63) (fracField u) (-1074)
    else .fin (u.getLsbD 63) (fracField u + 2 ^ 52) ((expField u : Int) - 1075) := rfl

theorem fracField_eq_zero_iff (u : Word64) : fracField u = 0 ↔ u.extractLsb' 0 52 = 0 :=
  ⟨fun h => BitVec.eq_of_toNat_eq h, fun h => by rw [fracField, h]; rfl⟩

theorem ofBits_inf {u : Word64} (hex : expField u = 2047) (hfrac : fracField u = 0) :
    Fp.ofBits u = .inf (u.getLsbD 63) := by
  rw [ofBits_eq, if_pos hex, if_pos ((fracField_eq_zero_iff u).mp hfrac)]

theorem ofBits_nan {u : Word64} (hex : expField u = 2047) (hfrac : fracField u ≠ 0) :
    Fp.ofBits u = .nan (u.getLsbD 63) (u.extractLsb' 0 52) := by
  rw [ofBits_eq, if_pos hex, if_neg (mt (fracField_eq_zero_iff u).mpr hfrac)]

theorem ofBits_subnormal {u : Word64} (hex : expField u = 0) :
    Fp.ofBits u = .fin (u.getLsbD 63) (fracField u) (-1074) := by
  rw [ofBits_eq, if_neg (by omega), if_pos hex]

theorem ofBits_normal {u : Word64} (hex : expField u ≠ 2047) (hpos : expField u ≠ 0) :
    Fp.ofBits u = .fin (u.getLsbD 63) (fracField u + 2 ^ 52) ((expField u : Int) - 1075) := by
  rw [ofBits_eq, if_neg hex, if_neg hpos]

theorem toBits_ofBits (u : Word64) : (Fp.ofBits u).toBits = u := by
  conv_rhs => rw [← packBits64_fields u]
  have hfrac := fracField_lt u
  by_cases hex : expField u = 2047
  · by_cases hzero : fracField u = 0
    · rw [ofBits_inf hex hzero, Fp.toBits, hex, hzero]
    · rw [ofBits_nan hex hzero, Fp.toBits, hex, fracField]
  · by_cases hpos : expField u = 0
    · rw [ofBits_subnormal hpos, Fp.toBits, if_pos hfrac, hpos]
    · rw [ofBits_normal hex hpos, Fp.toBits, if_neg (by omega), Nat.add_sub_cancel,
        show ((expField u : Int) - 1075 + 1075).toNat = expField u by omega]

/-- Settles O57: each class of encoding, by its exponent field. -/
theorem binary64EncodingsAreKept : Obligations.Binary64EncodingsAreKept := by
  refine fun u => ⟨toBits_ofBits u, fun hex => ?finite, fun hex => ⟨fun hfrac => ofBits_inf hex hfrac, fun hfrac => ?nan⟩⟩
  case finite =>
    by_cases hpos : expField u = 0
    · refine ⟨_, _, ofBits_subnormal hpos, ?_⟩
      exact (if_pos hpos).symm
    · refine ⟨_, _, ofBits_normal hex hpos, ?_⟩
      refine Eq.trans ?_ (if_neg hpos).symm
      rw [Nat.add_comm, fracField, expField]
      congr 1
      omega
  case nan =>
    have hnan := ofBits_nan hex hfrac
    rw [hnan]
    rfl

/-! ## The finite values of binary64 -/

/-- The significand and exponent of a finite f64: full length, or the smallest exponent. -/
structure Canonical (m : Nat) (e : Int) : Prop where
  lt : m < 2 ^ 53
  lo : -1074 ≤ e
  hi : e ≤ 971
  full : e = -1074 ∨ 2 ^ 52 ≤ m

theorem canonical_ofBits {u : Word64} {s : Bool} {m : Nat} {e : Int} (h : Fp.ofBits u = .fin s m e) : Canonical m e := by
  have hfrac := fracField_lt u
  have hexlt := expField_lt u
  by_cases hex : expField u = 2047
  · by_cases hzero : fracField u = 0
    · rw [ofBits_inf hex hzero] at h
      cases h
    · rw [ofBits_nan hex hzero] at h
      cases h
  · by_cases hpos : expField u = 0
    · rw [ofBits_subnormal hpos] at h
      cases h
      exact ⟨by omega, le_refl _, by omega, .inl rfl⟩
    · rw [ofBits_normal hex hpos] at h
      cases h
      exact ⟨by omega, by omega, by omega, .inr (by omega)⟩

theorem expField_ne_of_finiteBits {u : Word64} (h : finiteBits u = true) : expField u ≠ 2047 := fun hex =>
  of_decide_eq_true h (BitVec.eq_of_toNat_eq hex)

theorem ofBits_of_finiteBits {u : Word64} (h : finiteBits u = true) :
    ∃ s m e, Fp.ofBits u = .fin s m e ∧ Canonical m e := by
  have hex := expField_ne_of_finiteBits h
  by_cases hpos : expField u = 0
  · exact ⟨_, _, _, ofBits_subnormal hpos, canonical_ofBits (ofBits_subnormal hpos)⟩
  · exact ⟨_, _, _, ofBits_normal hex hpos, canonical_ofBits (ofBits_normal hex hpos)⟩

/-- Only the two encodings of zero have a zero significand. -/
theorem ofBits_mant_pos {u : Word64} {s : Bool} {m : Nat} {e : Int} (h : Fp.ofBits u = .fin s m e)
    (hu : u.extractLsb' 0 63 ≠ 0) : 0 < m := by
  have hne : expField u ≠ 0 ∨ fracField u ≠ 0 := by
    by_contra hzero
    rw [expField_eq, fracField_eq] at hzero
    refine hu (BitVec.eq_of_toNat_eq ?_)
    rw [BitVec.extractLsb'_toNat, Nat.shiftRight_zero]
    change u.toNat % 2 ^ 63 = 0
    omega
  by_cases hex : expField u = 2047
  · by_cases hzero : fracField u = 0
    · rw [ofBits_inf hex hzero] at h
      cases h
    · rw [ofBits_nan hex hzero] at h
      cases h
  · by_cases hpos : expField u = 0
    · rw [ofBits_subnormal hpos] at h
      cases h
      omega
    · rw [ofBits_normal hex hpos] at h
      cases h
      omega

/-! ## The fields of a binary32 encoding -/

theorem packBits32_toNat (neg : Bool) {ex frac : Nat} (hex : ex < 256) (hfrac : frac < 2 ^ 23) :
    (packBits32 neg ex frac).toNat = neg.toNat * 2 ^ 31 + ex * 2 ^ 23 + frac := by
  have hneg := neg.toNat_lt
  rw [packBits32, BitVec.toNat_ofNat]
  omega

theorem packBits32_sign (neg : Bool) {ex frac : Nat} (hex : ex < 256) (hfrac : frac < 2 ^ 23) :
    (packBits32 neg ex frac).getLsbD 31 = neg := by
  have htop := getLsbD_top_toNat (n := 31) (packBits32 neg ex frac)
  rw [packBits32_toNat neg hex hfrac] at htop
  exact bool_eq_of_toNat_eq (by omega)

theorem packBits32_exp (neg : Bool) {ex frac : Nat} (hex : ex < 256) (hfrac : frac < 2 ^ 23) :
    ((packBits32 neg ex frac).extractLsb' 23 8).toNat = ex := by
  rw [BitVec.extractLsb'_toNat, packBits32_toNat neg hex hfrac, Nat.shiftRight_eq_div_pow]
  omega

theorem packBits32_frac (neg : Bool) {ex frac : Nat} (hex : ex < 256) (hfrac : frac < 2 ^ 23) :
    ((packBits32 neg ex frac).extractLsb' 0 23).toNat = frac := by
  rw [BitVec.extractLsb'_toNat, packBits32_toNat neg hex hfrac, Nat.shiftRight_zero]
  omega

/-! ## NaNs and infinities -/

theorem add_nan_right (t : Tag) (g : Bool) (f : BitVec 52) (y : Fp) : Fp.add t y (.nan g f) = Fp.drawnNaN t := by
  cases y <;> rfl

theorem mul_nan_right (t : Tag) (g : Bool) (f : BitVec 52) (y : Fp) : Fp.mul t y (.nan g f) = Fp.drawnNaN t := by
  cases y <;> rfl

theorem div_nan_right (t : Tag) (g : Bool) (f : BitVec 52) (y : Fp) : Fp.div t y (.nan g f) = Fp.drawnNaN t := by
  cases y <;> rfl

theorem lt_nan_left (g : Bool) (f : BitVec 52) (y : Fp) : Fp.lt (.nan g f) y = false := by cases y <;> rfl

theorem lt_nan_right (g : Bool) (f : BitVec 52) (y : Fp) : Fp.lt y (.nan g f) = false := by cases y <;> rfl

theorem isNaN_iff {x : Fp} : x.isNaN = true ↔ ∃ g f, x = .nan g f := by
  cases x <;> simp [Fp.isNaN]

/-- The fraction of a drawn f32 NaN is not 0 (R11). -/
theorem drawnNaN32_fields (t : Tag) :
    (drawnNaN32 t).extractLsb' 23 8 = 255 ∧ (drawnNaN32 t).extractLsb' 0 23 ≠ 0 := by
  have hfrac : ∃ frac, 0 < frac ∧ frac < 2 ^ 23 ∧ drawnNaN32 t = packBits32 (Config.freeNaN32 t).1 255 frac := by
    unfold drawnNaN32
    split
    · exact ⟨1, by decide, by decide, rfl⟩
    · next hne =>
      exact ⟨_, Nat.pos_of_ne_zero fun h => hne (BitVec.eq_of_toNat_eq h), (Config.freeNaN32 t).2.isLt, rfl⟩
  obtain ⟨frac, hpos, hlt, heq⟩ := hfrac
  rw [heq]
  refine ⟨BitVec.eq_of_toNat_eq (packBits32_exp _ (by decide) hlt), fun hzero => ?_⟩
  have htoNat := congrArg BitVec.toNat hzero
  rw [packBits32_frac _ (by decide) hlt] at htoNat
  exact hpos.ne' htoNat

theorem widen_nan (t : Tag) {u : Word} (hex : u.extractLsb' 23 8 = 255) (hfrac : u.extractLsb' 0 23 ≠ 0) :
    widen32to64 t u = Fp.drawnNaN t := by
  have hne : ¬ (u.extractLsb' 0 23).toNat = 0 := fun h => hfrac (BitVec.eq_of_toNat_eq h)
  simp only [widen32to64, Fp.ofBits32, hex, if_neg hne]
  rfl

theorem nan_propagates (t : Tag) (g : Bool) (f : BitVec 52) (y : Fp) :
    Fp.add t (.nan g f) y = Fp.drawnNaN t ∧ Fp.add t y (.nan g f) = Fp.drawnNaN t ∧
    Fp.sub t (.nan g f) y = Fp.drawnNaN t ∧ Fp.sub t y (.nan g f) = Fp.drawnNaN t ∧
    Fp.mul t (.nan g f) y = Fp.drawnNaN t ∧ Fp.mul t y (.nan g f) = Fp.drawnNaN t ∧
    Fp.div t (.nan g f) y = Fp.drawnNaN t ∧ Fp.div t y (.nan g f) = Fp.drawnNaN t :=
  ⟨add_nan .., add_nan_right .., add_nan .., add_nan_right .., mul_nan .., mul_nan_right .., div_nan .., div_nan_right ..⟩

section Infinity

variable (t : Tag) (s s₁ s₂ : Bool) (m : Nat) (e : Int)

theorem add_inf_opposite : Fp.add t (.inf s) (.inf !s) = Fp.drawnNaN t := by cases s <;> rfl

theorem add_inf_same : Fp.add t (.inf s) (.inf s) = .inf s := if_pos rfl

theorem mul_inf_zero : Fp.mul t (.inf s₁) (.fin s₂ 0 e) = Fp.drawnNaN t ∧
    Fp.mul t (.fin s₂ 0 e) (.inf s₁) = Fp.drawnNaN t := ⟨rfl, rfl⟩

theorem mul_inf_nonzero (hm : m ≠ 0) : Fp.mul t (.inf s₁) (.fin s₂ m e) = .inf (s₁ ^^ s₂) ∧
    Fp.mul t (.fin s₂ m e) (.inf s₁) = .inf (s₁ ^^ s₂) :=
  ⟨if_neg hm, (if_neg hm).trans (by rw [Bool.xor_comm])⟩

end Infinity

/-- Settles O59: the cases of the operations on a NaN operand, on an infinity, and on two zeros. -/
theorem naNsPropagate : Obligations.NaNsPropagate := by
  refine ⟨fun t x y hx => ?nan, fun t u hex hfrac => ?widen, fun t s₁ s₂ m e e' => ?inf⟩
  case nan =>
    obtain ⟨g, f, rfl⟩ := isNaN_iff.mp hx
    obtain ⟨hadd, hadd', hsub, hsub', hmul, hmul', hdiv, hdiv'⟩ := nan_propagates t g f y
    have hnarrow : round64to32 t (.nan g f) = drawnNaN32 t := rfl
    obtain ⟨hex, hfrac⟩ := drawnNaN32_fields t
    simp only [hadd, hadd', hsub, hsub', hmul, hmul', hdiv, hdiv', lt_nan_left, lt_nan_right, hnarrow, hex,
      widen_nan t hex hfrac, drawnNaN_isNaN, true_and, and_true]
    exact hfrac
  case widen =>
    rw [widen_nan t hex hfrac]
    rfl
  case inf =>
    refine ⟨⟨add_inf_same t s₁, ?_, ?_⟩, ⟨rfl, rfl, rfl, rfl⟩,
      ⟨rfl, fun hm => mul_inf_nonzero t s₁ s₂ m e hm, ?_⟩, ⟨rfl, rfl, ?_⟩, ⟨fun hm => ?_, ?_⟩, rfl, rfl, rfl, rfl, rfl⟩
    · rw [add_inf_opposite]
      rfl
    · have hsub : Fp.sub t (.inf s₁) (.inf s₁) = Fp.drawnNaN t := add_inf_opposite t s₁
      rw [hsub]
      rfl
    · rintro rfl
      exact ⟨rfl, rfl⟩
    · exact congrArg (Fp.fin · 0 (-1074)) (Bool.xor_comm s₂ s₁)
    · exact (if_neg hm).trans (by rw [Bool.xor_comm])
    · rintro rfl
      rfl

end Sys2Proof.FloatFormat
end

section
/-! SUPPORT. The arithmetic of R11 in exact rationals (log 12): rounding and each operation on finite values, the values
binary64 holds and keeps, and the two conversions to and from binary32. -/

namespace Sys2Proof.ExactArithmetic

open Sys2Proof Sys2Proof.Machine Sys2Proof.FloatFormat

/-! ## Magnitudes -/

theorem magnitude_nonneg (m : Nat) (e : Int) : 0 ≤ magnitude m e := by unfold magnitude; positivity

theorem magnitude_zero (e : Int) : magnitude 0 e = 0 := by simp [magnitude]

theorem magnitude_eq_zero_iff {m : Nat} {e : Int} : magnitude m e = 0 ↔ m = 0 := by
  simp [magnitude, zpow_ne_zero]

theorem magnitude_mul (m₁ m₂ : Nat) (e₁ e₂ : Int) :
    magnitude (m₁ * m₂) (e₁ + e₂) = magnitude m₁ e₁ * magnitude m₂ e₂ := by
  simp only [magnitude, Nat.cast_mul, zpow_add₀ (two_ne_zero' ℚ)]
  ring

/-- The same magnitude in units of a smaller power of two. -/
theorem magnitude_shift (m : Nat) {e u : Int} (h : u ≤ e) : magnitude (m * 2 ^ (e - u).toNat) u = magnitude m e := by
  have hpow : (2 : ℚ) ^ (e - u).toNat * 2 ^ u = 2 ^ e := by
    rw [← zpow_natCast, Int.toNat_of_nonneg (by omega), ← zpow_add₀ (two_ne_zero' ℚ)]
    congr 1
    omega
  rw [magnitude, magnitude, Nat.cast_mul, Nat.cast_pow, Nat.cast_ofNat, mul_assoc, hpow]

theorem abs_signedValue (s : Bool) (v : ℚ) : |signedValue s v| = |v| := by
  cases s
  · rfl
  · exact abs_neg v

theorem abs_signedValue_magnitude (s : Bool) (m : Nat) (e : Int) :
    |signedValue s (magnitude m e)| = magnitude m e := by
  rw [abs_signedValue, abs_of_nonneg (magnitude_nonneg m e)]

theorem signedValue_not (s : Bool) (v : ℚ) : signedValue (!s) v = -signedValue s v := by
  cases s <;> simp [signedValue]

theorem signedValue_eq_zero_iff {s : Bool} {v : ℚ} : signedValue s v = 0 ↔ v = 0 := by
  cases s <;> simp [signedValue]

/-- The signed significand in units of `2^u` is the exact value. -/
theorem inUnits_mul (s : Bool) (m : Nat) {e u : Int} (h : u ≤ e) :
    (inUnits s m e u : ℚ) * 2 ^ u = signedValue s (magnitude m e) := by
  have hshift := magnitude_shift m h
  rw [magnitude] at hshift
  cases s
  · simpa [inUnits, signedMant, signedValue] using hshift
  · simpa [inUnits, signedMant, signedValue] using hshift

/-! ## Rounding (R11) -/

/-- What the two formats have in common, as far as rounding goes. -/
structure Regular (f : FpFormat) : Prop where
  prec : 2 ≤ f.prec
  range : f.eMin ≤ f.eMax

theorem regular_binary64 : Regular binary64 := ⟨by decide, by decide⟩

theorem regular_binary32 : Regular binary32 := ⟨by decide, by decide⟩

theorem onGrid_zero (e u : Int) : onGrid 0 e u = 0 := by
  unfold onGrid
  split
  · exact Nat.zero_mul _
  · simpa using roundShift_mul_two_pow 0 (u - e).toNat

theorem roundTo_zero (f : FpFormat) (neg : Bool) (e : Int) : roundTo f neg 0 e = .fin neg 0 f.eMin := by
  have hprec : (0 : Nat) ≠ 2 ^ f.prec := (Nat.two_pow_pos _).ne
  simp [roundTo, ofSignificand, onGrid_zero, hprec]

section Rounding

variable {f : FpFormat} (hf : Regular f) (neg : Bool)

include hf in
theorem rounded_zero : Rounded f neg 0 (.fin neg 0 f.eMin) := by
  have hprec : (0 : Nat) ≠ 2 ^ f.prec := (Nat.two_pow_pos _).ne
  have hzero := ofSignificand_rounded f neg 0 f.eMin 0 hf.prec hf.range (le_refl _) (by positivity)
    (fun h => absurd h (lt_irrefl _)) (.inl (by norm_num))
  simpa [ofSignificand, hprec] using hzero

theorem eMin_le_ulpExp (m : Nat) (e : Int) : f.eMin ≤ ulpExp f m e := le_max_right _ _

include hf in
theorem roundTo_rounded (m : Nat) (e : Int) : Rounded f neg (magnitude m e) (roundTo f neg m e) := by
  rcases Nat.eq_zero_or_pos m with rfl | hm
  · rw [magnitude_zero, roundTo_zero]
    exact rounded_zero hf neg
  · exact ofSignificand_rounded f neg _ _ _ hf.prec hf.range (eMin_le_ulpExp m e) (magnitude_lt_ulp f m e)
      (ulp_le_magnitude f m e hm (le_trans (by decide) hf.prec)) (onGrid_nearest m e _)

end Rounding

/-! ## Rounding through a sticky bit

The integer quotient of `divFin` has a last bit that only says whether the division leaves a remainder. Every value at
which rounding changes its result, an odd multiple of half a unit, is an even integer in the quotient's scale, so that
the odd integer and the exact quotient, less than 1 apart, lie on the same side of it. -/

/-- `x` is the integer `m`, or `m` is odd and `x` is less than 1 from it. -/
def Sticky (x : ℚ) (m : Nat) : Prop := x = m ∨ (m % 2 = 1 ∧ |x - m| < 1)

/-- An odd integer below or above an even one keeps its distance of 1. -/
theorem Sticky.lt_even {x : ℚ} {m n : Nat} (h : Sticky x m) (_ : n % 2 = 0) (hlt : (m : ℚ) < n) : x < n := by
  rcases h with rfl | ⟨hodd, hx⟩
  · exact hlt
  · have hstep : m + 1 ≤ n := by exact_mod_cast hlt
    have hstep : (m : ℚ) + 1 ≤ n := by exact_mod_cast hstep
    linarith [(abs_lt.mp hx).2]

theorem Sticky.even_lt {x : ℚ} {m n : Nat} (h : Sticky x m) (_ : n % 2 = 0) (hlt : (n : ℚ) < m) : (n : ℚ) < x := by
  rcases h with rfl | ⟨hodd, hx⟩
  · exact hlt
  · have hstep : n + 1 ≤ m := by exact_mod_cast hlt
    have hstep : (n : ℚ) + 1 ≤ m := by exact_mod_cast hstep
    linarith [(abs_lt.mp hx).1]

theorem Sticky.even_le {x : ℚ} {m n : Nat} (h : Sticky x m) (hn : n % 2 = 0) (hle : (n : ℚ) ≤ m) : (n : ℚ) ≤ x := by
  rcases lt_or_eq_of_le hle with hlt | heq
  · exact (h.even_lt hn hlt).le
  · rcases h with rfl | ⟨hodd, -⟩
    · exact hle
    · have : n = m := by exact_mod_cast heq
      omega

/-- With two bits or more below the last place, the exact value has the nearest integer of the sticky one. -/
theorem Sticky.nearestInt {x : ℚ} {m d q : Nat} (h : Sticky x m) (hd : 2 ≤ d) (hn : NearestInt ((m : ℚ) / 2 ^ d) q) :
    NearestInt (x / 2 ^ d) q := by
  rcases h with rfl | ⟨hodd, hx⟩
  · exact hn
  · have hs : Sticky x m := .inr ⟨hodd, hx⟩
    obtain ⟨k, rfl⟩ : ∃ k, d = k + 2 := ⟨d - 2, by omega⟩
    have hpow : (0 : ℚ) < 2 ^ (k + 2) := by positivity
    have hhalf : (2 : ℚ) ^ (k + 2) = 2 * 2 ^ (k + 1) := by ring
    obtain ⟨hlo, hhi, -, -⟩ := nearest_bounds hn
    rw [le_div_iff₀ hpow] at hlo
    rw [div_le_iff₀ hpow] at hhi
    rw [hhalf] at hpow hlo hhi ⊢
    have heven (n : Nat) : (n * 2 ^ (k + 1)) % 2 = 0 := by rw [pow_succ, ← Nat.mul_assoc, Nat.mul_mod_left]
    have hhi' : (m : ℚ) < ((2 * q + 1) * 2 ^ (k + 1) : Nat) := by
      refine lt_of_le_of_ne (by push_cast; linarith) fun heq => ?_
      have heq : m = (2 * q + 1) * 2 ^ (k + 1) := by exact_mod_cast heq
      have := heven (2 * q + 1)
      omega
    have hx_hi := hs.lt_even (heven _) hhi'
    have hx_lo : ((2 * q : ℚ) - 1) * 2 ^ (k + 1) < x := by
      rcases Nat.eq_zero_or_pos q with rfl | hq
      · rcases Nat.eq_zero_or_pos m with rfl | hm
        · omega
        · have hm1 : (1 : ℚ) ≤ m := by exact_mod_cast hm
          have hp : (0 : ℚ) < 2 ^ (k + 1) := by positivity
          have := (abs_lt.mp hx).1
          push_cast
          linarith
      · have hcast : (((2 * q - 1) * 2 ^ (k + 1) : Nat) : ℚ) = (2 * q - 1) * 2 ^ (k + 1) := by
          rw [Nat.cast_mul, Nat.cast_sub (by omega)]
          push_cast
          ring
        rw [← hcast]
        refine hs.even_lt (heven _) (lt_of_le_of_ne (by rw [hcast]; linarith) fun heq => ?_)
        have heq : (2 * q - 1) * 2 ^ (k + 1) = m := by exact_mod_cast heq
        have := heven (2 * q - 1)
        omega
    left
    rw [abs_lt, lt_sub_iff_add_lt, sub_lt_iff_lt_add, lt_div_iff₀ hpow, div_lt_iff₀ hpow]
    push_cast at hx_hi
    constructor <;> linarith

theorem Sticky.pos {x : ℚ} {m : Nat} (h : Sticky x m) (hm : 0 < m) : 0 < x := by
  have hm1 : (1 : ℚ) ≤ m := by exact_mod_cast hm
  rcases h with rfl | ⟨-, hx⟩
  · linarith
  · linarith [(abs_lt.mp hx).1]

/-- Rounding the sticky integer is rounding the exact value, when the integer is two bits longer than the format. -/
theorem roundTo_sticky {f : FpFormat} (hf : Regular f) (neg : Bool) {m : Nat} {x : ℚ} (e : Int) (h : Sticky x m)
    (hlen : f.prec + 2 ≤ bitLength m) : Rounded f neg (x * 2 ^ e) (roundTo f neg m e) := by
  have hm : 0 < m := Nat.pos_of_ne_zero fun hzero => by rw [hzero, bitLength_zero] at hlen; omega
  have hscale {y : ℚ} {u : Int} (hu : e ≤ u) : y * 2 ^ e / 2 ^ u = y / 2 ^ (u - e).toNat := by
    rw [← zpow_natCast, Int.toNat_of_nonneg (by omega), zpow_sub₀ (two_ne_zero' ℚ)]
    field_simp
  have hu : e + 2 ≤ ulpExp f m e := by unfold ulpExp; omega
  have hd : 2 ≤ (ulpExp f m e - e).toNat := by omega
  have hpow : (0 : ℚ) < 2 ^ ulpExp f m e := by positivity
  have hbound (k : Nat) (y : ℚ) : y * 2 ^ e < 2 ^ k * 2 ^ ulpExp f m e ↔ y < (2 ^ (k + (ulpExp f m e - e).toNat) : Nat) := by
    rw [← div_lt_iff₀ hpow, hscale (by omega), div_lt_iff₀ (by positivity), pow_add]
    push_cast
    rfl
  have hbound' (k : Nat) (y : ℚ) :
      2 ^ k * 2 ^ ulpExp f m e ≤ y * 2 ^ e ↔ ((2 ^ (k + (ulpExp f m e - e).toNat) : Nat) : ℚ) ≤ y := by
    rw [← not_lt, hbound, not_lt]
  have heven (k : Nat) : 2 ^ (k + (ulpExp f m e - e).toNat) % 2 = 0 :=
    Nat.mod_eq_zero_of_dvd (dvd_pow_self 2 (by omega))
  refine ofSignificand_rounded f neg _ _ _ hf.prec hf.range (eMin_le_ulpExp m e) ?_ (fun hmin => ?_) ?_
  · have hlt : (m : ℚ) * 2 ^ e < _ := magnitude_lt_ulp f m e
    exact (hbound _ _).mpr (h.lt_even (heven _) ((hbound _ _).mp hlt))
  · have hle : _ ≤ (m : ℚ) * 2 ^ e := ulp_le_magnitude f m e hm (le_trans (by decide) hf.prec) hmin
    exact (hbound' _ _).mpr (h.even_le (heven _) ((hbound' _ _).mp hle))
  · have hn : NearestInt ((m : ℚ) * 2 ^ e / 2 ^ ulpExp f m e) _ := onGrid_nearest m e (ulpExp f m e)
    rw [hscale (by omega)] at hn ⊢
    exact h.nearestInt hd hn

/-- The quotient of `divFin` with its sticky bit. -/
theorem sticky_quotient (n : Nat) {d : Nat} (hd : 0 < d) :
    Sticky (2 * n / d : ℚ) (2 * (n / d) + if n % d = 0 then 0 else 1) := by
  have hdq : (0 : ℚ) < d := by exact_mod_cast hd
  have hsplit : (n : ℚ) = d * (n / d : Nat) + (n % d : Nat) := by exact_mod_cast (Nat.div_add_mod n d).symm
  have hx : (2 * n / d : ℚ) = 2 * (n / d : Nat) + 2 * (n % d : Nat) / d := by
    rw [hsplit]
    field_simp
  split
  · next hzero =>
    left
    rw [hx, hzero]
    push_cast
    ring
  · next hne =>
    right
    have hpos : (0 : ℚ) < (n % d : Nat) := by exact_mod_cast Nat.pos_of_ne_zero hne
    have hlt : ((n % d : Nat) : ℚ) < d := by exact_mod_cast Nat.mod_lt n hd
    have h0 : 0 < 2 * ((n % d : Nat) : ℚ) / d := by positivity
    have h2 : 2 * ((n % d : Nat) : ℚ) / d < 2 := by rw [div_lt_iff₀ hdq]; linarith
    refine ⟨by omega, ?_⟩
    rw [hx]
    push_cast
    rw [abs_lt]
    constructor <;> linarith

/-! ## The operations on finite values -/

section Operations

variable (t : Tag) (s₁ s₂ : Bool) (m₁ m₂ : Nat) (e₁ e₂ : Int)

theorem mul_rounded : Rounded binary64 (s₁ ^^ s₂) (magnitude m₁ e₁ * magnitude m₂ e₂)
    (Fp.mul t (.fin s₁ m₁ e₁) (.fin s₂ m₂ e₂)) := by
  rw [← magnitude_mul]
  exact roundTo_rounded regular_binary64 _ _ _

theorem div_eq_divFin {m₂ : Nat} (h : 0 < m₂) :
    Fp.div t (.fin s₁ m₁ e₁) (.fin s₂ m₂ e₂) = divFin (s₁ ^^ s₂) m₁ e₁ m₂ e₂ := if_neg h.ne'

theorem divFin_rounded (neg : Bool) {m₂ : Nat} (h : 0 < m₂) (hlt : m₂ < 2 ^ 53) :
    Rounded binary64 neg (magnitude m₁ e₁ / magnitude m₂ e₂) (divFin neg m₁ e₁ m₂ e₂) := by
  rcases Nat.eq_zero_or_pos m₁ with rfl | hm
  · have hquot : divFin neg 0 e₁ m₂ e₂ = roundTo binary64 neg 0 (e₁ - e₂ - 121) := by simp [divFin]
    rw [hquot, roundTo_zero, magnitude_zero, zero_div]
    exact rounded_zero regular_binary64 neg
  · have hvalue : magnitude m₁ e₁ / magnitude m₂ e₂ =
        (2 * ((m₁ * 2 ^ 120 : Nat) : ℚ) / m₂) * 2 ^ (e₁ - e₂ - 121) := by
      have h2 : (m₂ : ℚ) ≠ 0 := by exact_mod_cast h.ne'
      have hpow : (2 : ℚ) ^ (e₁ - e₂ - 121) = 2 ^ e₁ / 2 ^ e₂ / 2 ^ 121 := by
        rw [zpow_sub₀ (two_ne_zero' ℚ), zpow_sub₀ (two_ne_zero' ℚ)]
        norm_num
      rw [hpow, magnitude, magnitude]
      push_cast
      field_simp
      norm_num
    have hbig : 2 ^ 67 ≤ m₁ * 2 ^ 120 / m₂ := by
      rw [Nat.le_div_iff_mul_le h]
      calc 2 ^ 67 * m₂ ≤ 2 ^ 67 * 2 ^ 53 := Nat.mul_le_mul_left _ hlt.le
        _ = 1 * 2 ^ 120 := by norm_num
        _ ≤ m₁ * 2 ^ 120 := Nat.mul_le_mul_right _ hm
    rw [hvalue]
    refine roundTo_sticky regular_binary64 neg _ (sticky_quotient _ h) ?_
    have hlen := lt_bitLength (n := 67) (m := 2 * (m₁ * 2 ^ 120 / m₂) + if m₁ * 2 ^ 120 % m₂ = 0 then 0 else 1) (by omega)
    exact le_trans (by decide) hlen

/-- The exact sum in the smaller of the two units. -/
theorem inUnits_add_mul : ((inUnits s₁ m₁ e₁ (min e₁ e₂) + inUnits s₂ m₂ e₂ (min e₁ e₂) : Int) : ℚ) * 2 ^ min e₁ e₂ =
    signedValue s₁ (magnitude m₁ e₁) + signedValue s₂ (magnitude m₂ e₂) := by
  rw [Int.cast_add, add_mul, inUnits_mul _ _ (min_le_left _ _), inUnits_mul _ _ (min_le_right _ _)]

theorem add_rounded :
    let sum := signedValue s₁ (magnitude m₁ e₁) + signedValue s₂ (magnitude m₂ e₂)
    Rounded binary64 (if sum = 0 then s₁ && s₂ else decide (sum < 0)) |sum|
      (Fp.add t (.fin s₁ m₁ e₁) (.fin s₂ m₂ e₂)) := by
  intro sum
  have hsum := inUnits_add_mul s₁ s₂ m₁ m₂ e₁ e₂
  have hpow : (0 : ℚ) < 2 ^ min e₁ e₂ := by positivity
  have hadd : Fp.add t (.fin s₁ m₁ e₁) (.fin s₂ m₂ e₂) = addFin s₁ m₁ e₁ s₂ m₂ e₂ := rfl
  rw [hadd, addFin]
  change _ = sum at hsum
  generalize inUnits s₁ m₁ e₁ (min e₁ e₂) + inUnits s₂ m₂ e₂ (min e₁ e₂) = n at hsum ⊢
  by_cases hzero : n = 0
  · have hsum0 : sum = 0 := by rw [← hsum, hzero, Int.cast_zero, zero_mul]
    rw [if_pos hzero, if_pos hsum0, hsum0, abs_zero]
    exact rounded_zero regular_binary64 _
  · have hsum0 : sum ≠ 0 := by rw [← hsum]; exact mul_ne_zero (by exact_mod_cast hzero) hpow.ne'
    have hneg : sum < 0 ↔ n < 0 := by
      rw [← hsum, mul_neg_iff]
      constructor
      · rintro (⟨-, h⟩ | ⟨h, -⟩)
        · exact absurd h (not_lt.mpr hpow.le)
        · exact_mod_cast h
      · exact fun h => .inr ⟨by exact_mod_cast h, hpow⟩
    have habs : |sum| = magnitude n.natAbs (min e₁ e₂) := by
      rw [← hsum, abs_mul, abs_of_pos hpow, magnitude, Nat.cast_natAbs, Int.cast_abs]
    rw [if_neg hzero, if_neg hsum0, habs]
    simp only [hneg]
    exact roundTo_rounded regular_binary64 _ _ _

theorem lt_iff_signedValue :
    Fp.lt (.fin s₁ m₁ e₁) (.fin s₂ m₂ e₂) =
      decide (signedValue s₁ (magnitude m₁ e₁) < signedValue s₂ (magnitude m₂ e₂)) := by
  have hpow : (0 : ℚ) < 2 ^ min e₁ e₂ := by positivity
  rw [Fp.lt, decide_eq_decide, ← inUnits_mul s₁ m₁ (min_le_left e₁ e₂), ← inUnits_mul s₂ m₂ (min_le_right e₁ e₂),
    mul_lt_mul_iff_left₀ hpow, Int.cast_lt]

end Operations

theorem div_rounded (t : Tag) (s₁ s₂ : Bool) (m₁ : Nat) {m₂ : Nat} (e₁ e₂ : Int) (h : 0 < m₂) (hlt : m₂ < 2 ^ 53) :
    Rounded binary64 (s₁ ^^ s₂) (magnitude m₁ e₁ / magnitude m₂ e₂) (Fp.div t (.fin s₁ m₁ e₁) (.fin s₂ m₂ e₂)) := by
  rw [div_eq_divFin t s₁ s₂ m₁ e₁ e₂ h]
  exact divFin_rounded m₁ e₁ e₂ _ h hlt

/-! ## Values binary64 holds -/

theorem canonical_lt_threshold {m : Nat} {e : Int} (h : Canonical m e) :
    magnitude m e < magnitude (2 ^ (binary64.prec + 1) - 1) (binary64.eMax - 1) := by
  rw [threshold_eq]
  have hm : (m : ℚ) + 1 ≤ 2 ^ 53 := by exact_mod_cast h.lt
  have hpow : (2 : ℚ) ^ e ≤ 2 ^ binary64.eMax := zpow_le_zpow_right₀ (by norm_num) h.hi
  have hpos : (0 : ℚ) < 2 ^ binary64.eMax := by positivity
  calc (m : ℚ) * 2 ^ e ≤ m * 2 ^ binary64.eMax := mul_le_mul_of_nonneg_left hpow (Nat.cast_nonneg m)
    _ < (2 ^ binary64.prec - 1 / 2) * 2 ^ binary64.eMax := mul_lt_mul_of_pos_right (by
      change (m : ℚ) < 2 ^ 53 - 1 / 2
      linarith) hpos

/-- A value has one significand and one exponent of the format. -/
theorem canonical_unique {m m' : Nat} {e e' : Int} (h : Canonical m e) (h' : Canonical m' e')
    (heq : magnitude m e = magnitude m' e') : m = m' ∧ e = e' := by
  wlog hle : e ≤ e' generalizing m m' e e'
  · obtain ⟨hm, he⟩ := this h' h heq.symm (by omega)
    exact ⟨hm.symm, he.symm⟩
  · have hpow : (2 : ℚ) ^ e ≠ 0 := by positivity
    rw [← magnitude_shift m' hle, magnitude, magnitude, mul_left_inj' hpow] at heq
    have hm : m = m' * 2 ^ (e' - e).toNat := by exact_mod_cast heq
    rcases hle.eq_or_lt with rfl | hlt
    · exact ⟨by simpa using hm, rfl⟩
    · have hfull : 2 ^ 52 ≤ m' := h'.full.resolve_left (by have := h.lo; omega)
      have hbig : 2 ^ 52 * 2 ^ 1 ≤ m := by
        rw [hm]
        exact Nat.mul_le_mul hfull (Nat.pow_le_pow_right (by decide) (by omega))
      exact absurd h.lt (by omega)

theorem canonical_of_rounded {neg s : Bool} {v : ℚ} {m : Nat} {e : Int} (h : Rounded binary64 neg v (.fin s m e)) :
    s = neg ∧ Canonical m e := by
  obtain ⟨hinf, -⟩ | ⟨q, u, hfin, -, hlt, hlo, hhi, hfull, -⟩ := h
  · cases hinf
  · cases hfin
    exact ⟨rfl, hlt, hlo, hhi, hfull⟩

/-- Rounding keeps a value the format holds, as it is. -/
theorem rounded_eq_of_canonical {neg : Bool} {m : Nat} {e : Int} {r : Fp} (h : Rounded binary64 neg (magnitude m e) r)
    (hc : Canonical m e) : r = .fin neg m e := by
  obtain ⟨q, u, rfl, hmag⟩ := Rounded.exact h hc.lt hc.lo (canonical_lt_threshold hc)
  obtain ⟨-, hq⟩ := canonical_of_rounded h
  obtain ⟨rfl, rfl⟩ := canonical_unique hq hc hmag
  rfl

theorem canonical_zero : Canonical 0 (-1074) := ⟨by decide, by decide, by decide, .inl rfl⟩

/-- 1.0 as a significand and an exponent of the format. -/
theorem ofNat_one : Fp.ofNat 1 = .fin false (2 ^ 52) (-52) := by decide +kernel

theorem canonical_one : Canonical (2 ^ 52) (-52) := ⟨by decide, by decide, by decide, .inr (le_refl _)⟩

theorem magnitude_one : magnitude (2 ^ 52) (-52) = 1 := by norm_num [magnitude]

/-! ## Exact products and sums (R227) -/

theorem mul_one_right (t : Tag) {s : Bool} {m : Nat} {e : Int} (h : Canonical m e) (s' : Bool) :
    Fp.mul t (.fin s m e) (.fin s' (2 ^ 52) (-52)) = .fin (s ^^ s') m e := by
  have hround := mul_rounded t s s' m (2 ^ 52) e (-52)
  rw [magnitude_one, mul_one] at hround
  exact rounded_eq_of_canonical hround h

theorem signedValue_neg_iff {s : Bool} {v : ℚ} (hv : 0 < v) : decide (signedValue s v < 0) = s := by
  cases s
  · exact decide_eq_false (not_lt.mpr hv.le)
  · exact decide_eq_true (neg_lt_zero.mpr hv)

/-- A zero added to a nonzero value leaves it. -/
theorem add_zero_right (t : Tag) {s : Bool} {m : Nat} {e : Int} (h : Canonical m e) (hm : 0 < m) (s' : Bool) (e' : Int) :
    Fp.add t (.fin s m e) (.fin s' 0 e') = .fin s m e := by
  have hpos : 0 < magnitude m e := lt_of_le_of_ne (magnitude_nonneg m e) (Ne.symm (mt magnitude_eq_zero_iff.mp hm.ne'))
  have hround := add_rounded t s s' m 0 e e'
  have hzero : signedValue s' (magnitude 0 e') = 0 := signedValue_eq_zero_iff.mpr (magnitude_zero e')
  simp only [hzero, add_zero, abs_signedValue_magnitude, if_neg (mt signedValue_eq_zero_iff.mp hpos.ne'),
    signedValue_neg_iff hpos] at hround
  exact rounded_eq_of_canonical hround h

/-! ## binary32 (R11) -/

/-- Every finite f32 is a binary64 value. -/
theorem roundTo_of_binary32 (neg : Bool) {m : Nat} {e : Int} (hm : m < 2 ^ 24) (hlo : -149 ≤ e) (hhi : e ≤ 104) :
    ∃ q u, roundTo binary64 neg m e = .fin neg q u ∧ magnitude q u = magnitude m e := by
  have hlt : magnitude m e < magnitude (2 ^ (binary64.prec + 1) - 1) (binary64.eMax - 1) := by
    rw [threshold_eq]
    have hmq : (m : ℚ) ≤ 2 ^ 24 := by exact_mod_cast hm.le
    have hpow : (2 : ℚ) ^ e ≤ 2 ^ (104 : Int) := zpow_le_zpow_right₀ (by norm_num) hhi
    calc (m : ℚ) * 2 ^ e ≤ 2 ^ 24 * 2 ^ (104 : Int) := mul_le_mul hmq hpow (by positivity) (by positivity)
      _ = 2 ^ (0 : Int) * 2 ^ (128 : Int) := by norm_num
      _ < (2 ^ binary64.prec - 1 / 2) * 2 ^ binary64.eMax :=
        mul_lt_mul'' (by norm_num [binary64]) (zpow_lt_zpow_right₀ (by norm_num) (by decide)) (by positivity) (by positivity)
  exact Rounded.exact (roundTo_rounded regular_binary64 neg m e) (lt_trans hm (by decide)) (le_trans (by decide) hlo) hlt

theorem widen_finite (t : Tag) (u : Word) (hex : (u.extractLsb' 23 8).toNat ≠ 255) :
    ∃ m e, widen32to64 t u = .fin (u.getLsbD 31) m e ∧
      magnitude m e = fieldMagnitude 23 (-149) (u.extractLsb' 23 8).toNat (u.extractLsb' 0 23).toNat := by
  have hexlt : (u.extractLsb' 23 8).toNat < 256 := (u.extractLsb' 23 8).isLt
  have hfrac : (u.extractLsb' 0 23).toNat < 2 ^ 23 := (u.extractLsb' 0 23).isLt
  simp only [widen32to64, Fp.ofBits32, if_neg hex, fieldMagnitude]
  split
  · exact roundTo_of_binary32 _ (by omega) (by decide) (by decide)
  · rw [Nat.add_comm, show ((u.extractLsb' 23 8).toNat : Int) - 150 = (u.extractLsb' 23 8).toNat - 1 + -149 by omega]
    exact roundTo_of_binary32 _ (by omega) (by omega) (by omega)

theorem widen_inf (t : Tag) (u : Word) (hex : (u.extractLsb' 23 8).toNat = 255) (hfrac : (u.extractLsb' 0 23).toNat = 0) :
    widen32to64 t u = .inf (u.getLsbD 31) := by
  simp only [widen32to64, Fp.ofBits32, hex, hfrac, if_true]

/-- The encoding of a value rounded to binary32, by its fields. -/
theorem toBits32_rounded (t : Tag) {neg : Bool} {v : ℚ} {r : Fp} (h : Rounded binary32 neg v r) :
    (Fp.toBits32 t r).getLsbD 31 = neg ∧
    (r = .inf neg → ((Fp.toBits32 t r).extractLsb' 23 8).toNat = 255 ∧ ((Fp.toBits32 t r).extractLsb' 0 23).toNat = 0) ∧
    ∀ q x, r = .fin neg q x → ((Fp.toBits32 t r).extractLsb' 23 8).toNat ≠ 255 ∧
      fieldMagnitude 23 (-149) ((Fp.toBits32 t r).extractLsb' 23 8).toNat ((Fp.toBits32 t r).extractLsb' 0 23).toNat =
        magnitude q x := by
  obtain ⟨rfl, -⟩ | ⟨q, u, rfl, -, hlt, hlo, hhi, hfull, -⟩ := h
  · refine ⟨packBits32_sign _ (by decide) (by decide), fun _ => ⟨packBits32_exp _ (by decide) (by decide),
      packBits32_frac _ (by decide) (by decide)⟩, fun q x hfin => by cases hfin⟩
  · change q < 2 ^ 24 at hlt
    change -149 ≤ u at hlo
    change u ≤ 104 at hhi
    change u = -149 ∨ 2 ^ 23 ≤ q at hfull
    by_cases hsub : q < 2 ^ 23
    · have hbits : Fp.toBits32 t (.fin neg q u) = packBits32 neg 0 q := if_pos hsub
      obtain rfl : u = -149 := hfull.resolve_right (by omega)
      rw [hbits, packBits32_sign _ (by decide) hsub, packBits32_exp _ (by decide) hsub, packBits32_frac _ (by decide) hsub]
      refine ⟨rfl, fun hinf => (by cases hinf), fun q' x hfin => ?_⟩
      cases hfin
      exact ⟨by decide, rfl⟩
    · have hbits : Fp.toBits32 t (.fin neg q u) = packBits32 neg (u + 150).toNat (q - 2 ^ 23) := if_neg hsub
      have hex : (u + 150).toNat < 256 := by omega
      have hfrac : q - 2 ^ 23 < 2 ^ 23 := by omega
      rw [hbits, packBits32_sign _ hex hfrac, packBits32_exp _ hex hfrac, packBits32_frac _ hex hfrac]
      refine ⟨rfl, fun hinf => (by cases hinf), fun q' x hfin => ?_⟩
      cases hfin
      refine ⟨by omega, ?_⟩
      rw [fieldMagnitude, if_neg (by omega), Nat.add_sub_of_le (by omega)]
      congr 1
      omega

/-! ## The obligation -/

/-- Settles O60: rounding by `ofSignificand_rounded`, each operation as one rounding of the exact result, and the values
the format holds kept as they are. -/
theorem unitProductsAndZeroSumsAreExact : Obligations.UnitProductsAndZeroSumsAreExact := by
  refine ⟨fun f neg m e hf => ?round, fun t u w s₁ s₂ m₁ m₂ e₁ e₂ hu hw => ?operations,
    fun t u => ⟨widen_finite t u, widen_inf t u⟩, fun t u s m e hu => ?narrow, fun t u neg hfin hne => ?units⟩
  case round =>
    rcases hf with rfl | rfl
    · exact roundTo_rounded regular_binary64 neg m e
    · exact roundTo_rounded regular_binary32 neg m e
  case operations =>
    intro x y
    have hwc := canonical_ofBits hw
    rw [hu, hw]
    refine ⟨?_, fun hy => ?_, add_rounded t s₁ s₂ m₁ m₂ e₁ e₂, ?_, lt_iff_signedValue ..⟩
    · rw [abs_mul, abs_signedValue_magnitude, abs_signedValue_magnitude]
      exact mul_rounded ..
    · have hm₂ : 0 < m₂ := Nat.pos_of_ne_zero fun hzero =>
        hy (signedValue_eq_zero_iff.mpr (magnitude_eq_zero_iff.mpr hzero))
      rw [abs_div, abs_signedValue_magnitude, abs_signedValue_magnitude]
      exact div_rounded t s₁ s₂ m₁ e₁ e₂ hm₂ hwc.lt
    · have hsub := add_rounded t s₁ (!s₂) m₁ m₂ e₁ e₂
      simp only [signedValue_not, ← sub_eq_add_neg] at hsub
      exact hsub
  case narrow =>
    have hround := roundTo_rounded regular_binary32 s m e
    have hnarrow : round64to32 t (Fp.ofBits u) = Fp.toBits32 t (roundTo binary32 s m e) := by rw [hu]; rfl
    rw [hnarrow]
    obtain ⟨hsign, hfields⟩ := toBits32_rounded t hround
    exact ⟨hsign, _, hround, hfields⟩
  case units =>
    obtain ⟨s, m, e, hu, hc⟩ := ofBits_of_finiteBits hfin
    have hm := ofBits_mant_pos hu hne
    rw [hu, ofNat_one, mul_one_right t hc, Bool.xor_false]
    exact ⟨rfl, add_zero_right t hc hm neg _, add_zero_right t hc hm (!neg) _⟩

end Sys2Proof.ExactArithmetic
end

section
/-! SUPPORT. The quantizer and the dequantizer (44_quantizer.md): finite f64 operands as exact rationals, the scaled value
of Q at and between the outermost levels, and the outcomes of QUANT and DEQUANT. -/

namespace Sys2Proof.Quantizing

open Sys2Proof Sys2Proof.Machine Sys2Proof.FloatFormat Sys2Proof.ExactArithmetic Sys2Proof.RoundHalfUp

/-! ## Finite values (R11) -/

/-- `x` is a finite f64 of the exact value `v`. -/
def Holds (x : Fp) (v : ℚ) : Prop := ∃ s m e, x = .fin s m e ∧ Canonical m e ∧ signedValue s (magnitude m e) = v

/-- `r` is the exact value `v` rounded once to binary64. -/
def RoundsTo (v : ℚ) (r : Fp) : Prop := ∃ neg, Rounded binary64 neg |v| r ∧ (v ≠ 0 → neg = decide (v < 0))

theorem signedValue_sign_abs {v : ℚ} (hv : v ≠ 0) : signedValue (decide (v < 0)) |v| = v := by
  rcases lt_or_gt_of_ne hv with h | h
  · rw [decide_eq_true h, abs_of_neg h]
    exact neg_neg v
  · rw [decide_eq_false (not_lt.mpr h.le), abs_of_pos h]
    rfl

theorem magnitude_pos {s : Bool} {m : Nat} {e : Int} (h : signedValue s (magnitude m e) ≠ 0) : 0 < magnitude m e :=
  lt_of_le_of_ne (magnitude_nonneg m e) fun hzero => h (signedValue_eq_zero_iff.mpr hzero.symm)

/-- The sign of a nonzero value. -/
theorem sign_eq {s : Bool} {m : Nat} {e : Int} (h : signedValue s (magnitude m e) ≠ 0) :
    decide (signedValue s (magnitude m e) < 0) = s :=
  signedValue_neg_iff (magnitude_pos h)

theorem signedValue_mul (s₁ s₂ : Bool) (v₁ v₂ : ℚ) :
    signedValue s₁ v₁ * signedValue s₂ v₂ = signedValue (s₁ ^^ s₂) (v₁ * v₂) := by
  cases s₁ <;> cases s₂ <;> simp [signedValue]

/-- The sign of a product of nonzero values. -/
theorem sign_xor {s₁ s₂ : Bool} {m₁ m₂ : Nat} {e₁ e₂ : Int}
    (h₁ : signedValue s₁ (magnitude m₁ e₁) ≠ 0) (h₂ : signedValue s₂ (magnitude m₂ e₂) ≠ 0) :
    (s₁ ^^ s₂) = decide (signedValue s₁ (magnitude m₁ e₁) * signedValue s₂ (magnitude m₂ e₂) < 0) := by
  rw [signedValue_mul, signedValue_neg_iff (mul_pos (magnitude_pos h₁) (magnitude_pos h₂))]

section Values

variable {x y r z : Fp} {a b v : ℚ}

theorem Holds.unique (hx : Holds x v) (hy : Holds y v) (hv : v ≠ 0) : x = y := by
  obtain ⟨s, m, e, rfl, hc, rfl⟩ := hx
  obtain ⟨s', m', e', rfl, hc', heq⟩ := hy
  have habs : magnitude m' e' = magnitude m e := by
    rw [← abs_signedValue_magnitude s', heq, abs_signedValue_magnitude]
  have hsign : s' = s := by
    have hs' := sign_eq (heq ▸ hv)
    rw [heq, sign_eq hv] at hs'
    exact hs'.symm
  obtain ⟨rfl, rfl⟩ := canonical_unique hc' hc habs
  rw [hsign]

theorem Holds.neg (hx : Holds x v) : Holds x.neg (-v) := by
  obtain ⟨s, m, e, rfl, hc, rfl⟩ := hx
  exact ⟨!s, m, e, rfl, hc, signedValue_not s _⟩

theorem Holds.lt_iff (hx : Holds x a) (hy : Holds y b) : Fp.lt x y = decide (a < b) := by
  obtain ⟨s, m, e, rfl, -, rfl⟩ := hx
  obtain ⟨s', m', e', rfl, -, rfl⟩ := hy
  exact lt_iff_signedValue ..

theorem Holds.mul (t : Tag) (hx : Holds x a) (hy : Holds y b) : RoundsTo (a * b) (Fp.mul t x y) := by
  obtain ⟨s, m, e, rfl, -, rfl⟩ := hx
  obtain ⟨s', m', e', rfl, -, rfl⟩ := hy
  refine ⟨s ^^ s', ?_, fun hne => sign_xor (left_ne_zero_of_mul hne) (right_ne_zero_of_mul hne)⟩
  rw [abs_mul, abs_signedValue_magnitude, abs_signedValue_magnitude]
  exact mul_rounded ..

theorem Holds.div (t : Tag) (hx : Holds x a) (hy : Holds y b) (hb : b ≠ 0) : RoundsTo (a / b) (Fp.div t x y) := by
  obtain ⟨s, m, e, rfl, -, rfl⟩ := hx
  obtain ⟨s', m', e', rfl, hc', rfl⟩ := hy
  have hm' : 0 < m' := Nat.pos_of_ne_zero fun hzero => hb (signedValue_eq_zero_iff.mpr (magnitude_eq_zero_iff.mpr hzero))
  refine ⟨s ^^ s', ?_, fun hne => ?_⟩
  · rw [abs_div, abs_signedValue_magnitude, abs_signedValue_magnitude]
    exact div_rounded t s s' m e e' hm' hc'.lt
  · rw [sign_xor (div_ne_zero_iff.mp hne).1 hb, decide_eq_decide, div_neg_iff, mul_neg_iff]

theorem Holds.add (t : Tag) (hx : Holds x a) (hy : Holds y b) : RoundsTo (a + b) (Fp.add t x y) := by
  obtain ⟨s, m, e, rfl, -, rfl⟩ := hx
  obtain ⟨s', m', e', rfl, -, rfl⟩ := hy
  exact ⟨_, add_rounded .., fun hne => if_neg hne⟩

theorem Holds.sub (t : Tag) (hx : Holds x a) (hy : Holds y b) : RoundsTo (a - b) (Fp.sub t x y) := by
  rw [sub_eq_add_neg]
  exact hx.add t hy.neg

/-- A value that binary64 holds is kept. -/
theorem RoundsTo.exact (h : RoundsTo v r) (hz : Holds z v) : Holds r v := by
  obtain ⟨neg, hround, hsign⟩ := h
  obtain ⟨s, m, e, rfl, hc, rfl⟩ := hz
  rw [abs_signedValue_magnitude] at hround
  refine ⟨neg, m, e, rounded_eq_of_canonical hround hc, hc, ?_⟩
  by_cases hne : signedValue s (magnitude m e) = 0
  · rw [hne, signedValue_eq_zero_iff]
    exact signedValue_eq_zero_iff.mp hne
  · rw [hsign hne, sign_eq hne]

/-- Rounding keeps a bound that is a power of two. -/
theorem RoundsTo.bounded {k : Int} (h : RoundsTo v r) (hv : |v| ≤ 2 ^ k) (hk : -1074 ≤ k ∧ k < 971) :
    ∃ w, Holds r w ∧ |w| ≤ 2 ^ k := by
  obtain ⟨neg, hround, -⟩ := h
  obtain ⟨q, u, rfl, hle⟩ := Rounded.le_two_pow hround (abs_nonneg v) (by decide) hk.1 (by change k + 1 ≤ 971; omega) hv
  exact ⟨_, ⟨neg, q, u, rfl, (canonical_of_rounded hround).2, rfl⟩, by rwa [abs_signedValue_magnitude]⟩

end Values

/-- Significands of 53 bits are held at every exponent of the format. -/
theorem holds_roundTo (s : Bool) {m : Nat} {e : Int} (hm : m < 2 ^ 53) (hlo : -1074 ≤ e) (hhi : e ≤ 971) :
    Holds (roundTo binary64 s m e) (signedValue s (magnitude m e)) := by
  have hround := roundTo_rounded regular_binary64 s m e
  have hlt : magnitude m e < magnitude (2 ^ (binary64.prec + 1) - 1) (binary64.eMax - 1) := by
    rw [threshold_eq]
    have hmq : (m : ℚ) + 1 ≤ 2 ^ 53 := by exact_mod_cast hm
    have hpow : (2 : ℚ) ^ e ≤ 2 ^ binary64.eMax := zpow_le_zpow_right₀ (by norm_num) hhi
    calc (m : ℚ) * 2 ^ e ≤ m * 2 ^ binary64.eMax := mul_le_mul_of_nonneg_left hpow (Nat.cast_nonneg m)
      _ < (2 ^ binary64.prec - 1 / 2) * 2 ^ binary64.eMax :=
        mul_lt_mul_of_pos_right (by change (m : ℚ) < 2 ^ 53 - 1 / 2; linarith) (by positivity)
  obtain ⟨q, u, hr, hmag⟩ := Rounded.exact hround hm hlo hlt
  rw [hr] at hround ⊢
  exact ⟨s, q, u, rfl, (canonical_of_rounded hround).2, by rw [hmag]⟩

theorem holds_ofNat {n : Nat} (hn : n < 2 ^ 53) : Holds (Fp.ofNat n) n := by
  have h := holds_roundTo false hn (e := 0) (by decide) (by decide)
  have hvalue : signedValue false (magnitude n 0) = n := by simp [signedValue, magnitude]
  exact hvalue ▸ h

/-- The halves of the natural numbers are held. -/
theorem holds_half {n : Nat} (hn : n < 2 ^ 53) : ∃ z, Holds z ((n : ℚ) / 2) := by
  have h := holds_roundTo false hn (e := -1) (by decide) (by decide)
  have hvalue : signedValue false (magnitude n (-1)) = (n : ℚ) / 2 := by
    simp only [signedValue, magnitude, Bool.false_eq_true, if_false]
    norm_num
    ring
  exact ⟨_, hvalue ▸ h⟩

theorem holds_zero (s : Bool) : Holds (.fin s 0 (-1074)) 0 :=
  ⟨s, 0, -1074, rfl, canonical_zero, signedValue_eq_zero_iff.mpr (magnitude_zero _)⟩

theorem holds_of_ofBits {u : Word64} (hu : finiteBits u = true) : ∃ v, Holds (Fp.ofBits u) v := by
  obtain ⟨s, m, e, heq, hc⟩ := ofBits_of_finiteBits hu
  exact ⟨_, s, m, e, heq, hc, rfl⟩

/-! ## Rounding to an integer (R12) -/

theorem signedValue_magnitude_eq (neg : Bool) (m : Nat) (e : Int) :
    signedValue neg (magnitude m e) = signedMant neg m * 2 ^ e := by
  cases neg <;> simp [signedValue, magnitude, signedMant]

/-- `round_half_up(v)` is ⌊v + 1/2⌋. -/
theorem roundHalfUp_eq_floor (neg : Bool) (m : Nat) (e : Int) :
    roundHalfUp neg m e = ⌊signedValue neg (magnitude m e) + 1 / 2⌋ := by
  rw [signedValue_magnitude_eq, eq_comm, Int.floor_eq_iff]
  obtain ⟨k, rfl | rfl⟩ := e.eq_nat_or_neg
  · rw [roundHalfUp_natCast, zpow_natCast]
    push_cast
    constructor <;> linarith
  · rw [roundHalfUp_neg_natCast, pow_succ]
    obtain ⟨hlo, hhi⟩ := (half_up_ediv_eq_iff (x := signedMant neg m) (d := 2 ^ k) (Int.pow_pos two_pos)).mp rfl
    have hpow : (0 : ℚ) < 2 ^ k := by positivity
    have hlo : (2 * signedMant neg m - 2 ^ k : ℚ) < (((2 * signedMant neg m + 2 ^ k) / (2 ^ k * 2) : Int) : ℚ) * (2 ^ k * 2) := by
      exact_mod_cast hlo
    have hhi : (((2 * signedMant neg m + 2 ^ k) / (2 ^ k * 2) : Int) : ℚ) * (2 ^ k * 2) ≤ 2 * signedMant neg m + 2 ^ k := by
      exact_mod_cast hhi
    rw [zpow_neg, zpow_natCast, ← div_eq_mul_inv]
    constructor
    · rw [← sub_le_iff_le_add, le_div_iff₀ hpow]
      linarith
    · rw [← lt_sub_iff_add_lt, div_lt_iff₀ hpow]
      linarith

/-! ## The last steps of Q -/

theorem roundClamp_le (m : Nat) (v : Fp) : roundClamp m v ≤ m := by
  cases v with
  | nan => exact Nat.zero_le m
  | inf neg => cases neg <;> simp [roundClamp]
  | fin neg q e =>
    rw [roundClamp]
    omega

/-- Settles O37: the last step of Q is the clamp. -/
theorem quantizedIntegersAreInRange : Obligations.QuantizedIntegersAreInRange := fun _ _ _ _ => roundClamp_le _ _

theorem roundClamp_nan (m : Nat) {v : Fp} (h : v.isNaN = true) : roundClamp m v = 0 := by
  obtain ⟨g, f, rfl⟩ := isNaN_iff.mp h
  rfl

/-- A half of a natural number in 0..2m is rounded half up and needs no clamp. -/
theorem roundClamp_half {m n : Nat} {x : Fp} (h : Holds x ((n : ℚ) / 2)) (hn : n ≤ 2 * m) :
    roundClamp m x = (n + 1) / 2 := by
  obtain ⟨s, q, e, rfl, -, hv⟩ := h
  have hfloor : roundHalfUp s q e = ((n + 1) / 2 : Nat) := by
    rw [roundHalfUp_eq_floor, hv, ← add_div]
    exact_mod_cast Nat.floor_div_eq_div (K := ℚ) (n + 1) 2
  rw [roundClamp, hfloor]
  omega

/-- The scaled value of Q with its NaN names, as the model's `quantize` has it. -/
theorem quantize_eq (t : Tag) (x s : Fp) (b : Nat) :
    quantize t x s b = roundClamp (2 ^ b - 1) (quantScaled (fun i => i :: t) x s b) := rfl

theorem quantScaled_eq (n : Nat → Tag) (x s : Fp) (b : Nat) : quantScaled n x s b =
    Fp.mul (n 3) (Fp.div (n 2) (Fp.add (n 1) (Fp.div (n 0) (clip x s) s) (Fp.ofNat 1)) (Fp.ofNat 2))
      (Fp.ofNat (2 ^ b - 1)) := rfl

theorem quantSteps (t : Tag) (x s : Fp) (b : Nat) : QuantSteps x s b (quantize t x s b) := by
  refine ⟨fun i => i :: t, fun hnan => ?_, fun neg m e hfin => ?_⟩
  · rw [quantize_eq, roundClamp_nan _ hnan]
  · have hmax : ((2 ^ b - 1 : Nat) : Int) = 2 ^ b - 1 := by
      rw [Nat.cast_sub Nat.one_le_two_pow]
      norm_num
    have hpos : (0 : Int) < 2 ^ b := by positivity
    rw [quantize_eq, hfin, roundClamp, hmax, Int.toNat_of_nonneg (by omega)]

section Scaled

variable {n : Nat → Tag} {x s : Fp} {b : Nat}

theorem levelCount_lt (hb : b ≤ 32) : 2 ^ b - 1 < 2 ^ 32 := by
  have hpow : 2 ^ b ≤ 2 ^ 32 := Nat.pow_le_pow_right (by decide) hb
  omega

/-- An undefined quotient makes the whole of Q undefined. -/
theorem quantScaled_nan (h : (Fp.div (n 0) (clip x s) s).isNaN = true) : (quantScaled n x s b).isNaN = true := by
  obtain ⟨g, f, hdiv⟩ := isNaN_iff.mp h
  rw [quantScaled_eq, hdiv, add_nan, Fp.drawnNaN, div_nan, Fp.drawnNaN, mul_nan]
  rfl

/-- A quotient in −1..1 leads to a finite value. -/
theorem quantScaled_finite {q : ℚ} (hb : b ≤ 32) (h : Holds (Fp.div (n 0) (clip x s) s) q) (hq : |q| ≤ 1) :
    ∃ v, Holds (quantScaled n x s b) v := by
  have h1 := holds_ofNat (n := 1) (by decide)
  have h2 := holds_ofNat (n := 2) (by decide)
  have hlevel := levelCount_lt hb
  have hM := holds_ofNat (n := 2 ^ b - 1) (by omega)
  have hMle : |((2 ^ b - 1 : Nat) : ℚ)| ≤ 2 ^ 32 := by
    rw [abs_of_nonneg (Nat.cast_nonneg _)]
    exact_mod_cast hlevel.le
  have hsum : |q + (1 : Nat)| ≤ 2 ^ (1 : Int) := by
    have := abs_add_le q (1 : Nat)
    norm_num at this ⊢
    linarith
  obtain ⟨v₁, hv₁, hle₁⟩ := (h.add (n 1) h1).bounded hsum (by decide)
  have hhalf : |v₁ / (2 : Nat)| ≤ 2 ^ (0 : Int) := by
    rw [abs_div, div_le_iff₀ (by norm_num)]
    norm_num at hle₁ ⊢
    linarith
  obtain ⟨v₂, hv₂, hle₂⟩ := (hv₁.div (n 2) h2 (by norm_num)).bounded hhalf (by decide)
  have hprod : |v₂ * ((2 ^ b - 1 : Nat) : ℚ)| ≤ 2 ^ (32 : Int) := by
    rw [abs_mul]
    calc |v₂| * |((2 ^ b - 1 : Nat) : ℚ)| ≤ 1 * 2 ^ 32 := mul_le_mul (by simpa using hle₂) hMle (abs_nonneg _) zero_le_one
      _ = 2 ^ (32 : Int) := by norm_num
  obtain ⟨v₃, hv₃, -⟩ := (hv₂.mul (n 3) hM).bounded hprod (by decide)
  exact ⟨v₃, hv₃⟩

/-- A quotient of exactly −1, 0 or 1, written `k - 1`, is mapped exactly to 0, M/2 or M. -/
theorem quantScaled_exact {k : Nat} (hb : b ≤ 32) (hk : k ≤ 2) (h : Holds (Fp.div (n 0) (clip x s) s) (k - 1)) :
    Holds (quantScaled n x s b) ((k * (2 ^ b - 1) : Nat) / 2) := by
  have hlevel := levelCount_lt hb
  have hsmall : k * (2 ^ b - 1) < 2 ^ 53 := lt_of_le_of_lt (Nat.mul_le_mul hk hlevel.le) (by decide)
  have hadd : Holds (Fp.add (n 1) (Fp.div (n 0) (clip x s) s) (Fp.ofNat 1)) k := by
    have hround := h.add (n 1) (holds_ofNat (n := 1) (by decide))
    rw [Nat.cast_one, sub_add_cancel] at hround
    exact hround.exact (holds_ofNat (by omega))
  have hhalf := hadd.div (n 2) (holds_ofNat (n := 2) (by decide)) (by norm_num)
  obtain ⟨z, hz⟩ := holds_half (n := k) (by omega)
  obtain ⟨z', hz'⟩ := holds_half hsmall
  have hmul := (hhalf.exact (by exact_mod_cast hz)).mul (n 3) (holds_ofNat (n := 2 ^ b - 1) (by omega))
  have hvalue : (k / (2 : Nat) * ((2 ^ b - 1 : Nat) : ℚ)) = (k * (2 ^ b - 1) : Nat) / 2 := by
    rw [Nat.cast_mul, Nat.cast_ofNat]
    ring
  exact (hvalue ▸ hmul).exact hz'

end Scaled

/-- Q where the quotient is exactly −1, 0 or 1. -/
theorem quantize_exact {t : Tag} {x s : Fp} {b k : Nat} (hb : b ≤ 32) (hk : k ≤ 2)
    (h : Holds (Fp.div (0 :: t) (clip x s) s) (k - 1)) : quantize t x s b = (k * (2 ^ b - 1) + 1) / 2 := by
  rw [quantize_eq]
  exact roundClamp_half (quantScaled_exact (n := fun i => i :: t) hb hk h) (Nat.mul_le_mul_right _ hk)

/-! ## The clip (R271) -/

section Clip

variable {x s : Fp} {σ : ℚ}

theorem clip_above (h : Fp.lt s x = true) : clip x s = s := if_pos h

theorem clip_below (hnot : Fp.lt s x = false) (h : Fp.lt x s.neg = true) : clip x s = s.neg := by
  rw [clip, if_neg (by simp [hnot]), if_pos h]

theorem clip_inside (h : Fp.lt s x = false) (h' : Fp.lt x s.neg = false) : clip x s = x := by
  rw [clip, if_neg (by simp [h]), if_neg (by simp [h'])]

theorem clip_nan (h : x.isNaN = true) (s : Fp) : clip x s = x := by
  obtain ⟨g, f, rfl⟩ := isNaN_iff.mp h
  exact clip_inside (lt_nan_right g f s) (lt_nan_left g f s.neg)

/-- No value lies both above `s` and below `-s`. -/
theorem not_lt_of_lt_neg (hs : Holds s σ) (hpos : 0 < σ) (h : Fp.lt x s.neg = true) : Fp.lt s x = false := by
  obtain ⟨s', m', e', hneg, -, hσ⟩ := hs.neg
  obtain ⟨s₀, m₀, e₀, rfl, -, hσ₀⟩ := hs
  cases x with
  | nan g f => exact lt_nan_right g f _
  | inf g =>
    rw [hneg] at h
    cases g
    · cases h
    · rfl
  | fin g m e =>
    rw [hneg, lt_iff_signedValue, decide_eq_true_iff, hσ] at h
    rw [lt_iff_signedValue, decide_eq_false_iff_not, hσ₀]
    linarith

/-- The clip of a number to a finite scale is a finite value in −s..s. -/
theorem clip_holds {u : Word64} (hs : Holds s σ) (hpos : 0 < σ) (hx : (Fp.ofBits u).isNaN = false) :
    ∃ c, Holds (clip (Fp.ofBits u) s) c ∧ |c| ≤ σ := by
  cases habove : Fp.lt s (Fp.ofBits u) with
  | true => exact ⟨σ, by rwa [clip_above habove], (abs_of_pos hpos).le⟩
  | false =>
    cases hbelow : Fp.lt (Fp.ofBits u) s.neg with
    | true => exact ⟨-σ, by rw [clip_below habove hbelow]; exact hs.neg, by rw [abs_neg, abs_of_pos hpos]⟩
    | false =>
      rw [clip_inside habove hbelow]
      cases hu : Fp.ofBits u with
      | nan g f =>
        rw [hu] at hx
        cases hx
      | inf g =>
        obtain ⟨s₀, m₀, e₀, rfl, -, -⟩ := hs
        rw [hu] at habove hbelow
        cases g
        · cases habove
        · cases hbelow
      | fin g m e =>
        have hv : Holds (.fin g m e) _ := ⟨g, m, e, rfl, canonical_ofBits hu, rfl⟩
        rw [hu, hs.lt_iff hv, decide_eq_false_iff_not] at habove
        rw [hu, hv.lt_iff hs.neg, decide_eq_false_iff_not] at hbelow
        exact ⟨_, hv, abs_le.mpr ⟨by linarith, by linarith⟩⟩

end Clip

theorem fpZero_eq : Fp.zero = .fin false 0 (-1074) := rfl

/-- A finite scale above 0 (R273). -/
theorem scale_pos {u : Word64} (hfin : finiteBits u = true) (hpos : Fp.lt Fp.zero (Fp.ofBits u) = true) :
    ∃ σ, Holds (Fp.ofBits u) σ ∧ 0 < σ := by
  obtain ⟨σ, hσ⟩ := holds_of_ofBits hfin
  rw [fpZero_eq, (holds_zero false).lt_iff hσ, decide_eq_true_iff] at hpos
  exact ⟨σ, hσ, hpos⟩

/-- Settles O38: beyond the scale the quotient is exactly 1 or −1, and a NaN stays one up to the last step. -/
theorem quantizerClipsAndMapsNaNToZero : Obligations.QuantizerClipsAndMapsNaNToZero := by
  intro t x u b hfin hpos _ hb
  obtain ⟨σ, hσ, hσpos⟩ := scale_pos hfin hpos
  refine ⟨fun h => ?above, fun h => ?below, fun h => ?nan⟩
  case above =>
    have hdiv := hσ.div (0 :: t) hσ hσpos.ne'
    rw [div_self hσpos.ne'] at hdiv
    have hone : Holds (Fp.div (0 :: t) (clip x (Fp.ofBits u)) (Fp.ofBits u)) ((2 : Nat) - 1) := by
      rw [clip_above h]
      norm_num
      exact hdiv.exact (by exact_mod_cast holds_ofNat (n := 1) (by decide))
    rw [quantize_exact hb (le_refl 2) hone]
    omega
  case below =>
    have hdiv := hσ.neg.div (0 :: t) hσ hσpos.ne'
    rw [neg_div, div_self hσpos.ne'] at hdiv
    have hone : Holds (Fp.div (0 :: t) (clip x (Fp.ofBits u)) (Fp.ofBits u)) ((0 : Nat) - 1) := by
      rw [clip_below (not_lt_of_lt_neg hσ hσpos h) h]
      norm_num
      exact hdiv.exact (by exact_mod_cast (holds_ofNat (n := 1) (by decide)).neg)
    rw [quantize_exact hb (Nat.zero_le 2) hone, Nat.zero_mul]
  case nan =>
    rw [quantize_eq]
    refine roundClamp_nan _ (quantScaled_nan ?_)
    rw [clip_nan h]
    obtain ⟨g, f, rfl⟩ := isNaN_iff.mp h
    rw [div_nan]
    rfl

/-- Settles O39: the quotient of a zero is exactly 0. -/
theorem zeroQuantizesToTheUpperMiddle : Obligations.ZeroQuantizesToTheUpperMiddle := by
  intro t neg u b hfin hpos hb1 hb
  obtain ⟨σ, hσ, hσpos⟩ := scale_pos hfin hpos
  have hzero := holds_zero neg
  have hclip : clip (.fin neg 0 (-1074)) (Fp.ofBits u) = .fin neg 0 (-1074) := by
    refine clip_inside ?_ ?_
    · rw [hσ.lt_iff hzero, decide_eq_false_iff_not]
      linarith
    · rw [hzero.lt_iff hσ.neg, decide_eq_false_iff_not]
      linarith
  have hdiv := hzero.div (0 :: t) hσ hσpos.ne'
  have hquot : Holds (Fp.div (0 :: t) (clip (.fin neg 0 (-1074)) (Fp.ofBits u)) (Fp.ofBits u)) ((1 : Nat) - 1) := by
    rw [hclip, Nat.cast_one, sub_self]
    rw [zero_div] at hdiv
    exact hdiv.exact hzero
  have hpow : 2 ^ b = 2 * 2 ^ (b - 1) := by rw [← Nat.pow_succ', Nat.succ_eq_add_one, Nat.sub_add_cancel hb1]
  rw [quantize_exact hb (by decide) hquot]
  omega

/-! ## QUANT (R273) -/

theorem quantBitsOk_iff {b : Nat} : quantBitsOk b = true ↔ 1 ≤ b ∧ b ≤ 32 := by simp [quantBitsOk]

/-- A scale above 0 is a positive finite value or +∞. -/
theorem scale_cases {u : Word64} (hpos : Fp.lt Fp.zero (Fp.ofBits u) = true) :
    (∃ σ, Holds (Fp.ofBits u) σ ∧ 0 < σ) ∨ Fp.ofBits u = .inf false := by
  cases hu : Fp.ofBits u with
  | nan g f =>
    rw [hu, lt_nan_right] at hpos
    cases hpos
  | inf g =>
    cases g
    · exact .inr rfl
    · rw [hu] at hpos
      cases hpos
  | fin s m e =>
    have hσ : Holds (.fin s m e) _ := ⟨s, m, e, rfl, canonical_ofBits hu, rfl⟩
    rw [hu, fpZero_eq, (holds_zero false).lt_iff hσ, decide_eq_true_iff] at hpos
    exact .inl ⟨_, hσ, hpos⟩

theorem posInf_eq : Fp.ofBits 0x7FF0000000000000 = .inf false := by decide

theorem negInf_eq : Fp.ofBits 0xFFF0000000000000 = .inf true := by decide

/-- With the scale +∞ a number keeps its place, and its quotient is a zero; an infinity has none. -/
theorem clip_inf (x : Fp) : clip x (.inf false) = x := by
  refine clip_inside ?_ ?_
  · cases x <;> rfl
  · cases x with
    | nan | fin => rfl
    | inf g => cases g <;> rfl

theorem div_inf_holds {t : Tag} {x : Fp} {v : ℚ} (h : Holds x v) : Holds (Fp.div t x (.inf false)) 0 := by
  obtain ⟨s, m, e, rfl, -, -⟩ := h
  exact holds_zero _

theorem quantScaled_ne_inf (n : Nat → Tag) (x s : Word64) {b : Nat} (hpos : Fp.lt Fp.zero (Fp.ofBits s) = true)
    (hb : b ≤ 32) (neg : Bool) : quantScaled n (Fp.ofBits x) (Fp.ofBits s) b ≠ .inf neg := by
  have hnan (h : (Fp.div (n 0) (clip (Fp.ofBits x) (Fp.ofBits s)) (Fp.ofBits s)).isNaN = true) :
      quantScaled n (Fp.ofBits x) (Fp.ofBits s) b ≠ .inf neg := fun hinf => by
    have hisNaN := quantScaled_nan (b := b) h
    rw [hinf] at hisNaN
    cases hisNaN
  have hfinite {q : ℚ} (h : Holds (Fp.div (n 0) (clip (Fp.ofBits x) (Fp.ofBits s)) (Fp.ofBits s)) q) (hq : |q| ≤ 1) :
      quantScaled n (Fp.ofBits x) (Fp.ofBits s) b ≠ .inf neg := fun hinf => by
    obtain ⟨v, _, _, _, hfin, -⟩ := quantScaled_finite hb h hq
    rw [hinf] at hfin
    cases hfin
  cases hx : (Fp.ofBits x).isNaN with
  | true =>
    refine hnan ?_
    obtain ⟨g, f, hx⟩ := isNaN_iff.mp hx
    rw [clip_nan (by rw [hx]; rfl), hx, div_nan]
    rfl
  | false =>
    obtain ⟨σ, hσ, hσpos⟩ | hinf := scale_cases hpos
    · obtain ⟨c, hc, hcle⟩ := clip_holds hσ hσpos hx
      have hquot : |c / σ| ≤ 2 ^ (0 : Int) := by
        rw [abs_div, abs_of_pos hσpos, zpow_zero, div_le_one hσpos]
        exact hcle
      obtain ⟨q, hq, hqle⟩ := (hc.div (n 0) hσ hσpos.ne').bounded hquot (by decide)
      exact hfinite hq (by simpa using hqle)
    · rw [hinf, clip_inf] at hnan hfinite
      rw [hinf]
      cases hu : Fp.ofBits x with
      | nan g f =>
        rw [hu] at hx
        cases hx
      | inf g =>
        rw [hu] at hnan
        exact hnan rfl
      | fin g m e =>
        rw [hu] at hfinite
        exact hfinite (div_inf_holds ⟨g, m, e, rfl, canonical_ofBits hu, rfl⟩) (by norm_num)

/-- Settles O36: the two checks of QUANT, the steps of Q, and its corners at an infinite scale. -/
theorem quantWritesTheQuantizedInteger : Obligations.QuantWritesTheQuantizedInteger := by
  refine ⟨fun b s => ⟨fun hb1 hb hpos => ?_, fun hbad => ?_⟩, quantSteps,
    fun n x s b hpos _ hb neg => quantScaled_ne_inf n x s hpos hb neg, by rw [posInf_eq]; rfl, fun t x b _ hb => ?_⟩
  · have hexec : exec (.quant b) s = execQuant b s := rfl
    have hscale : Fp.lt Fp.zero s.inRegs.scaleF = true := hpos
    rw [hexec, execQuant, if_pos (quantBitsOk_iff.mpr ⟨hb1, hb⟩), if_pos hscale]
    rfl
  · have hexec : exec (.quant b) s = execQuant b s := rfl
    rw [hexec, execQuant]
    by_cases hb : quantBitsOk b = true
    · rw [quantBitsOk_iff] at hb
      have hscale : ¬ Fp.lt Fp.zero s.inRegs.scaleF = true := by
        have hfalse := (hbad.resolve_left (by omega)).resolve_left (by omega)
        exact fun htrue => Bool.false_ne_true (hfalse.symm.trans htrue)
      rw [if_pos (quantBitsOk_iff.mpr hb), if_neg hscale]
      rfl
    · rw [if_neg hb]
      rfl
  · rw [posInf_eq]
    refine ⟨fun hfin => ?_, fun hinf => ?_⟩
    · obtain ⟨v, hv⟩ := holds_of_ofBits hfin
      have hquot : Holds (Fp.div (0 :: t) (clip (Fp.ofBits x) (.inf false)) (.inf false)) ((1 : Nat) - 1) := by
        rw [clip_inf, Nat.cast_one, sub_self]
        exact div_inf_holds hv
      rw [quantize_exact hb (by decide) hquot, Nat.one_mul]
    · rw [quantize_eq]
      refine roundClamp_nan _ (quantScaled_nan ?_)
      rw [clip_inf]
      rcases hinf with rfl | rfl
      · rw [posInf_eq]
        rfl
      · rw [negInf_eq]
        rfl

/-! ## DEQUANT (R272, R274) -/

/-- Settles O40: DQ is its steps, and DEQUANT checks the bit count alone. -/
theorem dequantWritesTheLevel : Obligations.DequantWritesTheLevel := by
  refine ⟨fun t q b s => ⟨fun i => i :: t, rfl⟩, fun b s => ⟨fun hb1 hb => ?_, fun hbad => ?_⟩⟩
  · have hexec : exec (.dequant b) s = execDequant b s := rfl
    rw [hexec, execDequant, if_pos (quantBitsOk_iff.mpr ⟨hb1, hb⟩)]
    rfl
  · have hexec : exec (.dequant b) s = execDequant b s := rfl
    rw [hexec, execDequant, if_neg (by rw [quantBitsOk_iff]; omega)]
    rfl

/-- The mapped level of DQ, before the product with the scale, is exactly −1 at 0 and 1 at M; as `2k - 1`. -/
theorem dequantize_level (t : Tag) {b k : Nat} (hb1 : 1 ≤ b) (hb : b ≤ 32) (hk : k ≤ 1) :
    Holds (Fp.sub (2 :: t) (Fp.mul (1 :: t) (Fp.div (0 :: t) (Fp.ofNat (k * (2 ^ b - 1))) (Fp.ofNat (2 ^ b - 1)))
      (Fp.ofNat 2)) (Fp.ofNat 1)) (2 * k - 1) := by
  have hlevel := levelCount_lt hb
  have hpow : 2 ^ 1 ≤ 2 ^ b := Nat.pow_le_pow_right (by decide) hb1
  have hsmall : k * (2 ^ b - 1) < 2 ^ 53 := lt_of_le_of_lt (Nat.mul_le_mul hk hlevel.le) (by decide)
  have hne : ((2 ^ b - 1 : Nat) : ℚ) ≠ 0 := by exact_mod_cast (by omega : 2 ^ b - 1 ≠ 0)
  have hdiv := (holds_ofNat hsmall).div (0 :: t) (holds_ofNat (n := 2 ^ b - 1) (by omega)) hne
  rw [Nat.cast_mul, mul_div_cancel_right₀ _ hne] at hdiv
  have hmul := (hdiv.exact (holds_ofNat (by omega))).mul (1 :: t) (holds_ofNat (n := 2) (by decide))
  have htwice : Holds _ ((k * 2 : Nat) : ℚ) := holds_ofNat (by omega)
  have hsub := (hmul.exact (by exact_mod_cast htwice)).sub (2 :: t) (holds_ofNat (n := 1) (by decide))
  have hvalue : (k * (2 : Nat) - (1 : Nat) : ℚ) = 2 * k - 1 := by push_cast; ring
  rw [hvalue] at hsub
  refine hsub.exact (z := if k = 0 then (Fp.ofNat 1).neg else Fp.ofNat 1) ?_
  interval_cases k
  · simpa using (holds_ofNat (n := 1) (by decide)).neg
  · norm_num
    simpa using holds_ofNat (n := 1) (by decide)

theorem holds_unit (s : Bool) : Holds (.fin s (2 ^ 52) (-52)) (signedValue s 1) :=
  ⟨s, _, _, rfl, canonical_one, by rw [magnitude_one]⟩

theorem mul_one_left (t : Tag) {s : Bool} {m : Nat} {e : Int} (h : Canonical m e) (s' : Bool) :
    Fp.mul t (.fin s' (2 ^ 52) (-52)) (.fin s m e) = .fin (s' ^^ s) m e := by
  have hround := mul_rounded t s' s (2 ^ 52) m (-52) e
  rw [magnitude_one, one_mul] at hround
  exact rounded_eq_of_canonical hround h

/-- Settles O41: the product of the scale by exactly −1 or 1. -/
theorem outermostLevelsAreExact : Obligations.OutermostLevelsAreExact := by
  intro t u b hfin hb1 hb
  obtain ⟨s, m, e, hu, hc⟩ := ofBits_of_finiteBits hfin
  have hlow := dequantize_level t hb1 hb (Nat.zero_le 1)
  have hhigh := dequantize_level t hb1 hb (le_refl 1)
  rw [Nat.zero_mul] at hlow
  rw [Nat.one_mul] at hhigh
  have hminus := hlow.unique (y := .fin true (2 ^ 52) (-52)) (by simpa [signedValue] using holds_unit true) (by norm_num)
  have hplus := hhigh.unique (y := .fin false (2 ^ 52) (-52))
    (by norm_num; simpa [signedValue] using holds_unit false) (by norm_num)
  have hsteps (q : Nat) : dequantize t q b (Fp.ofBits u) =
      Fp.mul (3 :: t) (Fp.sub (2 :: t) (Fp.mul (1 :: t) (Fp.div (0 :: t) (Fp.ofNat q) (Fp.ofNat (2 ^ b - 1)))
        (Fp.ofNat 2)) (Fp.ofNat 1)) (Fp.ofBits u) := rfl
  constructor
  · rw [hsteps, hminus, hu, mul_one_left _ hc, Bool.true_xor]
    rfl
  · rw [hsteps, hplus, hu, mul_one_left _ hc, Bool.false_xor]

end Sys2Proof.Quantizing
end

section
/-! SUPPORT. FFT_CORE (42_fft.md R220 to R225): the list form as the in-place loop, stage after stage, and what FFTF and
FFTI leave. -/

namespace Sys2Proof.Transform

open Sys2Proof Sys2Proof.Machine Sys2Proof.Lifecycle

/-! ## The stages one after the other -/

/-- The last of `n + 1` stages works on what the first `n` leave. -/
theorem stages_succ (t : Tag) (inv : Bool) (s n : Nat) (xs : List Cpx) :
    stages t inv s (n + 1) xs = stage t inv (s + n) (stages t inv s n xs) := by
  induction n generalizing s xs with
  | zero => rfl
  | succ n ih =>
    rw [stages, ih, stages, show s + 1 + n = s + (n + 1) by omega]

theorem bitReverse_getD (xs : List Cpx) {k : Nat} (hk : k < 1024) (d : Cpx) :
    (bitReverse xs).getD k d = xs.getD (rev k) Cpx.zero := by
  simp [bitReverse, Config.fftSize, List.getD_eq_getElem?_getD, hk]

theorem twiddles_getD_zero (step w d : Cpx) {n : Nat} (hn : 0 < n) : (twiddles step n w).getD 0 d = w := by
  obtain ⟨k, rfl⟩ : ∃ k, n = k + 1 := ⟨n - 1, by omega⟩
  rfl

theorem cpxMul_eq_loopProduct (t : Tag) (x w : Cpx) : Cpx.mul t x w = loopProduct (fun i => i :: t) x w := rfl

/-- Element `k` after the first `s` stages. -/
def afterStages (t : Tag) (inv : Bool) (xs : List Cpx) (s k : Nat) : Cpx :=
  (stages t inv 1 s (bitReverse xs)).getD k Cpx.zero

/-- Twiddle `j` of stage `s`. -/
def twiddleOf (inv : Bool) (s j : Nat) : Cpx := (stageTwiddles inv s).getD j Cpx.zero

theorem twiddleOf_zero (inv : Bool) (s : Nat) : twiddleOf inv s 0 = { re := Fp.ofNat 1, im := Fp.zero } :=
  twiddles_getD_zero _ _ _ (Nat.two_pow_pos _)

theorem twiddleOf_succ (inv : Bool) {s j : Nat} (hj : j + 1 < 2 ^ (s - 1)) :
    ∃ n, twiddleOf inv s (j + 1) = Cpx.mul n (twiddleOf inv s j) (twiddleStep inv s) :=
  ⟨_, twiddles_getD_succ _ _ _ _ _ hj⟩

theorem afterStages_zero (t : Tag) (inv : Bool) (xs : List Cpx) {k : Nat} (hk : k < 1024) :
    afterStages t inv xs 0 k = xs.getD (rev k) Cpx.zero := bitReverse_getD xs hk _

/-- The two results of butterfly `j` of the group at `base` in stage `s` (R223). -/
theorem afterStages_butterfly (t : Tag) (inv : Bool) (xs : List Cpx) {s base j : Nat} (h1 : 1 ≤ s) (h2 : s ≤ 10)
    (hlt : base < 1024) (hbase : base % 2 ^ s = 0) (hj : j < 2 ^ (s - 1)) :
    ∃ n, afterStages t inv xs s (base + j) = (butterfly n (afterStages t inv xs (s - 1) (base + j))
        (afterStages t inv xs (s - 1) (base + j + 2 ^ (s - 1))) (twiddleOf inv s j)).1 ∧
      afterStages t inv xs s (base + j + 2 ^ (s - 1)) = (butterfly n (afterStages t inv xs (s - 1) (base + j))
        (afterStages t inv xs (s - 1) (base + j + 2 ^ (s - 1))) (twiddleOf inv s j)).2 := by
  obtain ⟨g, rfl⟩ := Nat.dvd_of_mod_eq_zero hbase
  obtain ⟨r, rfl⟩ : ∃ r, s = r + 1 := ⟨s - 1, by omega⟩
  have hg : g < 2 ^ (10 - (r + 1)) := by
    have hpow : 2 ^ (r + 1) * 2 ^ (10 - (r + 1)) = 1024 := by rw [← pow_add, Nat.add_sub_of_le h2]; rfl
    exact Nat.lt_of_mul_lt_mul_left (hpow ▸ hlt)
  have hlen : (stages t inv 1 r (bitReverse xs)).length = 1024 :=
    stages_length _ _ _ _ _ (le_refl _) (by omega) (bitReverse_length xs)
  have hstage := stage_getD t inv (r + 1) g j _ h1 h2 hlen hg hj Cpx.zero
  simp only [afterStages, stages_succ, Nat.add_comm 1 r, Nat.add_sub_cancel]
  exact ⟨_, hstage⟩

theorem normalised_getD (t : Tag) (ys : List Cpx) {k : Nat} (hk : k < ys.length) (d : Cpx) :
    (ys.zipIdx.map fun p => normalise (p.2 :: t) p.1).getD k d = normalise (k :: t) (ys.getD k d) := by
  simp [List.getD_eq_getElem?_getD, hk]

theorem fftCore_getD (t : Tag) (inv : Bool) (xs : List Cpx) {k : Nat} (hk : k < 1024) :
    (fftCore t inv xs).getD k Cpx.zero =
      if inv then normalise (k :: 1 :: t) (afterStages (0 :: t) inv xs 10 k) else afterStages (0 :: t) inv xs 10 k := by
  have hlen : (stages (0 :: t) inv 1 10 (bitReverse xs)).length = 1024 :=
    stages_length _ _ _ _ _ (le_refl _) (le_refl _) (bitReverse_length xs)
  cases inv with
  | false => rfl
  | true => exact normalised_getD (1 :: t) _ (by rw [Config.log2N, hlen]; exact hk) _

/-- The list form of FFT_CORE is the in-place loop (log 14). -/
theorem fftLoop_fftCore (t : Tag) (inv : Bool) (xs : List Cpx) :
    FftLoop inv (fun k => xs.getD k Cpx.zero) (fun k => (fftCore t inv xs).getD k Cpx.zero) := by
  refine ⟨afterStages (0 :: t) inv xs, twiddleOf inv, fun k hk => afterStages_zero _ _ _ hk, fun s h1 h2 =>
    ⟨twiddleOf_zero inv s, fun j hj => ?twiddle, fun base j hlt hbase hj => ?butterfly⟩, fun k hk => ?result⟩
  case twiddle =>
    obtain ⟨n, hn⟩ := twiddleOf_succ inv hj
    exact ⟨_, hn.trans (cpxMul_eq_loopProduct ..)⟩
  case butterfly =>
    obtain ⟨n, hsum, hdiff⟩ := afterStages_butterfly (0 :: t) inv xs h1 h2 hlt hbase hj
    exact ⟨fun i => i :: n, hsum, hdiff⟩
  case result =>
    exact ⟨fun i => i :: k :: 1 :: t, fftCore_getD t inv xs hk⟩

/-! ## FFTF and FFTI (R224, R225) -/

theorem spectrum_eq_map (m : Memory) : m.spectrum =
    (List.range 1024).map fun j => { re := Fp.ofBits (m.reAt j), im := Fp.ofBits (m.imAt j) } := by
  refine List.ext_getElem (by simp) fun k hk hk' => ?_
  have hk : k < 1024 := by simpa using hk
  rw [← List.getD_eq_getElem _ Cpx.zero, spectrum_getD m k hk]
  simp

/-- A transform completes with the live registers, and RE and IM hold FFT_CORE of the snapshot's. -/
theorem transform_spec (inv : Bool) (s : State) :
    Completed s (transform inv s) ∧ (transform inv s).draws = s.draws + 1 ∧
    (transform inv s).regs = { s.regs with done := true, err := .success } ∧
    (∀ k < 1024,
      let x := (fftCore [s.draws] inv ((List.range 1024).map fun j =>
        { re := Fp.ofBits (s.inMem.reAt j), im := Fp.ofBits (s.inMem.imAt j) })).getD k Cpx.zero
      (transform inv s).mem.reAt k = x.re.toBits ∧ (transform inv s).mem.imAt k = x.im.toBits) ∧
    (∀ a, a < 0x4000 ∨ 0x8000 ≤ a → (transform inv s).mem.byte a = s.mem.byte a) := by
  refine ⟨⟨rfl, rfl, rfl⟩, rfl, rfl, fun k hk => ?_, fun a ha => byte_writeCpx_outside _ _ _ (fftCore_length ..) ha⟩
  rw [← spectrum_eq_map]
  exact ⟨reAt_writeCpx _ _ (fftCore_length ..) k hk, imAt_writeCpx _ _ (fftCore_length ..) k hk⟩

/-- Settles O32: the transform's writes, the loop, and the ROM's encodings (R222). -/
theorem fftfWritesTheForwardTransform : Obligations.FftfWritesTheForwardTransform :=
  ⟨fun s => ⟨_, rfl, transform_spec false s⟩, fun n xs _ => fftLoop_fftCore n false xs, by decide +kernel⟩

/-- Settles O33: the same with the sines negated and the division by 1024. -/
theorem fftiWritesTheInverseTransform : Obligations.FftiWritesTheInverseTransform :=
  ⟨fun s => ⟨_, rfl, transform_spec true s⟩, fun n xs _ => fftLoop_fftCore n true xs, by decide +kernel⟩

end Sys2Proof.Transform
end

section
/-! SUPPORT. The frame encoder ENC (45_encode.md R290 to R297): the scale as a largest magnitude, the bytes and the bits
of the frame, and what the command leaves. -/

namespace Sys2Proof.FrameEncode

open Sys2Proof Sys2Proof.Machine Sys2Proof.BusMemory Sys2Proof.FrameBits Sys2Proof.FloatFormat Sys2Proof.ExactArithmetic
open Sys2Proof.Quantizing

/-! ## The order of the comparison (R11) -/

/-- The place of a value in the order: the exact value, between the infinities. A NaN has no place, and takes part in no
lemma below. -/
def rank (x : Fp) : WithBot (WithTop ℚ) :=
  match x with
  | .nan _ _ => ⊥
  | .inf neg => if neg then ⊥ else ((⊤ : WithTop ℚ) : WithBot (WithTop ℚ))
  | .fin s m e => ((signedValue s (magnitude m e) : WithTop ℚ) : WithBot (WithTop ℚ))

theorem lt_iff_rank {x y : Fp} (hx : x.isNaN = false) (hy : y.isNaN = false) :
    Fp.lt x y = true ↔ rank x < rank y := by
  cases x with
  | nan => cases hx
  | inf s =>
    cases y with
    | nan => cases hy
    | inf s' => cases s <;> cases s' <;> simp [Fp.lt, rank]
    | fin s' m e => cases s <;> simp [Fp.lt, rank]
  | fin s m e =>
    cases y with
    | nan => cases hy
    | inf s' =>
      cases s' with
      | true => simp [Fp.lt, rank]
      | false => exact iff_of_true rfl (WithBot.coe_lt_coe.mpr (WithTop.coe_lt_top _))
    | fin s' m' e' => simp [lt_iff_signedValue, rank]

theorem lt_false_of_nan {x y : Fp} (hy : y.isNaN = true) : Fp.lt x y = false := by
  obtain ⟨g, f, rfl⟩ := isNaN_iff.mp hy
  exact lt_nan_right g f x

/-- Neither side of a comparison that holds is a NaN. -/
theorem not_nan_of_lt {x y : Fp} (h : Fp.lt x y = true) : x.isNaN = false ∧ y.isNaN = false := by
  cases x with
  | nan g f =>
    rw [lt_nan_left] at h
    cases h
  | inf | fin =>
    cases y with
    | nan g f =>
      rw [lt_nan_right] at h
      cases h
    | inf | fin => exact ⟨rfl, rfl⟩

theorem lt_self (x : Fp) : Fp.lt x x = false := by
  refine Bool.eq_false_iff.mpr fun h => ?_
  obtain ⟨hx, -⟩ := not_nan_of_lt h
  exact lt_irrefl _ ((lt_iff_rank hx hx).mp h)

/-- What is not above a value is not above a greater one. -/
theorem lt_false_of_lt {m a x : Fp} (hma : Fp.lt m a = true) (hmx : Fp.lt m x = false) : Fp.lt a x = false := by
  refine Bool.eq_false_iff.mpr fun hax => Bool.false_ne_true (hmx.symm.trans ?_)
  obtain ⟨hm, ha⟩ := not_nan_of_lt hma
  obtain ⟨-, hx⟩ := not_nan_of_lt hax
  exact (lt_iff_rank hm hx).mpr (lt_trans ((lt_iff_rank hm ha).mp hma) ((lt_iff_rank ha hx).mp hax))

/-! ## The scale (R292) -/

/-- `m'` comes from `m` by comparisons with the parts `as`: it is no NaN if `m` is none, bounds what `m` bounds and each of
`as`, and is `m` or one of `as`. -/
structure Raised (m : Fp) (as : List Fp) (m' : Fp) : Prop where
  isNaN : m.isNaN = false → m'.isNaN = false
  keeps : ∀ x, Fp.lt m x = false → Fp.lt m' x = false
  bounds : ∀ a ∈ as, Fp.lt m' a = false
  source : m' = m ∨ m' ∈ as

theorem raised_raiseTo (m a : Fp) : Raised m [a] (raiseTo m a) := by
  unfold raiseTo
  split
  · next h =>
    exact ⟨fun _ => (not_nan_of_lt h).2, fun x hx => lt_false_of_lt h hx,
      fun x hx => List.mem_singleton.mp hx ▸ lt_self a, .inr (List.mem_singleton_self a)⟩
  · next h =>
    exact ⟨id, fun x hx => hx, fun x hx => List.mem_singleton.mp hx ▸ Bool.eq_false_iff.mpr h, .inl rfl⟩

theorem Raised.trans {m m' m'' : Fp} {as bs : List Fp} (h : Raised m as m') (h' : Raised m' bs m'') :
    Raised m (as ++ bs) m'' where
  isNaN hm := h'.isNaN (h.isNaN hm)
  keeps x hx := h'.keeps x (h.keeps x hx)
  bounds a ha := (List.mem_append.mp ha).elim (fun ha => h'.keeps a (h.bounds a ha)) (h'.bounds a)
  source := by
    rcases h'.source with rfl | hb
    · exact h.source.imp_right fun ha => List.mem_append_left _ ha
    · exact .inr (List.mem_append_right _ hb)

/-- The magnitudes step 4 compares, in its order. -/
def magnitudes (bins : List Cpx) : List Fp := bins.flatMap fun x => [x.re.abs, x.im.abs]

theorem raised_foldl (bins : List Cpx) (m : Fp) :
    Raised m (magnitudes bins) (bins.foldl (fun m x => raiseTo (raiseTo m x.re.abs) x.im.abs) m) := by
  induction bins generalizing m with
  | nil => exact ⟨id, fun _ hx => hx, fun _ ha => absurd ha List.not_mem_nil, .inl rfl⟩
  | cons x bins ih => exact ((raised_raiseTo m x.re.abs).trans (raised_raiseTo _ x.im.abs)).trans (ih _)

theorem raised_encScale (bins : List Cpx) : Raised Fp.zero (magnitudes bins ++ [silenceGuard]) (encScale bins) :=
  (raised_foldl bins Fp.zero).trans (raised_raiseTo _ silenceGuard)

theorem mem_magnitudes {bins : List Cpx} {a : Fp} :
    a ∈ magnitudes bins ↔ ∃ x ∈ bins, a = x.re.abs ∨ a = x.im.abs := by
  simp [magnitudes]

/-- Settles O48: the scale is raised from 0 to each magnitude and then to G, which is above 0. -/
theorem encScaleBoundsTheBins : Obligations.EncScaleBoundsTheBins := by
  intro bins
  have hraised := raised_encScale bins
  have hguard : Fp.lt (encScale bins) silenceGuard = false :=
    hraised.bounds _ (List.mem_append_right _ (List.mem_singleton_self _))
  have hbin {a : Fp} (ha : a ∈ magnitudes bins) := hraised.bounds a (List.mem_append_left _ ha)
  refine ⟨hraised.isNaN rfl, hguard, fun x hx => ⟨hbin (mem_magnitudes.mpr ⟨x, hx, .inl rfl⟩),
    hbin (mem_magnitudes.mpr ⟨x, hx, .inr rfl⟩)⟩, ?_⟩
  rcases hraised.source with hzero | hmem
  · have hpos : Fp.lt Fp.zero silenceGuard = true := by decide +kernel
    rw [hzero, hpos] at hguard
    cases hguard
  · rcases List.mem_append.mp hmem with hmag | hG
    · exact .inr (mem_magnitudes.mp hmag)
    · exact .inl (List.mem_singleton.mp hG)

/-! ## What ENC answers (R290) -/

theorem exec_enc (p : Nat) (s : State) : exec (.enc p) s = execEnc p s := rfl

/-- The memory ENC leaves: the spectrum `xs` in RE and IM, the frame in FBUF. -/
def encMemory (m : Memory) (t : Tag) (p : Nat) (seq : Word) (xs : List Cpx) : Memory :=
  (m.writeCpx xs).writeFbuf 0 (encFrame t p seq xs)

theorem execEnc_ok {p : Nat} (s : State) (hp : p ≤ 3) (hn : s.inRegs.nsamp = 1024) :
    execEnc p s = .next (s.succeed
      { s.regs with
        scale := (encScale ((encSpectrum [s.draws] s.inMem.pcmIn).take (binCount p))).toBits
        seq := s.inRegs.seq + 1
        flen := BitVec.ofNat 16 (frameBytes p)
        dprof := BitVec.ofNat 8 p }
      (encMemory s.mem [s.draws] p s.inRegs.seq (encSpectrum [s.draws] s.inMem.pcmIn))).nextDraw := by
  have hlen : s.inRegs.nsamp.toNat = Config.frameSamples := by rw [hn]; rfl
  rw [execEnc, lookup_le hp]
  exact if_pos hlen

/-- Settles O47: the strict lookup comes first, then the number of samples. -/
theorem encChecksProfileThenLength : Obligations.EncChecksProfileThenLength := by
  refine fun p s => ⟨fun hp => ?_, fun hp hn => ?_⟩
  · rw [exec_enc, execEnc, lookup_gt hp]
    rfl
  · have hlen : ¬ s.inRegs.nsamp.toNat = Config.frameSamples := fun h => hn (BitVec.eq_of_toNat_eq h)
    rw [exec_enc, execEnc, lookup_le hp]
    exact if_neg hlen

/-! ## The bytes of the frame (R293, R296) -/

section FrameBytes

variable {t : Tag} {p : Nat} {seq : Word} {xs : List Cpx}

theorem encFrame_header {a : Nat} (ha : a < 12) :
    (encFrame t p seq xs).getD a 0 = (encHeader t p (encScale (xs.take (binCount p))) seq).getD a 0 :=
  getD_append_left' _ _ _ _ (by rwa [encHeader_length])

theorem encFrame_payload {a : Nat} (ha : a < payloadBytes p) : (encFrame t p seq xs).getD (12 + a) 0 =
    (packBytes (payloadBytes p)
      (encFields t p (encScale (xs.take (binCount p))) (xs.take (binCount p)))).getD a 0 := by
  rw [encFrame, getD_append_right' _ _ _ _ (by rw [encHeader_length]; omega), encHeader_length,
    getD_append_left' _ _ _ _ (by rw [packBytes_length]; omega), Nat.add_sub_cancel_left]

theorem encFrame_tail {a : Nat} (ha : frameBytes p ≤ a) : (encFrame t p seq xs).getD a 0 = 0 := by
  have hframe : frameBytes p = 12 + payloadBytes p := rfl
  rw [encFrame, getD_append_right' _ _ _ _ (by rw [encHeader_length]; omega), encHeader_length,
    getD_append_right' _ _ _ _ (by rw [packBytes_length]; omega), List.getD_eq_getElem?_getD,
    List.getElem?_getD_replicate_default_eq]

theorem encHeader_fixed (m : Fp) : (List.range 4).map ((encHeader t p m seq).getD · 0) =
    [2, BitVec.ofNat 8 (binCount p), BitVec.ofNat 8 p, 0] := rfl

theorem encHeader_scale (m : Fp) {k : Nat} (hk : k < 4) : (encHeader t p m seq).getD (4 + k) 0 =
    BitVec.ofNat 8 ((round64to32 (2 :: t) m).toNat / 256 ^ k) := by
  rw [encHeader, getD_append_right' _ _ _ _ (by simp), List.length_cons, List.length_cons, List.length_cons,
    List.length_singleton, getD_append_left' _ _ _ _ (by rw [leBytes_length]; omega), Nat.add_sub_cancel_left,
    leBytes_getD _ _ _ hk]

theorem encHeader_seq (m : Fp) {k : Nat} (hk : k < 4) : (encHeader t p m seq).getD (8 + k) 0 =
    BitVec.ofNat 8 (seq.toNat / 256 ^ k) := by
  rw [encHeader, getD_append_right' _ _ _ _ (by simp; omega), List.length_cons, List.length_cons, List.length_cons,
    List.length_singleton, getD_append_right' _ _ _ _ (by rw [leBytes_length]; omega), leBytes_length,
    show 8 + k - (0 + 1 + 1 + 1 + 1) - 4 = k by omega, leBytes_getD _ _ _ hk]

/-! ## The memory ENC leaves -/

variable (m : Memory)

theorem byte_encMemory (hp : p ≤ 3) {a : Nat} (ha : a < 4096) :
    (encMemory m t p seq xs).byte (0x8000 + a) = (encFrame t p seq xs).getD a 0 := by
  rw [encMemory, byte_writeFbuf, encFrame_length hp, if_pos (by rw [fbufBase]; omega),
    show 0x8000 + a - (fbufBase + 0) = a by rw [fbufBase]; omega]

theorem bytes_writeFbuf_outside {a x n : Nat} {bs : List Byte} (h : x + n ≤ fbufBase) :
    (m.writeFbuf a bs).bytes x n = m.bytes x n :=
  bytes_writeBlock_outside _ _ _ _ _ (.inl (by omega))

theorem reAt_encMemory (hxs : xs.length = 1024) {k : Nat} (hk : k < 1024) :
    (encMemory m t p seq xs).reAt k = (xs.getD k Cpx.zero).re.toBits := by
  rw [← reAt_writeCpx m xs hxs k hk, encMemory, Memory.reAt, bytes_writeFbuf_outside _ (by rw [reBase, fbufBase]; omega)]
  rfl

theorem imAt_encMemory (hxs : xs.length = 1024) {k : Nat} (hk : k < 1024) :
    (encMemory m t p seq xs).imAt k = (xs.getD k Cpx.zero).im.toBits := by
  rw [← imAt_writeCpx m xs hxs k hk, encMemory, Memory.imAt, bytes_writeFbuf_outside _ (by rw [imBase, fbufBase]; omega)]
  rfl

theorem byte_encMemory_outside (hp : p ≤ 3) (hxs : xs.length = 1024) {a : Nat} (ha : a < 0x4000 ∨ 0x9000 ≤ a) :
    (encMemory m t p seq xs).byte a = m.byte a := by
  rw [encMemory, byte_writeFbuf, encFrame_length hp, if_neg (by rw [fbufBase]; omega),
    byte_writeCpx_outside _ _ _ hxs (by rw [reBase]; omega)]

end FrameBytes

/-! ## The frame (R291 to R296) -/

/-- The samples in the order of PCM_IN, each with the name of its widening. -/
theorem encSpectrum_eq (t : Tag) (m : Memory) : encSpectrum t m.pcmIn =
    fftCore (1 :: t) false ((List.range 1024).map fun k =>
      { re := widen32to64 (k :: 0 :: t) (m.pcmInAt k), im := Fp.zero }) := by
  rw [encSpectrum]
  refine congrArg (fftCore (1 :: t) false) ?_
  refine List.ext_getElem (by simp) fun k hk hk' => ?_
  have hk : k < 1024 := by simpa using hk
  have hsample : m.pcmIn[k]'(by simpa using hk) = m.pcmInAt k := by
    rw [← pcmIn_getD m k hk, List.getD_eq_getElem]
  simp [hsample]

theorem ofNat_frameBytes16 {p : Nat} (hp : p ≤ 3) :
    BitVec.ofNat 16 (frameBytes p) = ([313, 569, 958, 2060] : List (BitVec 16)).getD p 0 := by
  rw [frameBytes_eq hp]
  interval_cases p <;> rfl

/-- Settles O45: the outcome of the two checks, and the frame byte by byte. -/
theorem encWritesTheFrame : Obligations.EncWritesTheFrame := by
  intro p s hp hn xs m
  have hxs : encSpectrum [s.draws] s.inMem.pcmIn = xs := encSpectrum_eq [s.draws] s.inMem
  have hlen : xs.length = 1024 := fftCore_length ..
  have hexec := execEnc_ok s hp hn
  rw [hxs] at hexec
  refine ⟨_, hexec, ⟨rfl, rfl, rfl⟩, rfl, ?regs, fun k hk => ⟨reAt_encMemory s.mem hlen hk, imAt_encMemory s.mem hlen hk⟩,
    ?fixed, fun k hk => ?scale, fun k hk => ?seq, fun a hlo hhi => ?tail, fun a ha => byte_encMemory_outside s.mem hp hlen ha⟩
  case regs =>
    rw [nextDraw_regs, succeed_regs, ofNat_frameBytes16 hp, BitVec.ofNat_add, BitVec.ofNat_toNat, BitVec.setWidth_eq]
    rfl
  case fixed =>
    rw [nextDraw_mem, succeed_mem, ← encHeader_fixed (t := [s.draws]) (seq := s.inRegs.seq) m, Memory.bytes]
    refine List.map_congr_left fun k hk => ?_
    have hk : k < 4 := List.mem_range.mp hk
    rw [byte_encMemory s.mem hp (by omega), encFrame_header (by omega)]
  case scale =>
    rw [nextDraw_mem, succeed_mem, Nat.add_assoc 0x8000 4 k, byte_encMemory s.mem hp (by omega), encFrame_header (by omega),
      encHeader_scale _ hk]
  case seq =>
    rw [nextDraw_mem, succeed_mem, Nat.add_assoc 0x8000 8 k, byte_encMemory s.mem hp (by omega), encFrame_header (by omega),
      encHeader_seq _ hk]
  case tail =>
    rw [← frameBytes_eq hp] at hlo
    rw [nextDraw_mem, succeed_mem, byte_encMemory s.mem hp hhi, encFrame_tail hlo]

/-! ## The bits of the payload (R295, R137) -/

/-- Element `j` of the part that list element `i` contributes to a flattened list. -/
theorem flatMap_getD {α β : Type} (f : α → List β) (xs : List α) {i j : Nat} (hi : i < xs.length)
    (hj : j < (f xs[i]).length) (d : β) :
    (xs.flatMap f).getD (((xs.take i).map fun x => (f x).length).sum + j) d = (f xs[i]).getD j d := by
  have hsplit : xs = xs.take i ++ xs[i] :: xs.drop (i + 1) := by simp
  have hlen : ((xs.take i).flatMap f).length = ((xs.take i).map fun x => (f x).length).sum := List.length_flatMap
  conv_lhs => rw [hsplit]
  rw [List.take_left' (by simp; omega), List.flatMap_append, getD_append_right' _ _ _ _ (by omega), hlen,
    Nat.add_sub_cancel_left, List.flatMap_cons, getD_append_left' _ _ _ _ hj]

theorem fieldPos_succ (p i : Nat) : fieldPos p (i + 1) = fieldPos p i + 2 * weight p i := by
  simp [fieldPos, List.range_succ, Nat.mul_add, Nat.add_assoc]

theorem fieldPos_mono (p : Nat) : Monotone (fieldPos p) :=
  monotone_nat_of_le_succ fun i => by rw [fieldPos_succ]; omega

theorem fieldPos_binCount (p : Nat) : fieldPos p (binCount p) = 96 + totalBits p := rfl

/-- The two fields of bin `i` end with the payload or before. -/
theorem fieldPos_le {p i : Nat} (hi : i < binCount p) : fieldPos p i + 2 * weight p i ≤ 96 + totalBits p := by
  rw [← fieldPos_succ, ← fieldPos_binCount]
  exact fieldPos_mono p hi

theorem totalBits_le {p : Nat} (hp : p ≤ 3) : totalBits p ≤ 16384 := by
  rw [totalBits_eq hp]
  interval_cases p <;> decide

section Payload

variable (t : Tag) (p : Nat) (m : Fp) (bins : List Cpx)

/-- The two fields of bin `i`, as they stand in the stream. -/
def binFields (i : Nat) (x : Cpx) : List Bool :=
  bitsOf (weight p i) (quantize (0 :: i :: 3 :: t) x.re m (weight p i)) ++
    bitsOf (weight p i) (quantize (1 :: i :: 3 :: t) x.im m (weight p i))

theorem binFields_length (i : Nat) (x : Cpx) : (binFields t p m i x).length = 2 * weight p i := by
  rw [binFields, List.length_append, bitsOf_length, bitsOf_length, Nat.two_mul]

theorem encFields_eq : encFields t p m bins = bins.zipIdx.flatMap fun x => binFields t p m x.2 x.1 := rfl

/-- The fields of the bins before bin `i` take the bits from 96 to its place. -/
theorem fieldsBefore_length {i : Nat} (hi : i ≤ bins.length) :
    ((bins.zipIdx.take i).map fun x => (binFields t p m x.2 x.1).length).sum + 96 = fieldPos p i := by
  have hplaces : (bins.zipIdx.take i).map (fun x => (binFields t p m x.2 x.1).length) =
      (List.range i).map fun k => 2 * weight p k := by
    refine List.ext_getElem (by simpa using hi) fun k hk hk' => ?_
    simp [binFields_length]
  rw [hplaces, List.sum_map_mul_left, fieldPos, Nat.add_comm]

theorem encFields_length : (encFields t p m bins).length + 96 = fieldPos p bins.length := by
  rw [encFields_eq, List.length_flatMap, ← fieldsBefore_length t p m bins (le_refl _), List.take_of_length_le (by simp)]

/-- Bit `j` of the fields of bin `i`. -/
theorem encFields_getD {i j : Nat} (hi : i < bins.length) (hj : j < 2 * weight p i) :
    (encFields t p m bins).getD (fieldPos p i - 96 + j) false =
      (binFields t p m i (bins.getD i Cpx.zero)).getD j false := by
  have helem : bins.zipIdx[i]'(by simpa using hi) = (bins.getD i Cpx.zero, i) := by simp [hi]
  have hpart := flatMap_getD (fun x : Cpx × Nat => binFields t p m x.2 x.1) bins.zipIdx (i := i) (j := j)
    (by simpa using hi) (by rwa [binFields_length, helem]) false
  rw [helem] at hpart
  rw [← fieldsBefore_length t p m bins hi.le, Nat.add_sub_cancel, encFields_eq]
  exact hpart

end Payload

/-- The bits of FBUF from the header's end on are the payload's, and 0 after them (R138, R139). -/
theorem fbufBit_encMemory (m : Memory) {t : Tag} {p : Nat} {seq : Word} {xs : List Cpx} (hp : p ≤ 3) {q : Nat}
    (hq : 96 ≤ q) (hlt : q < 32768) : (encMemory m t p seq xs).fbufBit q =
      (encFields t p (encScale (xs.take (binCount p))) (xs.take (binCount p))).getD (q - 96) false := by
  have hdiv : q / 8 = 12 + (q - 96) / 8 := by omega
  rw [Memory.fbufBit, fbufBase, byte_encMemory m hp (by omega)]
  by_cases hin : (q - 96) / 8 < payloadBytes p
  · rw [hdiv, encFrame_payload hin, show q % 8 = (q - 96) % 8 by omega, packBytes_bit _ _ _ (by omega)]
  · have hframe : frameBytes p = 12 + payloadBytes p := rfl
    have hpayload : payloadBytes p = (totalBits p + 7) / 8 := rfl
    have hfields := encFields_length t p (encScale (xs.take (binCount p))) (xs.take (binCount p))
    have hbins := fieldPos_mono p (show (xs.take (binCount p)).length ≤ binCount p by simp)
    rw [fieldPos_binCount] at hbins
    rw [encFrame_tail (by omega), List.getD_eq_getElem?_getD, List.getElem?_eq_none (by omega)]
    exact BitVec.getLsbD_zero

/-- A field whose bits stand in FBUF reads as the number they spell. -/
theorem fbufField_of_bitsOf {m : Memory} {pos n v : Nat} (hv : v < 2 ^ n) (hstop : pos + n ≤ 32768)
    (hbits : ∀ k < n, m.fbufBit (pos + k) = (bitsOf n v).getD k false) : m.fbufField 32768 pos n = v := by
  rw [fbufField_eq_mod hstop fun k hk => (hbits k hk).trans (bitsOf_getD n v k hk), Nat.mod_eq_of_lt hv]

theorem quantize_lt (t : Tag) (x s : Fp) (b : Nat) : quantize t x s b < 2 ^ b := by
  have hle := quantizedIntegersAreInRange t x s b
  have hpow : 0 < 2 ^ b := Nat.two_pow_pos b
  omega

/-- Settles O46: each field's bits are those of its quantized part, at the sum of the fields before it. -/
theorem encPayloadHoldsTheQuantizedBins : Obligations.EncPayloadHoldsTheQuantizedBins := by
  intro p i s t hp hi hn hexec xs m
  rw [exec_enc, execEnc_ok s hp hn] at hexec
  obtain rfl := Host.Outcome.next.inj hexec
  rw [nextDraw_mem, succeed_mem]
  have hxs : xs.length = 1024 := encSpectrum_length ..
  have hbins : (xs.take (binCount p)).length = binCount p := by
    have hle := binCount_le p
    rw [List.length_take]
    omega
  have hend := fieldPos_le hi
  have htotal := totalBits_le hp
  have hpos : 96 ≤ fieldPos p i := Nat.le_add_right 96 _
  have hbit {j : Nat} (hj : j < 2 * weight p i) : (encMemory s.mem [s.draws] p s.inRegs.seq xs).fbufBit (fieldPos p i + j) =
      (binFields [s.draws] p m i (xs.getD i Cpx.zero)).getD j false := by
    have helem : (xs.take (binCount p)).getD i Cpx.zero = xs.getD i Cpx.zero := by
      simp only [List.getD_eq_getElem?_getD, List.getElem?_take_of_lt hi]
    rw [fbufBit_encMemory s.mem hp (by omega) (by omega), ← helem, ← encFields_getD _ _ _ _ (by omega) hj,
      show fieldPos p i + j - 96 = fieldPos p i - 96 + j by omega]
  refine ⟨fbufField_of_bitsOf (quantize_lt ..) (by omega) fun k hk => ?re,
    fbufField_of_bitsOf (quantize_lt ..) (by omega) fun k hk => ?im, fun q hlo hhi => ?zero⟩
  case re =>
    rw [hbit (by omega), binFields, getD_append_left' _ _ _ _ (by rwa [bitsOf_length])]
  case im =>
    rw [Nat.add_assoc, hbit (by omega), binFields, getD_append_right' _ _ _ _ (by rw [bitsOf_length]; omega), bitsOf_length,
      Nat.add_sub_cancel_left]
  case zero =>
    have hfields := encFields_length [s.draws] p m (xs.take (binCount p))
    rw [hbins, fieldPos_binCount] at hfields
    have hpast : (encFields [s.draws] p m (xs.take (binCount p))).length ≤ q - 96 := by omega
    rw [fbufBit_encMemory s.mem hp (by omega) hhi, List.getD_eq_getElem?_getD, List.getElem?_eq_none hpast]
    rfl

end Sys2Proof.FrameEncode
end

section
/-! SUPPORT. The frame decoder DEC (46_decode.md R310 to R318): the bins as fields of FBUF, the spectrum it builds, what
the command leaves, and the bytes it does not read. -/

namespace Sys2Proof.FrameDecode

open Sys2Proof Sys2Proof.Machine Sys2Proof.BusMemory Sys2Proof.HermitianMirror Sys2Proof.FrameEncode Sys2Proof.Tables

/-! ## The spectrum DEC builds (R313, R318) -/

/-- Settles O53: the kept elements, the mirrored ones and the band of a Hermitian extension. -/
theorem decodedSpectrumIsHermitian : Obligations.DecodedSpectrumIsHermitian := fun _ hpos hle =>
  ⟨hermitian_length _ _ _ hpos hle, fun _ hi => hermitian_getD_kept _ _ _ hi,
    fun _ h1 hi => hermitian_getD_mirror _ _ _ h1 hi hle, fun _ hlo hhi => hermitian_getD_band _ _ _ hlo hhi hpos⟩

/-- The extension element by element: the bins, their conjugates from the end, and zeros between. -/
theorem hermitian_eq_map {bins : List Cpx} (hpos : 1 ≤ bins.length) (hle : bins.length ≤ 512) :
    hermitian Cpx.conj Cpx.zero bins = (List.range 1024).map fun k =>
      if k < bins.length then bins.getD k Cpx.zero
      else if 1024 - bins.length < k then
        { re := (bins.getD (1024 - k) Cpx.zero).re, im := (bins.getD (1024 - k) Cpx.zero).im.neg }
      else { re := Fp.zero, im := Fp.zero } := by
  refine List.ext_getElem (by simp [hermitian_length _ _ _ hpos hle]) fun k hk hk' => ?_
  have hk1024 : k < 1024 := by simpa using hk'
  rw [← List.getD_eq_getElem _ Cpx.zero, List.getElem_map, List.getElem_range]
  split
  · next hbin => exact hermitian_getD_kept _ _ _ hbin
  · next hnot =>
    split
    · next hmirror =>
      have h := hermitian_getD_mirror Cpx.conj Cpx.zero Cpx.zero (xs := bins) (i := 1024 - k) (by omega) (by omega) hle
      rwa [show 1024 - (1024 - k) = k by omega] at h
    · next hband => exact hermitian_getD_band _ _ _ (by omega) (by omega) hpos

/-! ## The bins as fields of the frame (R313) -/

theorem readField_drop (stream : List Bool) (k pos n : Nat) :
    readField (stream.drop k) pos n = readField stream (k + pos) n := by
  rw [readField, readField, List.drop_drop]

/-- Bin `j` of a run reads its two fields after those of the bins before it. -/
theorem decBins_getD (t : Tag) (scale : Fp) (i : Nat) (ws : List Nat) (stream : List Bool) {j : Nat} (hj : j < ws.length) :
    (decBins t scale i ws stream).1.getD j Cpx.zero =
      { re := dequantize (0 :: (i + j) :: t) (readField stream (2 * (ws.take j).sum) (ws.getD j 0)).1 (ws.getD j 0) scale,
        im := dequantize (1 :: (i + j) :: t)
          (readField stream (2 * (ws.take j).sum + ws.getD j 0) (ws.getD j 0)).1 (ws.getD j 0) scale } := by
  induction ws generalizing i stream j with
  | nil => simp at hj
  | cons b ws ih =>
    cases j with
    | zero => simp [decBins]
    | succ j =>
      rw [decBins, List.getD_cons_succ, ih _ _ (by simpa using hj), readField_drop, readField_drop, List.take_succ_cons,
        List.sum_cons, List.getD_cons_succ, Nat.mul_add, Nat.add_assoc i 1 j, Nat.add_comm 1 j, Nat.add_assoc (2 * b)]

/-- A bit is missing when the stream ends before the last field. -/
theorem decBins_missing (t : Tag) (scale : Fp) (i : Nat) (ws : List Nat) (stream : List Bool) (hpos : ∀ b ∈ ws, 0 < b) :
    (decBins t scale i ws stream).2 = decide (stream.length < 2 * ws.sum) := by
  induction ws generalizing i stream with
  | nil => rfl
  | cons b ws ih =>
    obtain ⟨hb, hws⟩ := List.forall_mem_cons.mp hpos
    rw [decBins, ih _ _ hws, readField_missing, readField_missing, List.length_drop, List.sum_cons, ← Bool.decide_or,
      ← Bool.decide_or, decide_eq_decide]
    omega

theorem weights_getD {p i : Nat} (hi : i < binCount p) : (weights p).getD i 0 = weight p i := by
  simp [weights, List.getD_eq_getElem?_getD, hi]

theorem fieldPos_eq_take {p i : Nat} (hi : i ≤ binCount p) : 96 + 2 * ((weights p).take i).sum = fieldPos p i := by
  rw [weights, ← List.map_take, List.take_range, Nat.min_eq_left hi, fieldPos]

/-- Settles O50: the fields are read one after the other from bit 96 on, and the valid bits end at 8·FLEN. -/
theorem decReadsTheFields : Obligations.DecReadsTheFields := by
  intro t m flen p i hflen hp hi
  rw [decFrameBins, decBins_getD _ _ _ _ _ (by simpa using hi), readField_drop, readField_drop, readField_validBits _ _ _ _ hflen,
    readField_validBits _ _ _ _ hflen, weights_getD hi, Nat.zero_add, ← Nat.add_assoc]
  have hpos : 8 * Config.headerSize + 2 * ((weights p).take i).sum = fieldPos p i := fieldPos_eq_take hi.le
  rw [hpos]

theorem decFrameBins_length (t : Tag) (m : Memory) (flen p : Nat) : (decFrameBins t m flen p).1.length = binCount p := by
  rw [decFrameBins, decBins_length, weights_length]

theorem decFrameBins_missing (t : Tag) (m : Memory) {flen p : Nat} (hflen : flen ≤ 4096) (h12 : 12 ≤ flen) (hp : p ≤ 3) :
    (decFrameBins t m flen p).2 = decide (8 * flen < 96 + totalBits p) := by
  have hpos : ∀ b ∈ weights p, 0 < b := by
    intro b hb
    obtain ⟨i, hi, rfl⟩ := List.mem_map.mp hb
    exact lt_of_lt_of_le (by decide) (weight_bounds p (by omega) i (List.mem_range.mp hi)).1
  rw [decFrameBins, decBins_missing _ _ _ _ _ hpos, List.length_drop, validBits_length, decide_eq_decide, totalBits,
    Config.headerSize]
  omega

/-! ## What DEC answers (R310, R311) -/

theorem exec_dec (s : State) : exec .dec s = execDec s := rfl

/-- The profile DEC decodes with, and whether it fell back to profile 0 (R311). -/
def frameProfile (m : Memory) : Nat × Bool := lookupDec (m.byte 0x8002).toNat

/-- The bins of the frame in flight, and whether a bit of them was missing. -/
def frameBins (s : State) : List Cpx × Bool :=
  decFrameBins [s.draws] s.inMem s.inRegs.flen.toNat (frameProfile s.inMem).1

/-- The memory DEC leaves: the spectrum `xs` in RE and IM, its samples in PCM_OUT. -/
def decMemory (m : Memory) (t : Tag) (xs : List Cpx) : Memory := (m.writeCpx xs).writePcmOut (decPcm t xs)

theorem execDec_ok (s : State) (h12 : 12 ≤ s.inRegs.flen.toNat) (hversion : s.inMem.byte 0x8000 = 2) :
    execDec s = .next (s.succeed
      { s.regs with
        scale := (decScale [s.draws] s.inMem.fbuf).toBits
        dprof := BitVec.ofNat 8 (frameProfile s.inMem).1
        trunc := (frameBins s).2
        fbk := (frameProfile s.inMem).2 }
      (decMemory s.mem [s.draws] (decSpectrum [s.draws] (frameBins s).1))).nextDraw := by
  have hlen : ¬ s.inRegs.flen.toNat < Config.headerSize := Nat.not_lt.mpr h12
  have hver : ¬ s.inMem.byte fbufBase ≠ BitVec.ofNat 8 Config.version := not_not.mpr hversion
  rw [execDec, if_neg hlen, if_neg hver]
  rfl

theorem execDec_tooSmall (s : State) (h : s.inRegs.flen.toNat < 12) : execDec s = .next (s.fail .tooSmall) := if_pos h

theorem execDec_unsupportedVersion (s : State) (h12 : 12 ≤ s.inRegs.flen.toNat) (hversion : s.inMem.byte 0x8000 ≠ 2) :
    execDec s = .next (s.fail .unsupportedVersion) := by
  have hlen : ¬ s.inRegs.flen.toNat < Config.headerSize := Nat.not_lt.mpr h12
  rw [execDec, if_neg hlen]
  exact if_pos hversion

/-- Settles O51: the length comes first, then the version. -/
theorem decChecksLengthThenVersion : Obligations.DecChecksLengthThenVersion :=
  fun s => ⟨fun h => execDec_tooSmall s h, fun h12 hversion => execDec_unsupportedVersion s h12 hversion⟩

/-! ## The memory DEC leaves (R315) -/

section DecMemory

variable (m : Memory) (t : Tag) {xs : List Cpx} (hxs : xs.length = 1024)

include hxs

theorem bytes_decMemory {x n : Nat} (hx : 0x3000 ≤ x) : (decMemory m t xs).bytes x n = (m.writeCpx xs).bytes x n :=
  bytes_writeBlock_outside _ _ _ _ _ (.inr (by rw [bytesOf32_length, decPcm_length, hxs, pcmOutBase]; omega))

theorem reAt_decMemory {k : Nat} (hk : k < 1024) : (decMemory m t xs).reAt k = (xs.getD k Cpx.zero).re.toBits := by
  rw [← reAt_writeCpx m xs hxs k hk, Memory.reAt, bytes_decMemory m t hxs (by rw [reBase]; omega)]
  rfl

theorem imAt_decMemory {k : Nat} (hk : k < 1024) : (decMemory m t xs).imAt k = (xs.getD k Cpx.zero).im.toBits := by
  rw [← imAt_writeCpx m xs hxs k hk, Memory.imAt, bytes_decMemory m t hxs (by rw [imBase]; omega)]
  rfl

theorem pcmOutAt_decMemory {k : Nat} (hk : k < 1024) :
    (decMemory m t xs).pcmOutAt k = round64to32 (k :: 3 :: t) (xs.getD k Cpx.zero).re := by
  rw [decMemory, pcmOutAt_writePcmOut, decPcm_length, if_pos (hxs ▸ hk)]
  simp [decPcm, List.getD_eq_getElem?_getD, hxs, hk]

theorem byte_decMemory_outside {a : Nat} (ha : a < 0x2000 ∨ (0x3000 ≤ a ∧ a < 0x4000) ∨ 0x8000 ≤ a) :
    (decMemory m t xs).byte a = m.byte a := by
  rw [decMemory, byte_writePcmOut_outside _ _ _ (by rw [decPcm_length, hxs]) (by rw [pcmOutBase]; omega),
    byte_writeCpx_outside _ _ _ hxs (by rw [reBase]; omega)]

end DecMemory

/-! ## The decoded frame (R310 to R316) -/

theorem decScale_fbuf (t : Tag) (m : Memory) :
    decScale t m.fbuf = widen32to64 (0 :: t) (BitVec.ofNat 32 (leNat (m.bytes 0x8004 4))) := by
  have hbytes : (m.fbuf.drop 4).take 4 = m.bytes 0x8004 4 := by
    rw [Memory.fbuf, block_eq_bytes, bytes_drop_take _ _ _ _ _ (by decide), fbufBase]
  rw [decScale, hbytes]

theorem lookupDec_eq (p : Nat) : lookupDec p = (if p ≤ 3 then p else 0, decide (3 < p)) := by
  unfold lookupDec
  split
  · next h => rw [decide_eq_false (by omega)]
  · next h => rw [decide_eq_true (by omega)]

theorem frameProfile_le (m : Memory) : (frameProfile m).1 ≤ 3 := lookupDec_le _

theorem decSpectrum_frameBins (s : State) : decSpectrum [s.draws] (frameBins s).1 =
    fftCore [2, s.draws] true ((List.range 1024).map fun k =>
      if k < binCount (frameProfile s.inMem).1 then (frameBins s).1.getD k Cpx.zero
      else if 1024 - binCount (frameProfile s.inMem).1 < k then
        { re := ((frameBins s).1.getD (1024 - k) Cpx.zero).re, im := ((frameBins s).1.getD (1024 - k) Cpx.zero).im.neg }
      else { re := Fp.zero, im := Fp.zero }) := by
  have hlen : (frameBins s).1.length = binCount (frameProfile s.inMem).1 := decFrameBins_length ..
  have hpos := binCount_pos (frameProfile_le s.inMem)
  have hle := binCount_le (frameProfile s.inMem).1
  rw [decSpectrum, hermitian_eq_map (by omega) (by omega), hlen]

/-- Settles O49: the outcome of the two checks, with the spectrum element by element. -/
theorem decWritesTheSamples : Obligations.DecWritesTheSamples := by
  intro s h12 hflen hversion pid p bins xs
  have hprofile : frameProfile s.inMem = (p, decide (3 < pid)) := lookupDec_eq pid
  have hp : p ≤ 3 := by
    have hle := frameProfile_le s.inMem
    rwa [hprofile] at hle
  have hbins : frameBins s = (bins, decide (8 * s.inRegs.flen.toNat < 96 + totalBits p)) := by
    refine Prod.ext ?_ ?_
    · rw [frameBins, hprofile]
    · rw [frameBins, hprofile]
      exact decFrameBins_missing _ _ hflen h12 hp
  have hxs : decSpectrum [s.draws] (frameBins s).1 = xs := by rw [decSpectrum_frameBins, hprofile, hbins]
  have hlen : xs.length = 1024 := fftCore_length ..
  have hexec := execDec_ok s h12 hversion
  rw [hxs, hbins, hprofile, decScale_fbuf] at hexec
  exact ⟨_, hexec, ⟨rfl, rfl, rfl⟩, rfl, rfl,
    fun k hk => ⟨reAt_decMemory _ _ hlen hk, imAt_decMemory _ _ hlen hk, pcmOutAt_decMemory _ _ hlen hk⟩,
    fun a ha => byte_decMemory_outside _ _ hlen ha⟩

/-! ## What DEC does not read (R132, R134, R136, R140) -/

/-- The memories hold the same bytes of a frame of profile `p`, but for those DEC does not read. -/
def SameFrame (p : Nat) (m m' : Memory) : Prop :=
  ∀ a < frameBytes p, a ≠ 1 → a ≠ 3 → a < 8 ∨ 11 < a → m'.byte (0x8000 + a) = m.byte (0x8000 + a)

section SameFrame

variable {p : Nat} {m m' : Memory} (h : SameFrame p m m')

include h

theorem SameFrame.header : m'.byte 0x8000 = m.byte 0x8000 ∧ m'.byte 0x8002 = m.byte 0x8002 ∧
    m'.bytes 0x8004 4 = m.bytes 0x8004 4 := by
  have hframe : 12 ≤ frameBytes p := Nat.le_add_right _ _
  refine ⟨h 0 (by omega) (by decide) (by decide) (by decide), h 2 (by omega) (by decide) (by decide) (by decide), ?_⟩
  refine List.map_congr_left fun k hk => ?_
  have hk : k < 4 := List.mem_range.mp hk
  rw [Nat.add_assoc 0x8000 4 k]
  exact h (4 + k) (by omega) (by omega) (by omega) (by omega)

/-- The bits of the payload are the same. -/
theorem SameFrame.fbufBit {q : Nat} (hlo : 96 ≤ q) (hhi : q < 96 + totalBits p) : m'.fbufBit q = m.fbufBit q := by
  have hframe : frameBytes p = 12 + (totalBits p + 7) / 8 := rfl
  rw [Memory.fbufBit, Memory.fbufBit, fbufBase, h (q / 8) (by omega) (by omega) (by omega) (by omega)]

theorem SameFrame.fbufField {stop pos n : Nat} (hlo : 96 ≤ pos) (hhi : pos + n ≤ 96 + totalBits p) :
    m'.fbufField stop pos n = m.fbufField stop pos n := by
  rw [Memory.fbufField, Memory.fbufField]
  refine congrArg natOf (List.map_congr_left fun k hk => ?_)
  have hk : k < n := List.mem_range.mp hk
  rw [h.fbufBit (by omega) (by omega)]

theorem SameFrame.decFrameBins (t : Tag) {flen : Nat} (hflen : flen ≤ 4096) (hp : p ≤ 3) :
    (decFrameBins t m' flen p).1 = (decFrameBins t m flen p).1 := by
  have hscale : decScale t m'.fbuf = decScale t m.fbuf := by
    obtain ⟨-, -, hbytes⟩ := h.header
    rw [decScale_fbuf, decScale_fbuf, hbytes]
  refine List.ext_getElem (by rw [decFrameBins_length, decFrameBins_length]) fun i hi hi' => ?_
  have hbin : i < binCount p := by rwa [decFrameBins_length] at hi
  have hend := fieldPos_le hbin
  have hpos : 96 ≤ fieldPos p i := Nat.le_add_right 96 _
  rw [← List.getD_eq_getElem _ Cpx.zero, ← List.getD_eq_getElem _ Cpx.zero, decReadsTheFields t m' flen p i hflen hp hbin,
    decReadsTheFields t m flen p i hflen hp hbin, hscale, h.fbufField hpos (by omega), h.fbufField (by omega) (by omega)]

end SameFrame

/-- Settles O52: both frames meet the same checks, and give the same scale and the same bins. -/
theorem decIgnoresTheBytesItMustNotRead : Obligations.DecIgnoresTheBytesItMustNotRead := by
  intro s s' t t' hdraws hflen hle hframe hexec hexec'
  have hsame : SameFrame (frameProfile s.inMem).1 s.inMem s'.inMem := hframe
  have hp := frameProfile_le s.inMem
  obtain ⟨hbyte0, hbyte2, hbytes⟩ := hsame.header
  have hprofile : frameProfile s'.inMem = frameProfile s.inMem := by rw [frameProfile, hbyte2, frameProfile]
  rw [exec_dec] at hexec hexec'
  by_cases h12 : s.inRegs.flen.toNat < 12
  · rw [execDec_tooSmall s h12] at hexec
    rw [execDec_tooSmall s' (by rwa [hflen])] at hexec'
    cases hexec
    cases hexec'
    exact ⟨rfl, fun h => absurd h ErrCode.noConfusion⟩
  · have h12 : 12 ≤ s.inRegs.flen.toNat := Nat.not_lt.mp h12
    have h12' : 12 ≤ s'.inRegs.flen.toNat := by rwa [hflen]
    by_cases hversion : s.inMem.byte 0x8000 = 2
    · have hbins : frameBins s' = frameBins s := by
        refine Prod.ext ?_ ?_
        · rw [frameBins, frameBins, hdraws, hflen, hprofile]
          exact hsame.decFrameBins _ hle hp
        · rw [frameBins, frameBins, decFrameBins_missing _ _ (by rwa [hflen]) h12' (frameProfile_le _),
            decFrameBins_missing _ _ hle h12 hp, hflen, hprofile]
      rw [execDec_ok s h12 hversion] at hexec
      rw [execDec_ok s' h12' (hbyte0.trans hversion)] at hexec'
      cases hexec
      cases hexec'
      have hlen : (decSpectrum [s.draws] (frameBins s).1).length = 1024 := decSpectrum_length ..
      simp only [nextDraw_regs, succeed_regs, nextDraw_mem, succeed_mem, decScale_fbuf, hbytes, hbins, hdraws, hprofile]
      refine ⟨trivial, fun _ => ⟨trivial, trivial, trivial, trivial, fun k hk => ?_⟩⟩
      rw [pcmOutAt_decMemory _ _ hlen hk, pcmOutAt_decMemory _ _ hlen hk, reAt_decMemory _ _ hlen hk,
        reAt_decMemory _ _ hlen hk, imAt_decMemory _ _ hlen hk, imAt_decMemory _ _ hlen hk]
      exact ⟨rfl, rfl, rfl⟩
    · rw [execDec_unsupportedVersion s h12 hversion] at hexec
      rw [execDec_unsupportedVersion s' h12' (by rwa [hbyte0])] at hexec'
      cases hexec
      cases hexec'
      exact ⟨rfl, fun h => absurd h ErrCode.noConfusion⟩

end Sys2Proof.FrameDecode
end

section
/-! SUPPORT. The forward transform of an impulse (42_fft.md R224, R226): bit reversal moves the impulse, the stages copy
what stands below 2^s over the zeros above it, and the second stage turns an impulse at 256 by i. -/

namespace Sys2Proof.Impulse

open Sys2Proof Sys2Proof.Machine Sys2Proof.FloatFormat Sys2Proof.ExactArithmetic Sys2Proof.Quantizing
open Sys2Proof.Transform Sys2Proof.Tables

/-! ## Parts that a zero of either sign leaves as they are (R227) -/

/-- A zero of either sign. -/
def IsZero (x : Fp) : Prop := ∃ s, x = .fin s 0 (-1074)

def isFinite (x : Fp) : Bool :=
  match x with
  | .fin _ _ _ => true
  | _ => false

theorem isFinite_iff {x : Fp} : isFinite x = true ↔ ∃ s m e, x = .fin s m e := by
  cases x <;> simp [isFinite]

/-- A finite value other than a zero. -/
def IsNonzero (x : Fp) : Prop := ∃ v ≠ 0, Holds x v

/-- +0.0 or a finite nonzero value: adding a zero of either sign keeps it. -/
def Clean (x : Fp) : Prop := x = Fp.zero ∨ IsNonzero x

section Parts

variable {x y z : Fp} (t : Tag)

theorem isZero_zero : IsZero Fp.zero := ⟨false, rfl⟩

theorem IsZero.neg (hz : IsZero z) : IsZero z.neg := by
  obtain ⟨s, rfl⟩ := hz
  exact ⟨!s, rfl⟩

theorem IsZero.holds (hz : IsZero z) : Holds z 0 := by
  obtain ⟨s, rfl⟩ := hz
  exact holds_zero s

theorem IsZero.add (hy : IsZero y) (hz : IsZero z) : IsZero (Fp.add t y z) := by
  obtain ⟨s, rfl⟩ := hy
  obtain ⟨s', rfl⟩ := hz
  exact ⟨s && s', if_pos (by cases s <;> cases s' <;> rfl)⟩

theorem IsZero.sub (hy : IsZero y) (hz : IsZero z) : IsZero (Fp.sub t y z) := hy.add t hz.neg

theorem IsZero.mul (hz : IsZero z) (hx : isFinite x = true) : IsZero (Fp.mul t z x) := by
  obtain ⟨s, rfl⟩ := hz
  obtain ⟨s', m, e, rfl⟩ := isFinite_iff.mp hx
  exact ⟨s ^^ s', by rw [Fp.mul, Nat.zero_mul, roundTo_zero]; rfl⟩

theorem isZero_mul_right (hx : isFinite x = true) (hz : IsZero z) : IsZero (Fp.mul t x z) := by
  obtain ⟨s, rfl⟩ := hz
  obtain ⟨s', m, e, rfl⟩ := isFinite_iff.mp hx
  exact ⟨s' ^^ s, by rw [Fp.mul, Nat.mul_zero, roundTo_zero]; rfl⟩

theorem zero_add_isZero (hz : IsZero z) : Fp.add t Fp.zero z = Fp.zero := by
  obtain ⟨s, rfl⟩ := hz
  cases s <;> rfl

theorem zero_sub_isZero (hz : IsZero z) : Fp.sub t Fp.zero z = Fp.zero := zero_add_isZero t hz.neg

theorem IsNonzero.isFinite (hx : IsNonzero x) : isFinite x = true := by
  obtain ⟨v, -, s, m, e, rfl, -⟩ := hx
  rfl

theorem IsNonzero.neg (hx : IsNonzero x) : IsNonzero x.neg := by
  obtain ⟨v, hv, hx⟩ := hx
  exact ⟨-v, neg_ne_zero.mpr hv, hx.neg⟩

theorem IsNonzero.add_isZero (hx : IsNonzero x) (hz : IsZero z) : Fp.add t x z = x := by
  obtain ⟨v, hv, hx⟩ := hx
  have hsum := hx.add t hz.holds
  rw [add_zero] at hsum
  exact (hsum.exact hx).unique hx hv

theorem IsNonzero.sub_isZero (hx : IsNonzero x) (hz : IsZero z) : Fp.sub t x z = x := hx.add_isZero t hz.neg

theorem IsZero.add_nonzero (hz : IsZero z) (hx : IsNonzero x) : Fp.add t z x = x := by
  obtain ⟨v, hv, hx⟩ := hx
  have hsum := hz.holds.add t hx
  rw [zero_add] at hsum
  exact (hsum.exact hx).unique hx hv

theorem IsNonzero.mul_ofNat_one (hx : IsNonzero x) : Fp.mul t x (Fp.ofNat 1) = x := by
  obtain ⟨v, hv, hx⟩ := hx
  have hproduct := hx.mul t (holds_ofNat (n := 1) (by decide))
  rw [Nat.cast_one, mul_one] at hproduct
  exact (hproduct.exact hx).unique hx hv

theorem Clean.add_isZero (hx : Clean x) (hz : IsZero z) : Fp.add t x z = x := by
  obtain rfl | hx := hx
  · exact zero_add_isZero t hz
  · exact hx.add_isZero t hz

theorem Clean.sub_isZero (hx : Clean x) (hz : IsZero z) : Fp.sub t x z = x := hx.add_isZero t hz.neg

end Parts

/-- The height of the impulse. -/
theorem isNonzero_ofBits {u : Word64} (hfin : finiteBits u = true) (hne : u.extractLsb' 0 63 ≠ 0) :
    IsNonzero (Fp.ofBits u) := by
  obtain ⟨s, m, e, hu, hc⟩ := ofBits_of_finiteBits hfin
  have hm := ofBits_mant_pos hu hne
  exact ⟨_, fun hzero => hm.ne' (magnitude_eq_zero_iff.mp (signedValue_eq_zero_iff.mp hzero)), s, m, e, hu, hc, rfl⟩

/-! ## Twiddles (R222, R223) -/

theorem stageTwiddles_finite : ∀ s < 11, ∀ w ∈ stageTwiddles false s, isFinite w.re = true ∧ isFinite w.im = true := by
  decide +kernel

theorem twiddleOf_finite {s : Nat} (hs : s ≤ 10) (j : Nat) :
    isFinite (twiddleOf false s j).re = true ∧ isFinite (twiddleOf false s j).im = true := by
  rw [twiddleOf, List.getD_eq_getElem?_getD]
  rcases hj : (stageTwiddles false s)[j]? with _ | w
  · exact ⟨rfl, rfl⟩
  · exact stageTwiddles_finite s (by omega) w (List.mem_of_getElem? hj)

/-- The turn by a quarter of the second stage is exactly i. -/
theorem twiddleOf_quarter : twiddleOf false 2 1 = { re := Fp.zero, im := Fp.ofNat 1 } := by decide +kernel

/-! ## Butterflies with a zero for an operand -/

/-- A zero in the upper half: both results are the lower element. -/
theorem butterfly_zero_upper (t : Tag) {u w : Cpx} (hre : Clean u.re) (him : Clean u.im)
    (hw : isFinite w.re = true ∧ isFinite w.im = true) : butterfly t u Cpx.zero w = (u, u) := by
  obtain ⟨hwre, hwim⟩ := hw
  have hzero : IsZero (Cpx.mul t Cpx.zero w).re ∧ IsZero (Cpx.mul t Cpx.zero w).im :=
    ⟨(isZero_zero.mul _ hwre).sub _ (isZero_zero.mul _ hwim), (isZero_zero.mul _ hwim).add _ (isZero_zero.mul _ hwre)⟩
  obtain ⟨hzre, hzim⟩ := hzero
  rw [butterfly, Cpx.add, Cpx.sub, hre.add_isZero _ hzre, him.add_isZero _ hzim, hre.sub_isZero _ hzre,
    him.sub_isZero _ hzim]

section Turns

variable (t : Tag) {h : Fp} (hh : IsNonzero h)

include hh

/-- A zero in the lower half and a real upper element, not turned. -/
theorem butterfly_unit : butterfly t Cpx.zero { re := h, im := Fp.zero } { re := Fp.ofNat 1, im := Fp.zero } =
    ({ re := h, im := Fp.zero }, { re := h.neg, im := Fp.zero }) := by
  have hre : (Cpx.mul t { re := h, im := Fp.zero } { re := Fp.ofNat 1, im := Fp.zero }).re = h := by
    rw [Cpx.mul, hh.mul_ofNat_one]
    exact hh.sub_isZero _ (isZero_zero.mul _ rfl)
  have him : IsZero (Cpx.mul t { re := h, im := Fp.zero } { re := Fp.ofNat 1, im := Fp.zero }).im :=
    (isZero_mul_right _ hh.isFinite isZero_zero).add _ (isZero_zero.mul _ rfl)
  rw [butterfly, Cpx.add, Cpx.sub, hre, Cpx.zero, isZero_zero.add_nonzero _ hh, Fp.sub, isZero_zero.add_nonzero _ hh.neg,
    zero_add_isZero _ him, zero_sub_isZero _ him]

/-- The same, turned by i. -/
theorem butterfly_quarter : butterfly t Cpx.zero { re := h, im := Fp.zero } { re := Fp.zero, im := Fp.ofNat 1 } =
    ({ re := Fp.zero, im := h }, { re := Fp.zero, im := h.neg }) := by
  have hre : IsZero (Cpx.mul t { re := h, im := Fp.zero } { re := Fp.zero, im := Fp.ofNat 1 }).re :=
    (isZero_mul_right _ hh.isFinite isZero_zero).sub _ (isZero_zero.mul _ rfl)
  have him : (Cpx.mul t { re := h, im := Fp.zero } { re := Fp.zero, im := Fp.ofNat 1 }).im = h := by
    rw [Cpx.mul, hh.mul_ofNat_one]
    exact hh.add_isZero _ (isZero_zero.mul _ rfl)
  rw [butterfly, Cpx.add, Cpx.sub, him, Cpx.zero, zero_add_isZero _ hre, zero_sub_isZero _ hre,
    isZero_zero.add_nonzero _ hh, Fp.sub, isZero_zero.add_nonzero _ hh.neg]

end Turns

/-! ## The stages on elements that are mostly zeros -/

def CleanCpx (x : Cpx) : Prop := Clean x.re ∧ Clean x.im

theorem cleanCpx_zero : CleanCpx Cpx.zero := ⟨.inl rfl, .inl rfl⟩

/-- The group and the butterfly of an element. -/
theorem butterfly_place (s : Nat) {k : Nat} (hk : k < 1024) : ∃ base j, base < 1024 ∧ base % 2 ^ (s + 1) = 0 ∧
    j < 2 ^ s ∧ (k = base + j ∨ k = base + j + 2 ^ s) := by
  have hsplit := Nat.div_add_mod k (2 ^ (s + 1))
  have hmod : k % 2 ^ (s + 1) < 2 ^ s + 2 ^ s := by
    rw [← Nat.two_mul, ← Nat.pow_succ']
    exact Nat.mod_lt _ (Nat.two_pow_pos _)
  refine ⟨2 ^ (s + 1) * (k / 2 ^ (s + 1)), k % 2 ^ (s + 1) % 2 ^ s, by omega, Nat.mul_mod_right _ _,
    Nat.mod_lt _ (Nat.two_pow_pos s), ?_⟩
  rcases Nat.lt_or_ge (k % 2 ^ (s + 1)) (2 ^ s) with hlow | hhigh
  · left
    rw [Nat.mod_eq_of_lt hlow, hsplit]
  · right
    rw [Nat.mod_eq_sub_mod hhigh, Nat.mod_eq_of_lt (by omega)]
    omega

theorem butterfly_bound {s base j : Nat} (hs : s < 10) (hlt : base < 1024) (hbase : base % 2 ^ (s + 1) = 0)
    (hj : j < 2 ^ s) : base + j + 2 ^ s < 1024 := by
  have hpow : 2 ^ (s + 1) ∣ 1024 := Nat.pow_dvd_pow 2 (show s + 1 ≤ 10 by omega)
  have hgroup : base + 2 ^ (s + 1) ≤ 1024 :=
    Nat.add_le_of_le_sub' hlt.le (Nat.le_of_dvd (by omega) (Nat.dvd_sub hpow (Nat.dvd_of_mod_eq_zero hbase)))
  rw [Nat.pow_succ'] at hgroup
  omega

section Stages

variable {t : Tag} {xs : List Cpx}

/-- A butterfly whose upper element is a zero copies the lower one. -/
theorem afterStages_copy {s base j : Nat} (hs : s < 10) (hlt : base < 1024) (hbase : base % 2 ^ (s + 1) = 0)
    (hj : j < 2 ^ s) (hlow : CleanCpx (afterStages t false xs s (base + j)))
    (hhigh : afterStages t false xs s (base + j + 2 ^ s) = Cpx.zero) :
    afterStages t false xs (s + 1) (base + j) = afterStages t false xs s (base + j) ∧
    afterStages t false xs (s + 1) (base + j + 2 ^ s) = afterStages t false xs s (base + j) := by
  obtain ⟨n, hsum, hdiff⟩ := afterStages_butterfly t false xs (s := s + 1) (by omega) hs hlt hbase hj
  rw [Nat.add_sub_cancel, hhigh, butterfly_zero_upper n hlow.1 hlow.2 (twiddleOf_finite hs j)] at hsum hdiff
  exact ⟨hsum, hdiff⟩

/-- After `s` stages the elements below 2^s are those of `pattern`, and the others are zeros. -/
def Spread (t : Tag) (xs : List Cpx) (pattern : Nat → Cpx) (s : Nat) : Prop :=
  ∀ k < 1024, afterStages t false xs s k = if k < 2 ^ s then pattern k else Cpx.zero

variable {pattern : Nat → Cpx} (hclean : ∀ k, CleanCpx (pattern k))

include hclean

theorem Spread.succ {s : Nat} (h : Spread t xs pattern s) (hs : s < 10) (hper : ∀ k, pattern (k + 2 ^ s) = pattern k) :
    Spread t xs pattern (s + 1) := by
  intro k hk
  obtain ⟨base, j, hlt, hbase, hj, hplace⟩ := butterfly_place s hk
  have hhalf : 2 ^ (s + 1) = 2 ^ s + 2 ^ s := by rw [Nat.pow_succ', Nat.two_mul]
  have hbound : base + j + 2 ^ s < 1024 := butterfly_bound hs hlt hbase hj
  have hlow := h (base + j) (by omega)
  have hhigh : afterStages t false xs s (base + j + 2 ^ s) = Cpx.zero := by rw [h _ hbound, if_neg (by omega)]
  have hcleanLow : CleanCpx (afterStages t false xs s (base + j)) := by
    rw [hlow]
    split
    · exact hclean _
    · exact cleanCpx_zero
  have hcopy : afterStages t false xs (s + 1) k = afterStages t false xs s (base + j) := by
    obtain ⟨hfst, hsnd⟩ := afterStages_copy hs hlt hbase hj hcleanLow hhigh
    rcases hplace with rfl | rfl
    · exact hfst
    · exact hsnd
  rw [hcopy, hlow]
  rcases Nat.eq_zero_or_pos base with rfl | hpos
  · rw [if_pos (by omega), if_pos (by omega)]
    rcases hplace with rfl | rfl
    · rfl
    · exact (hper _).symm
  · have hgroup : 2 ^ (s + 1) ≤ base := Nat.le_of_dvd hpos (Nat.dvd_of_mod_eq_zero hbase)
    rw [if_neg (by omega), if_neg (by omega)]

/-- A pattern with a period that every later stage's half is a multiple of is repeated up to the last element. -/
theorem Spread.last {s : Nat} (h : Spread t xs pattern s) (hs : s ≤ 10)
    (hper : ∀ r, s ≤ r → ∀ k, pattern (k + 2 ^ r) = pattern k) : Spread t xs pattern 10 := by
  induction hn : 10 - s generalizing s with
  | zero =>
    obtain rfl : s = 10 := by omega
    exact h
  | succ n ih =>
    exact ih (h.succ hclean (by omega) (hper s (le_refl s))) (by omega) (fun r hr => hper r (by omega)) (by omega)

end Stages

/-! ## The obligation -/

/-- The samples of the impulse of height `h` at `a`. -/
def impulse (h : Fp) (a : Nat) : List Cpx :=
  (List.range 1024).map fun j => if j = a then { re := h, im := Fp.zero } else Cpx.zero

/-- Bit reversal moves the impulse to the reversed place. -/
theorem afterStages_zero_impulse (t : Tag) (h : Fp) {a k : Nat} (ha : a < 1024) (hk : k < 1024) :
    afterStages t false (impulse h a) 0 k = if k = rev a then { re := h, im := Fp.zero } else Cpx.zero := by
  have hmove : rev k = a ↔ k = rev a :=
    ⟨fun heq => heq ▸ (rev_rev hk).symm, fun heq => heq ▸ rev_rev ha⟩
  rw [afterStages_zero _ _ _ hk]
  simp [impulse, List.getD_eq_getElem?_getD, rev_lt, hmove]

/-- `h` times i^k, with +0.0 in the other part. -/
def turned (h : Fp) (k : Nat) : Cpx :=
  if k % 4 = 0 then { re := h, im := Fp.zero }
  else if k % 4 = 1 then { re := Fp.zero, im := h }
  else if k % 4 = 2 then { re := h.neg, im := Fp.zero }
  else { re := Fp.zero, im := h.neg }

theorem turned_period (h : Fp) (k n : Nat) : turned h (k + 4 * n) = turned h k := by
  rw [turned, turned, Nat.add_mul_mod_self_left]

section Height

variable (t : Tag) {h : Fp} (hh : IsNonzero h)

include hh

theorem cleanCpx_real : CleanCpx { re := h, im := Fp.zero } := ⟨.inr hh, .inl rfl⟩

theorem transform_impulse_zero {k : Nat} (hk : k < 1024) :
    afterStages t false (impulse h 0) 10 k = { re := h, im := Fp.zero } := by
  have hstart : Spread t (impulse h 0) (fun _ => { re := h, im := Fp.zero }) 0 := fun k hk => by
    rw [afterStages_zero_impulse t h (by decide) hk, show rev 0 = 0 by decide]
    simp
  have hlast := hstart.last (fun _ => cleanCpx_real hh) (by decide) (fun _ _ _ => rfl) k hk
  exact hlast.trans (if_pos hk)

theorem cleanCpx_turned (k : Nat) : CleanCpx (turned h k) := by
  unfold turned
  split_ifs
  · exact ⟨.inr hh, .inl rfl⟩
  · exact ⟨.inl rfl, .inr hh⟩
  · exact ⟨.inr hh.neg, .inl rfl⟩
  · exact ⟨.inl rfl, .inr hh.neg⟩

/-- The first stage copies the impulse, moved from 256 to 2, to the element beside it. -/
theorem afterStages_one {k : Nat} (hk : k < 1024) : afterStages t false (impulse h 256) 1 k =
    if k = 2 ∨ k = 3 then { re := h, im := Fp.zero } else Cpx.zero := by
  have hmoved {i : Nat} (hi : i < 1024) := afterStages_zero_impulse t h (show 256 < 1024 by decide) hi
  rw [show rev 256 = 2 by decide] at hmoved
  obtain ⟨base, j, hlt, hbase, hj, hplace⟩ := butterfly_place 0 hk
  have hbound := butterfly_bound (by decide) hlt hbase hj
  have hclean : CleanCpx (afterStages t false (impulse h 256) 0 (base + j)) := by
    rw [hmoved (by omega)]
    split
    · exact cleanCpx_real hh
    · exact cleanCpx_zero
  obtain ⟨hfst, hsnd⟩ := afterStages_copy (by decide) hlt hbase hj hclean (by rw [hmoved hbound, if_neg (by omega)])
  rw [hmoved (by omega)] at hfst hsnd
  rcases hplace with rfl | rfl
  · rw [hfst]
    exact if_congr (by omega) rfl rfl
  · rw [hsnd]
    exact if_congr (by omega) rfl rfl

/-- The second stage leaves the four turns of `h` in the first group, and zeros in the others. -/
theorem afterStages_two : Spread t (impulse h 256) (turned h) 2 := by
  intro k hk
  have hone {i : Nat} (hi : i < 1024) := afterStages_one t hh hi
  obtain ⟨base, j, hlt, hbase, hj, hplace⟩ := butterfly_place 1 hk
  have hbound := butterfly_bound (by decide) hlt hbase hj
  rcases Nat.eq_zero_or_pos base with rfl | hpos
  · obtain ⟨n, hsum, hdiff⟩ := afterStages_butterfly t false (impulse h 256) (s := 2) (by decide) (by decide) hlt hbase hj
    simp only [Nat.zero_add, Nat.add_one_sub_one] at hsum hdiff hplace
    rw [hone (by omega), hone (by omega), if_neg (by omega), if_pos (by omega)] at hsum hdiff
    obtain rfl | rfl : j = 0 ∨ j = 1 := by omega
    · rw [twiddleOf_zero, butterfly_unit n hh] at hsum hdiff
      rcases hplace with rfl | rfl
      · exact hsum
      · exact hdiff
    · rw [twiddleOf_quarter, butterfly_quarter n hh] at hsum hdiff
      rcases hplace with rfl | rfl
      · exact hsum
      · exact hdiff
  · have hlow : afterStages t false (impulse h 256) 1 (base + j) = Cpx.zero := by
      rw [hone (by omega), if_neg (by omega)]
    obtain ⟨hfst, hsnd⟩ := afterStages_copy (by decide) hlt hbase hj (hlow ▸ cleanCpx_zero)
      (by rw [hone hbound, if_neg (by omega)])
    rw [if_neg (by omega), ← hlow]
    rcases hplace with rfl | rfl
    · exact hfst
    · exact hsnd

theorem transform_impulse_quarter {k : Nat} (hk : k < 1024) :
    afterStages t false (impulse h 256) 10 k = turned h k := by
  have hlast := (afterStages_two t hh).last (cleanCpx_turned hh) (by decide) (fun r hr j => by
    obtain ⟨n, rfl⟩ := Nat.exists_eq_add_of_le hr
    rw [Nat.pow_add, turned_period]) k hk
  exact hlast.trans (if_pos hk)

end Height

/-- Settles O34: the stages copy the impulse at 0 to every element; they copy the four turns of the impulse at 256. -/
theorem impulseTransformsToAConstant : Obligations.ImpulseTransformsToAConstant := by
  intro t u hfin hne k hk
  have hh := isNonzero_ofBits hfin hne
  have hforward (xs : List Cpx) : (fftCore t false xs).getD k Cpx.zero = afterStages (0 :: t) false xs 10 k :=
    fftCore_getD t false xs hk
  exact ⟨(hforward _).trans (transform_impulse_zero _ hh hk), (hforward _).trans (transform_impulse_quarter _ hh hk)⟩


end Sys2Proof.Impulse
end
